-- ==== Sys2Proof/Word.lean ====
section
/-! DEFINITION. Word types of WaveShaper CORE: bytes, command words, data words, and the binary64 patterns
the block stores (spec rules R7, R8, R64, R68, R86). Arithmetic on binary64 stands in Machine/Float64.lean. -/

namespace Sys2Proof

/-- One byte of a command transport (R69) or of a MIDI message (R93). -/
abbrev Byte := BitVec 8

/-- A command word `CW` (R86). -/
abbrev CmdWord := BitVec 32

/-- A 64-bit data, memory or response word (R30, R64, R86). -/
abbrev Word := BitVec 64

/-- An IEEE 754 binary64 value, held as its bit pattern (R7, R68): bit 63 sign, bits 62..52 exponent, bits 51..0 fraction. -/
abbrev F64 := BitVec 64

/-- A binary64 value that is finite by construction. Every finite value is one, and every one is finite: the form
in which the spec's OPEN parameters with the constraint "finite" (R6, R142) are given. -/
structure FinF64 where
  sign : Bool
  exponent : Fin 2047
  fraction : BitVec 52
deriving DecidableEq, Repr, Inhabited

/-- A NaN: a sign and a fraction field. IEEE 754 does not say which NaN an invalid operation yields. -/
structure NaN64 where
  sign : Bool
  payload : BitVec 52
deriving DecidableEq, Repr, Inhabited

end Sys2Proof
end

