-- ==== Sys2Proof/Config.lean ====
section
/-! DEFINITION. What an implementation of WaveShaper CORE fixes and the spec leaves OPEN (R6), and the free values.
Nothing here has a value that a proof could lean on: `Config.params`, `Config.nanResult` and `Config.zeroPick` are
opaque constants without a body. The parameters to which R6 gives a value are constants of the Machine files. -/

namespace Sys2Proof

/-- The noise tint code `P_TINT` (R31): 0 white, 1 pink, 2 brown; code 3 is never held. -/
inductive Tint where
  | white | pink | brown
deriving DecidableEq, Repr, Inhabited

/-- The two command ports (R3, R276). -/
inductive Port where
  | audio | control
deriving DecidableEq, Repr, Inhabited

/-- Waveshaper edge handling `EDGE_MODE` (R6, R167, R168). -/
inductive EdgeMode where
  | wrap | clamp
deriving DecidableEq, Repr, Inhabited

/-- `NOISE_ST` (R36). Its type is the configuration's: a list of 64-bit words can hold any
finite state (DESIGN CHOICE, log entry 7). -/
abbrev NoiseState := List F64

/-- The OPEN parameters of R6, the arguments a model of the block takes. A model must hold for every value of this
record. Where R6 constrains a parameter, the field's type (finite, `FinF64`) or its accessor below keeps the constraint
(DESIGN CHOICE, log entry 6). -/
structure Params where
  /-- raw form of `WT_CAP`; read it through `Params.wtCap` -/
  wtCapRaw : BitVec 53
  /-- raw form of `NOTE_CAP`; read it through `Params.noteCap` -/
  noteCapRaw : BitVec 8
  edgeMode : EdgeMode
  defVolume : FinF64
  defAttack : FinF64
  defDecay : FinF64
  /-- raw form of `DEF_SUSTAIN`; read it through `Params.defSustain` -/
  defSustainRaw : FinF64
  defRelease : FinF64
  defTint : Tint
  defMod : FinF64
  defRate : FinF64
  defRange : FinF64
  defShape : FinF64
  /-- two finite values from which `PMIN_MOD` and `PMAX_MOD` are read (`Params.pmin`, `Params.pmax` of Machine/Constants.lean) -/
  modSpan : FinF64 × FinF64
  rateSpan : FinF64 × FinF64
  rangeSpan : FinF64 × FinF64
  shapeSpan : FinF64 × FinF64
  /-- `NoiseRel.init` (R141) -/
  noiseInit : NoiseState
  /-- `NoiseRel(tint, rate, DT, SR, σ, χ) = (σ', n)` (R141); that every sample n is finite (R142) is in its type -/
  noiseRel : Tint → F64 → F64 → F64 → NoiseState → Nat → NoiseState × FinF64
  /-- the free choices χ of the noise draws, in the order they are taken (R141, U-13; DESIGN CHOICE, log entry 8) -/
  draw : Nat → Nat
  /-- raw form of `sin64` (R6, R12); read it through `sin64` of Machine/Constants.lean, which keeps what R154 and R180 say
  of the sine -/
  sinRaw : F64 → FinF64
  /-- raw form of `pow64` (R6, R12); read it through `pow64` of Machine/Constants.lean, which keeps what R224 says of the
  gain -/
  powRaw : F64 → F64 → F64
  /-- raw form of the volume at and below which the gain is 0.0 (R224); read it through `silentVolume` of
  Machine/Constants.lean (DESIGN CHOICE, log entry 11) -/
  silentRaw : FinF64
  /-- which port's event comes next where both have one (R74, U-7): the choices of an allowed merge, in
  order (DESIGN CHOICE, log entry 2) -/
  merge : Nat → Port
deriving Inhabited

/-- The configuration of this machine: every OPEN parameter of R6, of no known value. -/
opaque Config.params : Params

/-- The operations of R12 whose result may be a NaN. -/
inductive FloatOp where
  | add | mul | div | floor
deriving DecidableEq, Repr

/-- Which NaN an operation on these operands yields: IEEE 754 leaves the sign and the payload open (free
value; DESIGN CHOICE, log entry 4). -/
opaque Config.nanResult : FloatOp → F64 → F64 → NaN64

/-- Which of two zeros of opposite signs `min` (false) or `max` (true) returns: R12 and U-8 leave it open (free value;
DESIGN CHOICE, log entry 5).
True stands for the first operand. -/
opaque Config.zeroPick : Bool → F64 → F64 → Bool

/-- `WT_CAP` (R6): at least 1 and below 2^53. -/
def Params.wtCap (P : Params) : Nat := max 1 P.wtCapRaw.toNat

/-- `NOTE_CAP` (R6): 1 to 255. -/
def Params.noteCap (P : Params) : Nat := max 1 P.noteCapRaw.toNat

end Sys2Proof
end

