-- ==== Sys2Proof/Syntax.lean ====
section
/-! DEFINITION. The commands of WaveShaper CORE, one constructor per row of the opcode map (R96), each with the operand
fields its format gives it (R89 to R95) at their widths. -/

namespace Sys2Proof

/-- The field of a snapshot record a format SF command names (R95, R256). -/
inductive SnapField where
  | mod | rate | range | shape
deriving DecidableEq, Repr

/-- A command (R96). -/
inductive Instr where
  | nop
  | reset (blockSize : BitVec 24) (sampleRate : F64)
  | processBlock (frameCount : BitVec 20) (channelCount : BitVec 4)
  | midiMsg (status d1 d2 : Byte) (offset : Word)
  | envStop
  | setVolume (v : F64)
  | setAttack (v : F64)
  | setDecay (v : F64)
  | setSustain (v : F64)
  | setRelease (v : F64)
  | setNoiseTint (v : F64)
  | setNoiseMod (v : F64)
  | setNoiseRate (v : F64)
  | setNoiseRange (v : F64)
  | setNoiseShape (v : F64)
  | setNoiseSnapshot (v : F64)
  | wtBegin (channels : BitVec 4) (frames : Word)
  | wtPush (v : F64)
  | wtCommit
  | getNoiseOffset
  | getNoiseRate
  | getShape
  | getShaperSize
  | getShaperMapValue
  | getStatus
  | getFaultInfo
  | updateNoiseSnapshot (idx : BitVec 4)
  | getNoiseSnapshot (field : SnapField) (idx : BitVec 4)
  | getNoiseSnapshotNormalized (field : SnapField) (idx : BitVec 4)
deriving DecidableEq, Repr

end Sys2Proof
end

