-- ==== Sys2Proof/WellFormed.lean ====
section
/-! DEFINITION. Well-formed commands. The operand fields of `Instr` have their encoded widths, so every term encodes;
a term is well-formed when its operands lie in the domains the spec states for them alone, without the state (R266).
An ill-formed command is encodable and is refused with BAD_ARG by its meaning. The port class of R96 and R100 is a second check, on a command and a port. -/

namespace Sys2Proof

/-- The pattern is finite: its exponent field is not all ones (R12). -/
def finitePattern (v : F64) : Bool := v.extractLsb' 52 11 != BitVec.allOnes 11

/-- The pattern is finite and above zero (the sample rate of R192). -/
def positivePattern (v : F64) : Bool := finitePattern v && !v.msb && v != 0#64

/-- The pattern is one of 0.0, -0.0, 1.0, 2.0 (the tint operand of R146). -/
def tintPattern (v : F64) : Bool :=
  v == 0#64 || v == 0x8000000000000000#64 || v == 0x3FF0000000000000#64 || v == 0x4000000000000000#64

/-- The operands lie in the domains R266 states for them, as far as they can be read without the state or the configuration. -/
def Instr.wellFormed : Instr → Bool
  | .nop => true
  | .reset blockSize sampleRate => blockSize != 0#24 && positivePattern sampleRate
  | .processBlock _ _ => true
  | .midiMsg status d1 d2 _ => status.msb && !d1.msb && !d2.msb
  | .envStop => true
  | .setVolume v => finitePattern v
  | .setAttack v => finitePattern v
  | .setDecay v => finitePattern v
  | .setSustain v => finitePattern v
  | .setRelease v => finitePattern v
  | .setNoiseTint v => tintPattern v
  | .setNoiseMod v => finitePattern v
  | .setNoiseRate v => finitePattern v
  | .setNoiseRange v => finitePattern v
  | .setNoiseShape v => finitePattern v
  | .setNoiseSnapshot v => finitePattern v
  | .wtBegin channels _ => channels != 0#4
  | .wtPush v => finitePattern v
  | .wtCommit => true
  | .getNoiseOffset => true
  | .getNoiseRate => true
  | .getShape => true
  | .getShaperSize => true
  | .getShaperMapValue => true
  | .getStatus => true
  | .getFaultInfo => true
  | .updateNoiseSnapshot idx => idx ≤ 7#4
  | .getNoiseSnapshot _ idx => idx ≤ 7#4
  | .getNoiseSnapshotNormalized _ idx => idx ≤ 7#4

/-- The command is of port class A: accepted on the AUDIO port only (R96, R100, R276). -/
def Instr.audioOnly : Instr → Bool
  | .reset _ _ => true
  | .processBlock _ _ => true
  | .midiMsg _ _ _ _ => true
  | .envStop => true
  | .nop | .setVolume _ | .setAttack _ | .setDecay _ | .setSustain _ | .setRelease _ | .setNoiseTint _
  | .setNoiseMod _ | .setNoiseRate _ | .setNoiseRange _ | .setNoiseShape _ | .setNoiseSnapshot _
  | .wtBegin _ _ | .wtPush _ | .wtCommit | .getNoiseOffset | .getNoiseRate | .getShape | .getShaperSize
  | .getShaperMapValue | .getStatus | .getFaultInfo | .updateNoiseSnapshot _ | .getNoiseSnapshot _ _
  | .getNoiseSnapshotNormalized _ _ => false

/-- The port accepts the command (R100). -/
def Instr.acceptedOn (port : Port) (i : Instr) : Bool :=
  match port with
  | .audio => true
  | .control => !i.audioOnly

end Sys2Proof
end

