-- ==== Sys2Proof/Decode.lean ====
section
/-! DEFINITION. Decoding a port's command stream and encoding commands (rules R86 to R101). A stream is the bytes of a
byte-wide transport, each word little-endian, packed with no padding (R68, R69). -/

namespace Sys2Proof

/-- The eight bytes of a 64-bit word, little-endian (R68). -/
def Word.bytes (w : Word) : List Byte :=
  [w.extractLsb' 0 8, w.extractLsb' 8 8, w.extractLsb' 16 8, w.extractLsb' 24 8,
   w.extractLsb' 32 8, w.extractLsb' 40 8, w.extractLsb' 48 8, w.extractLsb' 56 8]

/-- The four bytes of a command word, little-endian (R68, R69). -/
def CmdWord.bytes (w : CmdWord) : List Byte :=
  [w.extractLsb' 0 8, w.extractLsb' 8 8, w.extractLsb' 16 8, w.extractLsb' 24 8]

/-- The field code of format SF (R95, R256). -/
def SnapField.code : SnapField → BitVec 2
  | .mod => 0#2
  | .rate => 1#2
  | .range => 2#2
  | .shape => 3#2

/-- The field a two-bit code names: every code names one (R256). -/
def SnapField.ofCode (c : BitVec 2) : SnapField :=
  match c.toNat with
  | 0 => .mod
  | 1 => .rate
  | 2 => .range
  | _ => .shape

/-- `OP = CW[31:24]` (R87). -/
def opOf (cw : CmdWord) : BitVec 8 := cw.extractLsb' 24 8

/-- `IMM = CW[23:0]` (R87). -/
def immOf (cw : CmdWord) : BitVec 24 := cw.extractLsb' 0 24

/-- A command has a data word iff its OP is one of these; every other OP, reserved ones too, has none (R97). -/
def opHasData (op : BitVec 8) : Bool :=
  let n := op.toNat
  n == 0x01 || n == 0x03 || (0x10 ≤ n && n ≤ 0x1A) || n == 0x20 || n == 0x21

/-- Why a command word is no command (R98, R99); both raise ILLEGAL_OP (R264). -/
inductive Illegal where
  /-- the OP value is in no row of the opcode map -/
  | reservedOp
  /-- a bit of IMM that the format marks 0 is set -/
  | reservedBits
deriving DecidableEq, Repr

/-- The command if the IMM bits its format marks 0 are 0, and otherwise the rejection of R99. -/
def ifClear {w : Nat} (reserved : BitVec w) (i : Instr) : Except Illegal Instr :=
  if reserved = 0#w then .ok i else .error .reservedBits

/-- The command of a command word and the data word that follows it (0 where there is none), by the opcode map R96 and
the formats R89 to R95. -/
def decodeWords (cw : CmdWord) (dw : Word) : Except Illegal Instr :=
  let imm := immOf cw
  let idx := cw.extractLsb' 0 4
  let field := SnapField.ofCode (cw.extractLsb' 4 2)
  let above4 := cw.extractLsb' 4 20
  let above6 := cw.extractLsb' 6 18
  match (opOf cw).toNat with
  | 0x00 => ifClear imm .nop
  | 0x01 => .ok (.reset imm dw)
  | 0x02 => .ok (.processBlock (cw.extractLsb' 4 20) (cw.extractLsb' 0 4))
  | 0x03 => .ok (.midiMsg (cw.extractLsb' 16 8) (cw.extractLsb' 8 8) (cw.extractLsb' 0 8) dw)
  | 0x04 => ifClear imm .envStop
  | 0x10 => ifClear imm (.setVolume dw)
  | 0x11 => ifClear imm (.setAttack dw)
  | 0x12 => ifClear imm (.setDecay dw)
  | 0x13 => ifClear imm (.setSustain dw)
  | 0x14 => ifClear imm (.setRelease dw)
  | 0x15 => ifClear imm (.setNoiseTint dw)
  | 0x16 => ifClear imm (.setNoiseMod dw)
  | 0x17 => ifClear imm (.setNoiseRate dw)
  | 0x18 => ifClear imm (.setNoiseRange dw)
  | 0x19 => ifClear imm (.setNoiseShape dw)
  | 0x1A => ifClear imm (.setNoiseSnapshot dw)
  | 0x20 => ifClear above4 (.wtBegin idx dw)
  | 0x21 => ifClear imm (.wtPush dw)
  | 0x22 => ifClear imm .wtCommit
  | 0x30 => ifClear imm .getNoiseOffset
  | 0x31 => ifClear imm .getNoiseRate
  | 0x32 => ifClear imm .getShape
  | 0x33 => ifClear imm .getShaperSize
  | 0x34 => ifClear imm .getShaperMapValue
  | 0x35 => ifClear imm .getStatus
  | 0x36 => ifClear imm .getFaultInfo
  | 0x40 => ifClear above4 (.updateNoiseSnapshot idx)
  | 0x41 => ifClear above6 (.getNoiseSnapshot field idx)
  | 0x42 => ifClear above6 (.getNoiseSnapshotNormalized field idx)
  | _ => .error .reservedOp

/-- What stands at the head of a port's command stream. -/
inductive Decoded where
  /-- a whole command, and the stream after it -/
  | command (i : Instr) (rest : List Byte)
  /-- an illegal command word, consumed with its data word if its OP has one (R97), and the stream after it -/
  | illegal (why : Illegal) (cw : CmdWord) (rest : List Byte)
  /-- the transport has not delivered a whole command yet (R69) -/
  | incomplete
deriving DecidableEq, Repr

/-- The command word in four bytes, the first the least significant (R68). -/
def cmdWordOf (b0 b1 b2 b3 : Byte) : CmdWord := b3 ++ b2 ++ b1 ++ b0

/-- The data word in eight bytes, the first the least significant (R68). -/
def wordOf (b0 b1 b2 b3 b4 b5 b6 b7 : Byte) : Word := b7 ++ b6 ++ b5 ++ b4 ++ b3 ++ b2 ++ b1 ++ b0

/-- The result of decoding a whole command that the stream `rest` follows. -/
def decodeWhole (cw : CmdWord) (dw : Word) (rest : List Byte) : Decoded :=
  match decodeWords cw dw with
  | .ok i => .command i rest
  | .error why => .illegal why cw rest

/-- Decoding a stream (R97): read CW, decide the length from OP, and read the data word if there is one, before any check. -/
def decode : List Byte → Decoded
  | b0 :: b1 :: b2 :: b3 :: more =>
    let cw := cmdWordOf b0 b1 b2 b3
    if opHasData (opOf cw) then
      match more with
      | d0 :: d1 :: d2 :: d3 :: d4 :: d5 :: d6 :: d7 :: rest =>
        decodeWhole cw (wordOf d0 d1 d2 d3 d4 d5 d6 d7) rest
      | _ => .incomplete
    else decodeWhole cw 0#64 more
  | _ => .incomplete

/-- The instruction the decoder reads from an instruction whose bits are `w`: bits 31..0 the command word, bits 95..32
the data word, every bit from `nbits` up 0. The words are laid out as the transport carries them (R68, R69). -/
def decodeTableWord (nbits w : Nat) : Option Instr :=
  let v := w % 2 ^ nbits
  match decode (CmdWord.bytes (BitVec.ofNat 32 v) ++ Word.bytes (BitVec.ofNat 64 (v / 2 ^ 32))) with
  | .command i _ => some i
  | _ => none

/-! ### The encoder -/

/-- A command word whose IMM is 0: formats N and D (R89, R90). -/
def cwPlain (op : BitVec 8) : CmdWord := op ++ 0#24

/-- The command word of a command (R89 to R96). -/
def Instr.commandWord : Instr → CmdWord
  | .nop => cwPlain 0x00#8
  | .reset blockSize _ => 0x01#8 ++ blockSize
  | .processBlock frameCount channelCount => 0x02#8 ++ frameCount ++ channelCount
  | .midiMsg status d1 d2 _ => 0x03#8 ++ status ++ d1 ++ d2
  | .envStop => cwPlain 0x04#8
  | .setVolume _ => cwPlain 0x10#8
  | .setAttack _ => cwPlain 0x11#8
  | .setDecay _ => cwPlain 0x12#8
  | .setSustain _ => cwPlain 0x13#8
  | .setRelease _ => cwPlain 0x14#8
  | .setNoiseTint _ => cwPlain 0x15#8
  | .setNoiseMod _ => cwPlain 0x16#8
  | .setNoiseRate _ => cwPlain 0x17#8
  | .setNoiseRange _ => cwPlain 0x18#8
  | .setNoiseShape _ => cwPlain 0x19#8
  | .setNoiseSnapshot _ => cwPlain 0x1A#8
  | .wtBegin channels _ => 0x20#8 ++ 0#20 ++ channels
  | .wtPush _ => cwPlain 0x21#8
  | .wtCommit => cwPlain 0x22#8
  | .getNoiseOffset => cwPlain 0x30#8
  | .getNoiseRate => cwPlain 0x31#8
  | .getShape => cwPlain 0x32#8
  | .getShaperSize => cwPlain 0x33#8
  | .getShaperMapValue => cwPlain 0x34#8
  | .getStatus => cwPlain 0x35#8
  | .getFaultInfo => cwPlain 0x36#8
  | .updateNoiseSnapshot idx => 0x40#8 ++ 0#20 ++ idx
  | .getNoiseSnapshot field idx => 0x41#8 ++ 0#18 ++ field.code ++ idx
  | .getNoiseSnapshotNormalized field idx => 0x42#8 ++ 0#18 ++ field.code ++ idx

/-- The data word of a command, where it has one (R88, R96, R97). -/
def Instr.dataWord : Instr → Option Word
  | .reset _ sampleRate => some sampleRate
  | .midiMsg _ _ _ offset => some offset
  | .setVolume v => some v
  | .setAttack v => some v
  | .setDecay v => some v
  | .setSustain v => some v
  | .setRelease v => some v
  | .setNoiseTint v => some v
  | .setNoiseMod v => some v
  | .setNoiseRate v => some v
  | .setNoiseRange v => some v
  | .setNoiseShape v => some v
  | .setNoiseSnapshot v => some v
  | .wtBegin _ frames => some frames
  | .wtPush v => some v
  | .nop | .processBlock _ _ | .envStop | .wtCommit | .getNoiseOffset | .getNoiseRate | .getShape | .getShaperSize
  | .getShaperMapValue | .getStatus | .getFaultInfo | .updateNoiseSnapshot _ | .getNoiseSnapshot _ _
  | .getNoiseSnapshotNormalized _ _ => none

/-- The bytes a host sends for a command: 4, or 12 where it has a data word (R69, R86). -/
def encode (i : Instr) : List Byte :=
  CmdWord.bytes i.commandWord ++ (i.dataWord.map Word.bytes).getD []

end Sys2Proof
end

