-- ==== Sys2Proof/Machine/Float64.lean ====
section
/-! DEFINITION. IEEE 754 binary64 arithmetic with round-to-nearest-ties-to-even and gradual underflow (R7, R12).
Every operation computes the exact real result as a ratio of natural numbers and rounds it once. Magnitudes are counted
in units of 2^-1074, the smallest positive binary64, so that every finite value is a whole number of units. -/

namespace Sys2Proof

/-- The bit pattern of a finite value. -/
def FinF64.bits (x : FinF64) : F64 :=
  BitVec.ofBool x.sign ++ BitVec.ofNat 11 x.exponent.val ++ x.fraction

/-- The bit pattern of a NaN (a zero payload would be an infinity, and stands for the quiet NaN of payload 2^51). -/
def NaN64.bits (x : NaN64) : F64 :=
  BitVec.ofBool x.sign ++ BitVec.allOnes 11 ++ (if x.payload = 0#52 then BitVec.twoPow 52 51 else x.payload)

namespace Machine

/-- The number of units in 1.0. -/
def unitScale : Nat := 2 ^ 1074

/-- The magnitude bits of a pattern: all but the sign. -/
def magBits (x : F64) : Nat := x.toNat % 2 ^ 63

/-- The magnitude bits of an infinity; those of a NaN are larger, those of a finite value smaller. -/
def infMag : Nat := 0x7FF0000000000000

/-- `finite(x)` (R12): neither an infinity nor a NaN. -/
def isFinite (x : F64) : Bool := magBits x < infMag

/-- The pattern is a NaN. -/
def isNaN (x : F64) : Bool := infMag < magBits x

/-- The value of finite magnitude bits, in units: with exponent field E and shift max(E, 1) - 1, the bits less the shift
times 2^52 are the significand. -/
def magUnits (b : Nat) : Nat :=
  let shift := b / 2 ^ 52 - 1
  (b - shift * 2 ^ 52) * 2 ^ shift

/-- The value of a finite pattern, in units. -/
def units (x : F64) : Int := if x.msb then -(magUnits (magBits x) : Int) else magUnits (magBits x)

/-- The whole number nearest to p / q, ties to even. -/
def nearestEven (p q : Nat) : Nat :=
  let d := p / q
  let r := p % q
  if 2 * r < q then d else if q < 2 * r then d + 1 else d + d % 2

/-- The magnitude bits of p / q units rounded to nearest, ties to even (R7): the spacing of binary64 values at p / q is
2^shift units, and a magnitude beyond the largest finite one is an infinity. -/
def roundMag (p q : Nat) : Nat :=
  let shift := (p / q).log2 - 52
  min infMag (shift * 2 ^ 52 + nearestEven p (q * 2 ^ shift))

/-- The pattern with this sign and these magnitude bits. -/
def packMag (negative : Bool) (mag : Nat) : F64 :=
  BitVec.ofNat 64 (if negative then 2 ^ 63 + mag else mag)

/-- The value with its sign flipped. -/
def fneg (x : F64) : F64 := packMag (!x.msb) (magBits x)

/-- A whole number of units, rounded; an exact zero takes the given sign. -/
def roundUnits (zeroNegative : Bool) (z : Int) : F64 :=
  if z = 0 then packMag zeroNegative 0 else packMag (z < 0) (roundMag z.natAbs 1)

/-- `fl(a + b)` (R12). An exact zero sum is +0.0 unless both operands are negative zeros (R162). -/
def fadd (a b : F64) : F64 :=
  if isFinite a && isFinite b then roundUnits (a.msb && b.msb) (units a + units b)
  else if isNaN a || isNaN b then (Config.nanResult .add a b).bits
  else if isFinite a then b
  else if isFinite b then a
  else if a = b then a
  else (Config.nanResult .add a b).bits

/-- `fl(a - b)` (R12). -/
def fsub (a b : F64) : F64 := fadd a (fneg b)

/-- `fl(a * b)` (R12). -/
def fmul (a b : F64) : F64 :=
  let negative := a.msb != b.msb
  if isFinite a && isFinite b then
    packMag negative (roundMag (magUnits (magBits a) * magUnits (magBits b)) unitScale)
  else if isNaN a || isNaN b then (Config.nanResult .mul a b).bits
  else if magBits a = 0 || magBits b = 0 then (Config.nanResult .mul a b).bits
  else packMag negative infMag

/-- `fl(a / b)` (R12). -/
def fdiv (a b : F64) : F64 :=
  let negative := a.msb != b.msb
  if isNaN a || isNaN b then (Config.nanResult .div a b).bits
  else if isFinite a && isFinite b then
    if magBits b = 0 then
      if magBits a = 0 then (Config.nanResult .div a b).bits else packMag negative infMag
    else packMag negative (roundMag (magUnits (magBits a) * unitScale) (magUnits (magBits b)))
  else if isFinite b then packMag negative infMag
  else if isFinite a then packMag negative 0
  else (Config.nanResult .div a b).bits

/-- `floor(x)` (R12): the largest whole binary64 at most x; of an infinity itself, of a NaN a NaN, of -0.0 itself
(the sign of that zero: DEDUCED, log entry 12). -/
def ffloor (x : F64) : F64 :=
  if isFinite x then roundUnits x.msb (units x / (unitScale : Int) * unitScale)
  else if isNaN x then (Config.nanResult .floor x x).bits
  else x

/-- The order of the values of patterns that are no NaN: the two zeros have one key, an infinity the largest. -/
def orderKey (x : F64) : Int := if x.msb then -(magBits x : Int) else magBits x

/-- `a < b`; false if either is a NaN. -/
def flt (a b : F64) : Bool := !isNaN a && !isNaN b && orderKey a < orderKey b

/-- `a <= b`, also written `b >= a`; false if either is a NaN. -/
def fle (a b : F64) : Bool := !isNaN a && !isNaN b && orderKey a ≤ orderKey b

/-- `a == b`; false if either is a NaN, true of the two zeros. -/
def feq (a b : F64) : Bool := !isNaN a && !isNaN b && orderKey a == orderKey b

/-- `min(a, b)` for operands that are no NaN (R12); of two zeros of opposite signs either (U-8). -/
def fmin (a b : F64) : F64 :=
  if flt a b then a else if flt b a then b else if a = b then a
  else if Config.zeroPick false a b then a else b

/-- `max(a, b)` for operands that are no NaN (R12); of two zeros of opposite signs either (U-8). -/
def fmax (a b : F64) : F64 :=
  if flt b a then a else if flt a b then b else if a = b then a
  else if Config.zeroPick true a b then a else b

/-- `clamp(x, lo, hi) = min(max(x, lo), hi)` (R12). -/
def fclamp (x lo hi : F64) : F64 := fmin (fmax x lo) hi

/-- The binary64 nearest to p / q, q above 0: the reading of a literal (R12, R104). -/
def ofRatio (p q : Nat) : F64 := packMag false (roundMag (p * unitScale) q)

/-- `toF64(k)` (R12): exact below 2^53. -/
def toF64 (k : Nat) : F64 := ofRatio k 1

/-- `toInt(x)` (R12) of a whole, finite, non-negative value. -/
def toInt (x : F64) : Nat := magUnits (magBits x) / unitScale

/-! ### Literals of the rules -/

/-- +0.0 -/
def f0 : F64 := 0x0000000000000000#64
/-- 0.5 -/
def fHalf : F64 := 0x3FE0000000000000#64
/-- 1.0 -/
def f1 : F64 := 0x3FF0000000000000#64
/-- 2.0 -/
def f2 : F64 := 0x4000000000000000#64
/-- 7.0 -/
def f7 : F64 := 0x401C000000000000#64
/-- 10.0 -/
def f10 : F64 := 0x4024000000000000#64
/-- 20.0 -/
def f20 : F64 := 0x4034000000000000#64
/-- The largest finite binary64 -/
def maxFinite : F64 := 0x7FEFFFFFFFFFFFFF#64
/-- `TWO_PI` (R12) -/
def twoPi : F64 := 0x401921FB54442D18#64

end Machine

end Sys2Proof
end

