-- ==== Sys2Proof/Machine/Constants.lean ====
section
/-! DEFINITION. The parameters to which R6 gives a value, and the accessors of OPEN parameters whose constraint is an
order (R6), and the sine and the power within what the rules say of them. -/

namespace Sys2Proof.Machine

/-- `SNAP_COUNT` (R6). -/
def snapCount : Nat := 8

/-- `kNoiseSnapshotMax` (R6). -/
def kNoiseSnapshotMax : Nat := 7

/-- `T_MOD` (R6): the binary64 nearest to 0.01, seconds. -/
def T_MOD : F64 := 0x3F847AE147AE147B#64

/-- `T_RATE` (R6): the binary64 nearest to 0.01, seconds. -/
def T_RATE : F64 := 0x3F847AE147AE147B#64

/-- `T_RANGE` (R6): the binary64 nearest to 0.1, seconds. -/
def T_RANGE : F64 := 0x3FB999999999999A#64

/-- `T_SHAPE` (R6): the binary64 nearest to 0.1, seconds. -/
def T_SHAPE : F64 := 0x3FB999999999999A#64

/-- `T_RETRIG` (R6): the binary64 nearest to 0.01, seconds. -/
def T_RETRIG : F64 := 0x3F847AE147AE147B#64

/-- `OSC_PHASE0` (R6, R157): a quarter cycle. -/
def OSC_PHASE0 : F64 := 0x3FD0000000000000#64

/-- `ENV_PEAK` (R6): 1.0. -/
def ENV_PEAK : F64 := f1

/-- `DEF_SUSTAIN` (R6): every binary64 in [0, 1], and nothing else, for some raw finite value. -/
def defSustain (P : Params) : F64 :=
  if fle f0 P.defSustainRaw.bits && fle P.defSustainRaw.bits f1 then P.defSustainRaw.bits else f0

/-- `PMIN_f` of a pair of raw finite values (R6): with `spanMax`, every pair of finite values in rising order. -/
def spanMin (span : FinF64 × FinF64) : F64 :=
  if flt span.1.bits span.2.bits then span.1.bits
  else if flt span.2.bits span.1.bits then span.2.bits else f0

/-- `PMAX_f` of a pair of raw finite values (R6). -/
def spanMax (span : FinF64 × FinF64) : F64 :=
  if flt span.1.bits span.2.bits then span.2.bits
  else if flt span.2.bits span.1.bits then span.1.bits else f1

/-- The raw pair of a parameter. -/
def spanOf (P : Params) : SnapField → FinF64 × FinF64
  | .mod => P.modSpan
  | .rate => P.rateSpan
  | .range => P.rangeSpan
  | .shape => P.shapeSpan

/-- `PMIN_f` (R6). -/
def pmin (P : Params) (f : SnapField) : F64 := spanMin (spanOf P f)

/-- `PMAX_f` (R6): above `PMIN_f`. -/
def pmax (P : Params) (f : SnapField) : F64 := spanMax (spanOf P f)

/-- `sin64(x)` (R6, R12), total. Its value is finite (R154; where x is not, DESIGN CHOICE, log entry 10), and of magnitude
at most 1.0, as the window of R180 needs (DEDUCED, log entry 10): a raw value beyond 1.0 becomes the 1.0 of its sign, any
other is the sine itself. -/
def sin64 (P : Params) (x : F64) : F64 :=
  let raw := (P.sinRaw x).bits
  packMag raw.msb (min (magBits raw) (magBits f1))

/-- A volume at and below which the gain is 0.0: R224 says that there is one and not which (DESIGN CHOICE, log entry 11:
any finite volume of at most -20 dB). -/
def silentVolume (P : Params) : F64 :=
  if fle P.silentRaw.bits (fneg f20) then P.silentRaw.bits else fneg maxFinite

/-- `pow64(x, y)` (R6, R12). Of its powers of 10.0, the only ones the block takes, R224 says that the gain is never negative,
is 0.0 for a very negative volume, and is always finite, so also at power-on (R47); the raw value has its say in all else
(DESIGN CHOICE, log entry 11). -/
def pow64 (P : Params) (x y : F64) : F64 :=
  if x = f10 then
    if fle y (fdiv (silentVolume P) f20) then f0
    else if y = fdiv P.defVolume.bits f20 ∧ isFinite (P.powRaw x y) = false then f0
    else packMag false (magBits (P.powRaw x y))
  else P.powRaw x y

end Sys2Proof.Machine
end

