-- ==== Sys2Proof/Machine/State.lean ====
section
/-! DEFINITION. The state of WaveShaper CORE (spec file 10_state.md), plain data, and its power-on value (R47, R281).
Field names are the spec's register names. -/

namespace Sys2Proof.Machine

/-- The five memories of R64. -/
inductive Space where
  | out | wtL | wtR | stg0 | stg1
deriving DecidableEq, Repr

/-- Why a step stops. No rule of the spec stops the block (R209, R280); both reasons are met only in states that no run
reaches from power-on (`Obligations.EveryStepCompletesUnderInvariants`). -/
inductive Fault where
  /-- A table or staging access at a word address that R64 does not give the memory. Raised by the memory operations of
  Machine/Ops.lean. Safe: the model stops where the spec gives no effect. -/
  | outsideSpace (space : Space) (address : Nat)
  /-- A read of a table or staging word that nothing has written, whose contents R47 and U-2 leave unspecified.
  Raised by the memory operations of Machine/Ops.lean. Safe: the model stops where the spec gives no value. -/
  | unwritten (space : Space) (address : Nat)
deriving DecidableEq, Repr

/-- Why a step has no meaning. -/
inductive Refusal where
  /-- The instruction has no meaning in the model yet. Raised by arms of `exec` only; no arm of the finished model
  raises it. Safe: nothing is claimed of the instruction. -/
  | notModelled (mnemonic : String)
deriving DecidableEq, Repr

/-- A memory: (word address, word) pairs, addresses strictly rising. A word that nothing has written is not listed and
reads as no value (R47: unspecified), so equal memories are equal lists (DESIGN CHOICE, log entry 9). -/
abbrev Memory := List (Nat × F64)

/-- A ramp unit (R32, R111). -/
structure Ramp where
  cur : F64
  start : F64
  /-- the spec's field `end` -/
  endVal : F64
  dur : F64
  elapsed : F64
deriving DecidableEq, Repr

/-- The parameter registers (R31). -/
structure ParamRegs where
  P_VOLUME : F64
  VOL_GAIN : F64
  P_ATTACK : F64
  P_DECAY : F64
  P_SUSTAIN : F64
  P_RELEASE : F64
  P_TINT : Tint
  P_MOD : F64
  P_RATE : F64
  P_RANGE : F64
  P_SHAPE : F64
  P_SNAPSHOT : F64
deriving DecidableEq, Repr

/-- `ENV_STATE` (R34): codes 0 to 4; codes 5 to 7 are never held. -/
inductive EnvState where
  | off | attack | decay | sustain | release
deriving DecidableEq, Repr

/-- The envelope registers (R33). -/
structure Envelope where
  ENV_STATE : EnvState
  ENV_OUT : F64
  ENV_ELAPSED : F64
  ENV_AUTOREL : Bool
deriving DecidableEq, Repr

/-- The wavetable staging registers and memories (R39, R67). -/
structure Staging where
  STG_ACTIVE : Bool
  STG_CH : BitVec 4
  STG_N : Nat
  STG_COUNT : Nat
  STG0 : Memory
  STG1 : Memory
deriving DecidableEq, Repr

/-- An event of the MIDI queue (R40). -/
structure MidiEvent where
  offset : Word
  status : Byte
  d1 : Byte
  d2 : Byte
deriving DecidableEq, Repr

/-- A snapshot record (R42, R248). -/
structure Snapshot where
  mod : F64
  rate : F64
  range : F64
  shape : F64
deriving DecidableEq, Repr

/-- The block sequencer (R43); the width of `BLK_S` is that of `BLK_N` (DEDUCED, log entry 19). -/
structure Sequencer where
  BLK_ACTIVE : Bool
  BLK_S : BitVec 20
  BLK_N : BitVec 20
  BLK_C : BitVec 4
  BLK_CW : CmdWord
deriving DecidableEq, Repr

/-- The state of the block. The fields from `AUDIO_IN` on are the model's own: the two ports' command streams, the
responses delivered on them, the port of the command being executed, and the counters of the free choices
(DESIGN CHOICE, log entries 1, 13, 14, 15). -/
structure State where
  /-- R27 -/
  READY : Bool
  /-- R28 -/
  SR : F64
  /-- R28 -/
  DT : F64
  /-- R28 -/
  BLOCK_SIZE : BitVec 24
  /-- R29 -/
  FAULTS : BitVec 16
  /-- R29, R45 -/
  FAULT_INFO : BitVec 40
  /-- R30 -/
  RESP : Word
  /-- R31 -/
  par : ParamRegs
  /-- R32 -/
  RMP_MOD : Ramp
  RMP_RATE : Ramp
  RMP_RANGE : Ramp
  RMP_SHAPE : Ramp
  /-- R33 -/
  env : Envelope
  /-- R35 -/
  OSC_PHASE : F64
  /-- R36 -/
  NOISE_ST : NoiseState
  /-- R37 -/
  WT_N : Nat
  /-- R66 -/
  WT_L : Memory
  WT_R : Memory
  /-- R38 -/
  SHP_LAST_L : F64
  SHP_LAST_R : F64
  SHAPER_MAP : F64
  /-- R39 -/
  stg : Staging
  /-- R40 -/
  MQ : List MidiEvent
  /-- R41 -/
  NS : List Byte
  /-- R42 -/
  SNAP : Vector Snapshot 8
  /-- R43 -/
  blk : Sequencer
  /-- R65 -/
  OUT : Memory
  /-- the commands issued on the AUDIO port and not yet executed -/
  AUDIO_IN : List Byte
  /-- the commands issued on the CONTROL port and not yet executed -/
  CONTROL_IN : List Byte
  /-- the response words delivered on the AUDIO port, oldest first (R78, R208, R293) -/
  AUDIO_RESP : List Word
  /-- the response words delivered on the CONTROL port, oldest first -/
  CONTROL_RESP : List Word
  /-- the port of the command being executed (R100) -/
  PORT : Port
  /-- how many noise draws have been taken (R141) -/
  DRAWS : Nat
  /-- how many times both ports had an event and the merge chose (R74) -/
  MERGES : Nat
deriving DecidableEq, Repr

/-- A ramp settled at a value (R47). -/
def settledRamp (v : F64) : Ramp := { cur := v, start := v, endVal := v, dur := f0, elapsed := f0 }

/-- The power-on state (R47, R281) of a machine with these parameters. SR and DT have no power-on value in the spec and
are 0.0 here (DESIGN CHOICE, log entry 3). -/
def State.powerOn (P : Params) : State where
  READY := false
  SR := f0
  DT := f0
  BLOCK_SIZE := 0#24
  FAULTS := 0#16
  FAULT_INFO := 0#40
  RESP := 0#64
  par :=
    { P_VOLUME := P.defVolume.bits
      VOL_GAIN := pow64 P f10 (fdiv P.defVolume.bits f20)
      P_ATTACK := P.defAttack.bits
      P_DECAY := P.defDecay.bits
      P_SUSTAIN := defSustain P
      P_RELEASE := P.defRelease.bits
      P_TINT := P.defTint
      P_MOD := P.defMod.bits
      P_RATE := P.defRate.bits
      P_RANGE := P.defRange.bits
      P_SHAPE := P.defShape.bits
      P_SNAPSHOT := f0 }
  RMP_MOD := settledRamp P.defMod.bits
  RMP_RATE := settledRamp P.defRate.bits
  RMP_RANGE := settledRamp P.defRange.bits
  RMP_SHAPE := settledRamp P.defShape.bits
  env := { ENV_STATE := .off, ENV_OUT := f0, ENV_ELAPSED := f0, ENV_AUTOREL := false }
  OSC_PHASE := OSC_PHASE0
  NOISE_ST := P.noiseInit
  WT_N := 0
  WT_L := []
  WT_R := []
  SHP_LAST_L := f0
  SHP_LAST_R := f0
  SHAPER_MAP := f0
  stg := { STG_ACTIVE := false, STG_CH := 0#4, STG_N := 0, STG_COUNT := 0, STG0 := [], STG1 := [] }
  MQ := []
  NS := []
  SNAP := Vector.replicate 8
    { mod := P.defMod.bits, rate := P.defRate.bits, range := P.defRange.bits, shape := P.defShape.bits }
  blk := { BLK_ACTIVE := false, BLK_S := 0#20, BLK_N := 0#20, BLK_C := 0#4, BLK_CW := 0#32 }
  OUT := []
  AUDIO_IN := []
  CONTROL_IN := []
  AUDIO_RESP := []
  CONTROL_RESP := []
  PORT := .audio
  DRAWS := 0
  MERGES := 0

/-- The machine right after power-on (R47, R281). -/
def State.reset : State := State.powerOn Config.params

end Sys2Proof.Machine
end

