-- ==== Sys2Proof/Machine/Ops.lean ====
section
/-! DEFINITION. The named operations over memories, responses and faults that every command and every sample step uses.
Taking an exception is `raiseFault`: the block has no trap, so raising a fault records it and changes nothing else (R261,
R262, R273). There is no return from an exception: no handler runs and nothing clears the record (R274). -/

namespace Sys2Proof.Machine

/-! ### Memories -/

/-- Addresses rise strictly: the one canonical form of a memory. -/
def Memory.wf : Memory → Bool
  | [] => true
  | [_] => true
  | x :: y :: rest => x.1 < y.1 && Memory.wf (y :: rest)

/-- `MemRead` of one word; no value where nothing has been written (R10, R47). -/
def memRead : Memory → Nat → Option F64
  | [], _ => none
  | (b, w) :: rest, a => if a = b then some w else memRead rest a

/-- `MemWrite` of one word, in the canonical form (R10). -/
def memWrite : Memory → Nat → F64 → Memory
  | [], a, v => [(a, v)]
  | (b, w) :: rest, a, v =>
    if a < b then (a, v) :: (b, w) :: rest
    else if a = b then (a, v) :: rest
    else (b, w) :: memWrite rest a v

/-- Reading a table or staging memory of `WT_CAP` words (R64). -/
def tableRead (cap : Nat) (space : Space) (m : Memory) (a : Nat) : Except Fault F64 :=
  if a < cap then
    match memRead m a with
    | some v => .ok v
    | none => .error (.unwritten space a)
  else .error (.outsideSpace space a)

/-- Writing a table or staging memory of `WT_CAP` words (R64). -/
def tableWrite (cap : Nat) (space : Space) (m : Memory) (a : Nat) (v : F64) : Except Fault Memory :=
  if a < cap then .ok (memWrite m a v) else .error (.outsideSpace space a)

/-- The address of channel c, frame s in `OUT`: c in the upper 4 of 24 bits, so that every address exists (R64, R65). -/
def outAddress (channel : BitVec 4) (frame : BitVec 20) : BitVec 24 := channel ++ frame

/-- A write of one word of `OUT` (R188). -/
def outWrite (m : Memory) (channel : BitVec 4) (frame : BitVec 20) (v : F64) : Memory :=
  memWrite m (outAddress channel frame).toNat v

/-- What the host reads of `OUT` (R72, R77): no value, that is any value, for a word that no step has written (U-1). -/
def hostRead (s : State) (channel : BitVec 4) (frame : BitVec 20) : Option F64 :=
  memRead s.OUT (outAddress channel frame).toNat

/-- The bytes of a word of `OUT` as a host that views it as bytes sees them, little-endian (R68). -/
def hostReadBytes (s : State) (channel : BitVec 4) (frame : BitVec 20) : Option (List Byte) :=
  (hostRead s channel frame).map Word.bytes

/-! ### Faults -/

/-- The fault codes (R263). -/
inductive FaultCode where
  | illegalOp | notReady | badArg | midiOverflow | noteOverflow | wtSequence | wtCapacity | numeric
deriving DecidableEq, Repr

/-- The number of a fault code (R263). -/
def faultNumber : FaultCode → Nat
  | .illegalOp => 1
  | .notReady => 2
  | .badArg => 3
  | .midiOverflow => 4
  | .noteOverflow => 5
  | .wtSequence => 6
  | .wtCapacity => 7
  | .numeric => 8

/-- The bit of `FAULTS` a fault code sets: bit code - 1 (R262, R263). -/
def faultBit (code : FaultCode) : BitVec 16 := BitVec.twoPow 16 (faultNumber code - 1)

/-- The first-fault word: bits 39..32 the code, bits 31..0 the command word (R262). -/
def faultWord (code : FaultCode) (cw : CmdWord) : BitVec 40 := BitVec.ofNat 8 (faultNumber code) ++ cw

/-- `raise Fault(code)` with the command word it records (R262): the sticky bit, and `FAULT_INFO` if it is the first. -/
def raiseFault (cw : CmdWord) (code : FaultCode) (s : State) : State :=
  { s with
    FAULT_INFO := if s.FAULTS = 0#16 then faultWord code cw else s.FAULT_INFO
    FAULTS := s.FAULTS ||| faultBit code }

/-- Raise the fault if the condition holds. -/
def raiseIf (c : Bool) (cw : CmdWord) (code : FaultCode) (s : State) : State :=
  if c then raiseFault cw code s else s

/-- `RESP <- v` (R11, R30). -/
def respond (v : Word) (s : State) : State := { s with RESP := v }

/-- A refused command: the fault record and `RESP <- 0`, and no other effect (R11, R261, R273). -/
def refuse (cw : CmdWord) (code : FaultCode) (s : State) : State := respond 0#64 (raiseFault cw code s)

/-- A command word that is no command: ILLEGAL_OP with no other effect, whichever check failed (R98, R99, R264). -/
def illegalCommand (_why : Illegal) (cw : CmdWord) (s : State) : State := refuse cw .illegalOp s

/-- The answer of a memory operation as an outcome of a step. -/
def ofExcept (r : Except Fault State) : Host.Outcome State Fault Refusal :=
  match r with
  | .ok s => .next s
  | .error f => .fault f

end Sys2Proof.Machine
end

