-- ==== Sys2Proof/Machine/Flags.lean ====
section
/-! DEFINITION. The block's flags and the words assembled from them: the envelope state code and `ENV_ON` (R34, R132),
`STATUS` (R44, R237), `FAULT_INFO` as a response (R45). There are no arithmetic condition codes (R34). -/

namespace Sys2Proof.Machine

/-- The code of an envelope state (R34). -/
def envCode : EnvState → BitVec 3
  | .off => 0#3
  | .attack => 1#3
  | .decay => 2#3
  | .sustain => 3#3
  | .release => 4#3

/-- `ENV_ON`, the document's isOn() (R34, R132). -/
def envOn (e : Envelope) : Bool :=
  match e.ENV_STATE with
  | .attack | .decay | .sustain => true
  | .off | .release => false

/-- The code of a tint (R31). -/
def tintCode : Tint → BitVec 2
  | .white => 0#2
  | .pink => 1#2
  | .brown => 2#2

/-- `STATUS` (R44): from bit 63 down, BLK_ACTIVE, seven zeros, FAULTS, the queue length, the note count, the tint, and
STG_ACTIVE, ENV_AUTOREL, ENV_STATE, READY. The two lengths are taken at the widths of their fields (log entry 21). -/
def statusWord (s : State) : Word :=
  BitVec.ofBool s.blk.BLK_ACTIVE ++ 0#7 ++ s.FAULTS ++ BitVec.ofNat 24 s.MQ.length ++ BitVec.ofNat 8 s.NS.length
    ++ tintCode s.par.P_TINT ++ BitVec.ofBool s.stg.STG_ACTIVE ++ BitVec.ofBool s.env.ENV_AUTOREL
    ++ envCode s.env.ENV_STATE ++ BitVec.ofBool s.READY

/-- `FAULT_INFO` as a 64-bit response: bits 63..40 are 0 (R45). -/
def faultInfoWord (s : State) : Word := s.FAULT_INFO.setWidth 64

end Sys2Proof.Machine
end

