-- ==== Sys2Proof/Machine/Operands.lean ====
section
/-! DEFINITION. The operand forms and the checks commands make on them, in the order of R272: port, readiness, operand
domain. A check that fails answers the refusal of the command. -/

namespace Sys2Proof.Machine

/-- The port check of an AUDIO-only command (R100): on CONTROL it is ILLEGAL_OP. -/
def onAudio (cw : CmdWord) (s : State) (run : State → State) : State :=
  if s.PORT = .control then refuse cw .illegalOp s else run s

/-- The readiness check (R195, R265). -/
def whenReady (cw : CmdWord) (s : State) (run : State → State) : State :=
  if s.READY then run s else refuse cw .notReady s

/-- The operand domain check (R266): BAD_ARG unless the operands are in their domain. -/
def whenValid (valid : Bool) (cw : CmdWord) (s : State) (run : State → State) : State :=
  if valid then run s else refuse cw .badArg s

/-- The real operand of a setter (R223): refused unless finite; an accepted command answers 0. -/
def withFinite (cw : CmdWord) (v : F64) (s : State) (run : State → State) : State :=
  whenValid (isFinite v) cw s fun s => respond 0#64 (run s)

/-- The tint operand (R146): 0.0 (of either sign) white, 1.0 pink, 2.0 brown, and nothing else. -/
def tintOperand (v : F64) : Option Tint :=
  if feq v f0 then some .white
  else if feq v f1 then some .pink
  else if feq v f2 then some .brown
  else none

/-- The sustain operand (R227): into [0, 1], and +0.0 for anything not above zero. -/
def sustainOperand (v : F64) : F64 := if flt f0 v then fmin v f1 else f0

/-- The snapshot index operand is a slot (R253): 8 to 15 are encodable and are refused. -/
def slotOperand (idx : BitVec 4) : Bool := idx.toNat ≤ kNoiseSnapshotMax

/-- The sample rate and block size operands of RESET (R192). -/
def resetOperands (blockSize : BitVec 24) (sampleRate : F64) : Bool :=
  isFinite sampleRate && flt f0 sampleRate && isFinite (fdiv f1 sampleRate) && blockSize != 0#24

/-- The three bytes of a MIDI message are a status byte and two data bytes (R202). -/
def midiOperands (status d1 d2 : Byte) : Bool := status.msb && !d1.msb && !d2.msb

/-- The message is a note message: the status nibble is 8 or 9 (R202). -/
def isNoteMessage (status : Byte) : Bool :=
  status.extractLsb' 4 4 = 8#4 || status.extractLsb' 4 4 = 9#4

end Sys2Proof.Machine
end

