-- ==== Sys2Proof/Machine/Envelope.lean ====
section
/-! DEFINITION. adsr_envelope_stateMachine (spec file 41_envelope.md). The parameter registers are read live (R135). -/

namespace Sys2Proof.Machine

/-- `EnterRelease()` (R123): a release of no length cuts to Off. -/
def enterRelease (p : ParamRegs) (e : Envelope) : Envelope :=
  if flt f0 p.P_RELEASE then { e with ENV_ELAPSED := f0, ENV_STATE := .release }
  else { e with ENV_ELAPSED := f0, ENV_STATE := .off, ENV_OUT := f0 }

/-- `EnterSustain()` (R122): a note-off deferred from Attack or Decay releases here. -/
def enterSustain (p : ParamRegs) (e : Envelope) : Envelope :=
  if e.ENV_AUTOREL then enterRelease p { e with ENV_ELAPSED := f0, ENV_AUTOREL := false }
  else { e with ENV_ELAPSED := f0, ENV_STATE := .sustain }

/-- `EnvNoteOn()` (R124). -/
def envNoteOn (p : ParamRegs) (e : Envelope) : Envelope :=
  let e := { e with ENV_ELAPSED := f0, ENV_AUTOREL := false }
  if flt f0 p.P_ATTACK then { e with ENV_STATE := .attack }
  else if flt f0 p.P_DECAY then { e with ENV_STATE := .decay }
  else enterSustain p e

/-- `EnvNoteOff()` (R125). -/
def envNoteOff (p : ParamRegs) (e : Envelope) : Envelope :=
  match e.ENV_STATE with
  | .attack | .decay => { e with ENV_AUTOREL := true }
  | .sustain => enterRelease p e
  | .off | .release => e

/-- `EnvStop()` (R131). -/
def envStopped : Envelope := { ENV_STATE := .off, ENV_OUT := f0, ENV_ELAPSED := f0, ENV_AUTOREL := false }

/-- The sustain amplitude `fl(ENV_PEAK * P_SUSTAIN)` (R121). -/
def sustainLevel (p : ParamRegs) : F64 := fmul ENV_PEAK p.P_SUSTAIN

/-- `EnvTick` in Attack (R127). -/
def envTickAttack (p : ParamRegs) (dt : F64) (e : Envelope) : Envelope :=
  let elapsed := fadd e.ENV_ELAPSED dt
  if fle p.P_ATTACK elapsed then
    let e := { e with ENV_OUT := ENV_PEAK, ENV_ELAPSED := f0 }
    if flt f0 p.P_DECAY then { e with ENV_STATE := .decay } else enterSustain p e
  else { e with ENV_ELAPSED := elapsed, ENV_OUT := fmul ENV_PEAK (fdiv elapsed p.P_ATTACK) }

/-- `EnvTick` in Decay (R128). -/
def envTickDecay (p : ParamRegs) (dt : F64) (e : Envelope) : Envelope :=
  let elapsed := fadd e.ENV_ELAPSED dt
  let target := sustainLevel p
  if fle p.P_DECAY elapsed then enterSustain p { e with ENV_ELAPSED := elapsed, ENV_OUT := target }
  else
    { e with
      ENV_ELAPSED := elapsed
      ENV_OUT := fadd ENV_PEAK (fmul (fdiv elapsed p.P_DECAY) (fsub target ENV_PEAK)) }

/-- `EnvTick` in Release (R130). -/
def envTickRelease (p : ParamRegs) (dt : F64) (e : Envelope) : Envelope :=
  let elapsed := fadd e.ENV_ELAPSED dt
  let start := sustainLevel p
  if fle p.P_RELEASE elapsed then { e with ENV_OUT := f0, ENV_ELAPSED := f0, ENV_STATE := .off }
  else
    { e with
      ENV_ELAPSED := elapsed
      ENV_OUT := fadd start (fmul (fdiv elapsed p.P_RELEASE) (fsub f0 start)) }

/-- `EnvTick()` (R126 to R130), selected by the state at the start of the tick; its result is `ENV_OUT` after it. -/
def envTick (p : ParamRegs) (dt : F64) (e : Envelope) : Envelope :=
  match e.ENV_STATE with
  | .off => { e with ENV_OUT := f0 }
  | .attack => envTickAttack p dt e
  | .decay => envTickDecay p dt e
  | .sustain => { e with ENV_OUT := sustainLevel p }
  | .release => envTickRelease p dt e

/-- ENV_STOP (R133). -/
def execEnvStop (s : State) : Host.Outcome State Fault Refusal :=
  .next (onAudio Instr.envStop.commandWord s fun s => respond 0#64 { s with env := envStopped })

end Sys2Proof.Machine
end

