-- ==== Sys2Proof/Machine/Ramp.lean ====
section
/-! DEFINITION. linear_ramp_interpolator: the four ramp units (spec file 40_ramp.md). -/

namespace Sys2Proof.Machine

/-- `RampActivate(r, d, from, to)` (R112). It writes every field of r, so r's old fields are no operand. -/
def rampActivate (d start target : F64) : Ramp :=
  if flt f0 d then { cur := start, start := start, endVal := target, dur := d, elapsed := f0 }
  else { cur := target, start := target, endVal := target, dur := f0, elapsed := f0 }

/-- `RampValue(r)` (R114). -/
def rampValue (r : Ramp) : F64 := r.cur

/-- The value inside a stage (R111): from start to end in proportion to elapsed / dur, one rounding each. -/
def rampInterpolate (r : Ramp) (elapsed : F64) : F64 :=
  fadd r.start (fmul (fsub r.endVal r.start) (fdiv elapsed r.dur))

/-- `RampTick(r)` (R113): one sample period. At or past the duration the value is exactly the end value. -/
def rampTick (dt : F64) (r : Ramp) : Ramp :=
  let elapsed := fadd r.elapsed dt
  { r with elapsed := elapsed, cur := if fle r.dur elapsed then r.endVal else rampInterpolate r elapsed }

/-- The tick of this ramp raises NUMERIC: its value inside the stage is not finite (R113, its pseudocode; log entry 23). -/
def rampTickFaults (dt : F64) (r : Ramp) : Bool :=
  let elapsed := fadd r.elapsed dt
  !fle r.dur elapsed && !isFinite (rampInterpolate r elapsed)

/-- The four ramp ticks of a sample step in their order (R196). -/
def tickRamps (s : State) : State :=
  let s := raiseIf (rampTickFaults s.DT s.RMP_MOD) s.blk.BLK_CW .numeric { s with RMP_MOD := rampTick s.DT s.RMP_MOD }
  let s := raiseIf (rampTickFaults s.DT s.RMP_RATE) s.blk.BLK_CW .numeric { s with RMP_RATE := rampTick s.DT s.RMP_RATE }
  let s := raiseIf (rampTickFaults s.DT s.RMP_RANGE) s.blk.BLK_CW .numeric { s with RMP_RANGE := rampTick s.DT s.RMP_RANGE }
  raiseIf (rampTickFaults s.DT s.RMP_SHAPE) s.blk.BLK_CW .numeric { s with RMP_SHAPE := rampTick s.DT s.RMP_SHAPE }

/-! ### The apply operations (R233) -/

/-- `ApplyMod(x)` (R233). -/
def applyMod (x : F64) (s : State) : State :=
  { s with
    par := { s.par with P_MOD := x }
    RMP_MOD := rampActivate T_MOD (rampValue s.RMP_MOD) x }

/-- `ApplyRate(x)` (R233): instant while no note is held. -/
def applyRate (x : F64) (s : State) : State :=
  { s with
    par := { s.par with P_RATE := x }
    RMP_RATE := rampActivate (if s.NS.length > 0 then T_RATE else f0) (rampValue s.RMP_RATE) x }

/-- `ApplyRange(x)` (R233). -/
def applyRange (x : F64) (s : State) : State :=
  { s with
    par := { s.par with P_RANGE := x }
    RMP_RANGE := rampActivate T_RANGE (rampValue s.RMP_RANGE) x }

/-- `ApplyShape(x)` (R233). -/
def applyShape (x : F64) (s : State) : State :=
  { s with
    par := { s.par with P_SHAPE := x }
    RMP_SHAPE := rampActivate T_SHAPE (rampValue s.RMP_SHAPE) x }

end Sys2Proof.Machine
end

