-- ==== Sys2Proof/Machine/Midi.lean ====
section
/-! DEFINITION. The MIDI event scheduler: the queue and the note stack (47_block_driver.md, R197 to R204). -/

namespace Sys2Proof.Machine

/-- `removeLast(L, p)` (R14): without the last element equal to p, or the list itself if none is. -/
def removeLast (l : List Byte) (p : Byte) : List Byte := (l.reverse.erase p).reverse

/-- `NoteOnEv(pitch)` (R200). -/
def noteOnEv (P : Params) (pitch : Byte) (s : State) : State :=
  if P.noteCap ≤ s.NS.length then raiseFault s.blk.BLK_CW .noteOverflow s
  else if s.NS.length = 0 then
    { s with
      NS := s.NS ++ [pitch]
      env := envNoteOn s.par s.env
      RMP_RATE := rampActivate T_RETRIG (rampValue s.RMP_RATE) s.par.P_RATE }
  else { s with NS := s.NS ++ [pitch] }

/-- `NoteOffEv(pitch)` (R201): a pitch that is not held changes nothing. -/
def noteOffEv (pitch : Byte) (s : State) : State :=
  let after := removeLast s.NS pitch
  if after.length < s.NS.length ∧ after.length = 0 then
    { s with
      NS := after
      env := envNoteOff s.par s.env
      RMP_RATE := rampActivate s.par.P_RELEASE (rampValue s.RMP_RATE) f0 }
  else { s with NS := after }

/-- `MidiEvent(ev)` (R198). -/
def midiEvent (P : Params) (ev : MidiEvent) (s : State) : State :=
  let hi := ev.status.extractLsb' 4 4
  if hi = 9#4 ∧ 0 < ev.d2.toNat then noteOnEv P ev.d1 s
  else if hi = 8#4 ∨ (hi = 9#4 ∧ ev.d2 = 0#8) then noteOffEv ev.d1 s
  else s

/-- `MidiDrain(s)` of the queue given as a list (R197): deliver each due event, in queue order. -/
def drainQueue (P : Params) (sample : Nat) : List MidiEvent → State → State
  | [], s => { s with MQ := [] }
  | ev :: rest, s =>
    if ev.offset.toNat ≤ sample then drainQueue P sample rest (midiEvent P ev { s with MQ := rest })
    else { s with MQ := ev :: rest }

/-- `MidiDrain(s)` at the running sample (R197). -/
def midiDrain (P : Params) (s : State) : State := drainQueue P s.blk.BLK_S.toNat s.MQ s

/-- `Insert(MQ, ev)` (R203): after every event of an offset at most its own, before every one of a greater. -/
def queueInsert : List MidiEvent → MidiEvent → List MidiEvent
  | [], ev => [ev]
  | x :: rest, ev => if x.offset.toNat ≤ ev.offset.toNat then x :: queueInsert rest ev else ev :: x :: rest

/-- `OffsetCarry(N)` (R199). -/
def offsetCarry (n : BitVec 20) (q : List MidiEvent) : List MidiEvent :=
  q.map fun ev => { ev with offset := ev.offset - n.setWidth 64 }

/-- MIDI_MSG (R202). -/
def midiMsg (status d1 d2 : Byte) (offset : Word) (s : State) : State :=
  let cw := (Instr.midiMsg status d1 d2 offset).commandWord
  onAudio cw s fun s => whenReady cw s fun s => whenValid (midiOperands status d1 d2) cw s fun s =>
    if isNoteMessage status then
      if s.BLOCK_SIZE.toNat ≤ s.MQ.length then refuse cw .midiOverflow s
      else respond 0#64 { s with MQ := queueInsert s.MQ { offset := offset, status := status, d1 := d1, d2 := d2 } }
    else respond 0#64 s

/-- MIDI_MSG (R202). -/
def execMidiMsg (status d1 d2 : Byte) (offset : Word) (s : State) : Host.Outcome State Fault Refusal :=
  .next (midiMsg status d1 d2 offset s)

end Sys2Proof.Machine
end

