-- ==== Sys2Proof/Machine/Noise.lean ====
section
/-! DEFINITION. noise_generator (spec file 42_noise.md): the draw of the configuration relation `NoiseRel`, SET_NOISE_TINT,
and the reference instance of R147 to R151, which no part of the machine uses (D49). -/

namespace Sys2Proof.Machine

/-- What `NoiseStep` yields (R141): the next noise state and the sample, for the next free choice χ. -/
def noiseDraw (P : Params) (tint : Tint) (rate : F64) (s : State) : NoiseState × FinF64 :=
  P.noiseRel tint rate s.DT s.SR s.NOISE_ST (P.draw s.DRAWS)

/-- The state after `NoiseStep(tint, rate)` (R141): `NOISE_ST <- σ'`, and one more draw taken. -/
def noiseStep (P : Params) (tint : Tint) (rate : F64) (s : State) : State :=
  { s with NOISE_ST := (noiseDraw P tint rate s).1, DRAWS := s.DRAWS + 1 }

/-- The sample `NoiseStep(tint, rate)` yields: finite (R142). -/
def noiseSample (P : Params) (tint : Tint) (rate : F64) (s : State) : F64 := (noiseDraw P tint rate s).2.bits

/-- SET_NOISE_TINT (R146). -/
def setNoiseTint (v : F64) (s : State) : State :=
  match tintOperand v with
  | some t => respond 0#64 { s with par := { s.par with P_TINT := t } }
  | none => refuse (Instr.setNoiseTint v).commandWord .badArg s

/-- SET_NOISE_TINT (R146). -/
def execSetNoiseTint (v : F64) (s : State) : Host.Outcome State Fault Refusal := .next (setNoiseTint v s)

/-! ### The reference instance (R147 to R151), for simulation only -/

/-- The reference instance's `NOISE_ST` (R36, D49). -/
structure RefNoise where
  held_w : F64
  held_p : F64
  held_b : F64
  acc : F64
  b0 : F64
  b1 : F64
  b2 : F64
  y : F64
deriving DecidableEq, Repr

/-- Every field 0.0 at power-on. -/
def refNoiseInit : RefNoise :=
  { held_w := f0, held_p := f0, held_b := f0, acc := f0, b0 := f0, b1 := f0, b2 := f0, y := f0 }

/-- The draw `u`, 0 <= u < 1, of a free choice: the patterns of those values are the numbers below that of 1.0
(DESIGN CHOICE, log entry 18). -/
def refDraw (χ : Nat) : F64 := BitVec.ofNat 64 (χ % 0x3FF0000000000000)

/-- A new value is due (R147). -/
def refDue (rate dt sr acc : F64) : Bool :=
  flt f0 rate && (fle sr rate || fle f1 (fadd acc (fmul rate dt)))

/-- The accumulator after the gate (R147). -/
def refAcc (rate dt sr acc : F64) : F64 :=
  if flt f0 rate then
    if fle sr rate then f0
    else
      let acc := fadd acc (fmul rate dt)
      if fle f1 acc then fsub acc (ffloor acc) else acc
  else acc

/-- The reference white value (R148). -/
def refWhite (u : F64) : F64 := fsub (fmul f2 u) f1

/-- The reference pink value from the three poles and w (R149). -/
def refPink (b0 b1 b2 w : F64) : F64 :=
  fclamp (fmul (ofRatio 11 100) (fadd (fadd (fadd b0 b1) b2) (fmul w (ofRatio 1848 10000)))) (fneg f1) f1

/-- The state after a due value with draw u (R148 to R150). -/
def refValue (u : F64) (σ : RefNoise) : RefNoise :=
  let w := refWhite u
  let b0 := fadd (fmul (ofRatio 99765 100000) σ.b0) (fmul w (ofRatio 990460 10000000))
  let b1 := fadd (fmul (ofRatio 96300 100000) σ.b1) (fmul w (ofRatio 2965164 10000000))
  let b2 := fadd (fmul (ofRatio 57000 100000) σ.b2) (fmul w (ofRatio 10526913 10000000))
  let y := fdiv (fadd σ.y (fmul (ofRatio 2 100) w)) (ofRatio 102 100)
  { σ with
    held_w := w
    b0 := b0
    b1 := b1
    b2 := b2
    held_p := refPink b0 b1 b2 w
    y := y
    held_b := fclamp (fmul (ofRatio 35 10) y) (fneg f1) f1 }

/-- One step of the reference instance (R147 to R150). -/
def refNoiseStep (rate dt sr : F64) (σ : RefNoise) (u : F64) : RefNoise :=
  let σ' := { σ with acc := refAcc rate dt sr σ.acc }
  if refDue rate dt sr σ.acc then refValue u σ' else σ'

/-- The reference output (R151). -/
def refNoiseOutput (tint : Tint) (σ : RefNoise) : F64 :=
  match tint with
  | .white => σ.held_w
  | .pink => σ.held_p
  | .brown => σ.held_b

/-- The record as the words of `NOISE_ST`. -/
def refNoiseWords (σ : RefNoise) : NoiseState := [σ.held_w, σ.held_p, σ.held_b, σ.acc, σ.b0, σ.b1, σ.b2, σ.y]

/-- The record in the words of `NOISE_ST`. -/
def refNoiseOfWords : NoiseState → RefNoise
  | [w, p, b, acc, b0, b1, b2, y] =>
    { held_w := w, held_p := p, held_b := b, acc := acc, b0 := b0, b1 := b1, b2 := b2, y := y }
  | _ => refNoiseInit

/-- A finite pattern in its three fields. -/
def finOfBits (x : F64) : FinF64 :=
  { sign := x.msb, exponent := ⟨(x.extractLsb' 52 11).toNat % 2047, Nat.mod_lt _ (by decide)⟩, fraction := x.extractLsb' 0 52 }

/-- The reference instance in the form of `Params.noiseRel`. -/
def refNoiseRel (tint : Tint) (rate dt sr : F64) (σ : NoiseState) (χ : Nat) : NoiseState × FinF64 :=
  let σ' := refNoiseStep rate dt sr (refNoiseOfWords σ) (refDraw χ)
  (refNoiseWords σ', finOfBits (refNoiseOutput tint σ'))

end Sys2Proof.Machine
end

