-- ==== Sys2Proof/Machine/Oscillator.lean ====
section
/-! DEFINITION. lfo_sine_ramp, the modulating oscillator (43_oscillator.md), and scrub_position_mixer (44_mixer.md). -/

namespace Sys2Proof.Machine

/-- The output `g` of `OscStep(freq, amp)` (R154), from the phase before the advance. -/
def oscOutput (P : Params) (amp phase : F64) : F64 := fmul amp (sin64 P (fmul twoPi phase))

/-- The advanced phase before the wrap (R155). -/
def phaseSum (freq dt phase : F64) : F64 := fadd phase (fmul freq dt)

/-- The wrap of a finite phase into [0, 1) (R155). -/
def phaseWrap (ph : F64) : F64 :=
  let ph := fsub ph (ffloor ph)
  if feq ph f1 then f0 else ph

/-- `PhaseAdvance(freq)` (R155): an advance that is not finite raises NUMERIC and leaves the phase. -/
def phaseAdvance (freq : F64) (s : State) : State :=
  let ph := phaseSum freq s.DT s.OSC_PHASE
  if isFinite ph then { s with OSC_PHASE := phaseWrap ph } else raiseFault s.blk.BLK_CW .numeric s

/-- `MixStep(n, g)` (R161): the scrub position, one rounding for the product and one for the sum. -/
def mixStep (n g range : F64) : F64 := fadd (fmul n g) range

end Sys2Proof.Machine
end

