-- ==== Sys2Proof/Machine/Output.lean ====
section
/-! DEFINITION. stereo_panner_summer and the output stage (46_panner_summer.md). -/

namespace Sys2Proof.Machine

/-- `PanSum(yL, yR)` (R185, R186): hard left and hard right, the sums taken exactly. -/
def panSum (yL yR : F64) : F64 × F64 := (yL, yR)

/-- `OutStage(o, e)` (R187): the envelope, then the master volume. -/
def outStage (o e gain : F64) : F64 := fmul (fmul o e) gain

/-- The word written for an output value: +0.0 in place of one that is not finite (R189). -/
def outWord (out : F64) : F64 := if isFinite out then out else f0

/-- The value of channel c of a frame: left, right, and silence above (R188). -/
def channelValue (left right : F64) (c : Nat) : F64 := if c = 0 then left else if c = 1 then right else f0

/-- Write channel c of the running frame; a left or right value that is not finite raises NUMERIC (R188, R189). -/
def writeChannel (left right : F64) (s : State) (c : Nat) : State :=
  let v := channelValue left right c
  let s := raiseIf (!isFinite v) s.blk.BLK_CW .numeric s
  { s with OUT := outWrite s.OUT (BitVec.ofNat 4 c) s.blk.BLK_S (outWord v) }

/-- Write the running frame's channels 0 to `BLK_C` - 1 (R196). -/
def writeFrame (left right : F64) (s : State) : State :=
  (List.range s.blk.BLK_C.toNat).foldl (writeChannel left right) s

end Sys2Proof.Machine
end

