-- ==== Sys2Proof/Machine/Shaper.lean ====
section
/-! DEFINITION. windowed_wavetable_waveshaper, the lookup of the left and the right shaper (45_waveshaper.md, R165 to R172). -/

namespace Sys2Proof.Machine

/-- The two shapers (R165). -/
inductive Side where
  | left | right
deriving DecidableEq, Repr

/-- The table memory of a shaper (R165). -/
def sideTable (c : Side) (s : State) : Memory :=
  match c with
  | .left => s.WT_L
  | .right => s.WT_R

/-- The address space of a shaper's table. -/
def sideSpace : Side → Space
  | .left => .wtL
  | .right => .wtR

/-- The map from scrub position to normalized position (R166). -/
def shaperMap (p : F64) : F64 := fmul (fadd p f1) fHalf

/-- Edge handling of a finite position (R167, R168). -/
def shaperEdge (mode : EdgeMode) (m : F64) : F64 :=
  match mode with
  | .wrap => fsub m (ffloor m)
  | .clamp => fclamp m f0 f1

/-- The lookup position `u` (R166 to R169): 0.0 where the mapped position is not finite. -/
def shaperPosition (mode : EdgeMode) (p : F64) : F64 :=
  let m := shaperMap p
  if isFinite m then shaperEdge mode m else f0

/-- The frame indices i0 and i1 at whole position i of a table of n frames, n at least 1 (R171). -/
def shaperFrames (mode : EdgeMode) (i n : Nat) : Nat × Nat :=
  match mode with
  | .wrap => (i % n, (i % n + 1) % n)
  | .clamp => (min i (n - 1), min (min i (n - 1) + 1) (n - 1))

/-- The lookup with linear interpolation (R170, R171): +0.0 from an empty table, the frame itself at a whole position. -/
def shaperLookup (cap : Nat) (mode : EdgeMode) (space : Space) (table : Memory) (n : Nat) (u : F64) : Except Fault F64 :=
  if n = 0 then .ok f0
  else
    let x := fmul u (toF64 n)
    let fr := fsub x (ffloor x)
    let frames := shaperFrames mode (toInt (ffloor x)) n
    match tableRead cap space table frames.1 with
    | .error f => .error f
    | .ok a =>
      if feq fr f0 then .ok a
      else
        match tableRead cap space table frames.2 with
        | .error f => .error f
        | .ok b => .ok (fadd a (fmul fr (fsub b a)))

/-- The result `y` of `ShaperStep(c, p)` (R166 to R171). -/
def shaperOutput (P : Params) (c : Side) (p : F64) (s : State) : Except Fault F64 :=
  shaperLookup P.wtCap P.edgeMode (sideSpace c) (sideTable c s) s.WT_N (shaperPosition P.edgeMode p)

/-- The state after `ShaperStep(c, p)`: NUMERIC for a position that is not finite (R169), and the last map value (R172). -/
def shaperStep (P : Params) (c : Side) (p : F64) (s : State) : State :=
  let s := raiseIf (!isFinite (shaperMap p)) s.blk.BLK_CW .numeric s
  let u := shaperPosition P.edgeMode p
  match c with
  | .left => { s with SHP_LAST_L := u }
  | .right => { s with SHP_LAST_R := u }

end Sys2Proof.Machine
end

