-- ==== Sys2Proof/Machine/Control.lean ====
section
/-! DEFINITION. The block render driver: NOP, RESET, PROCESS_BLOCK and the events of a running block (47_block_driver.md). -/

namespace Sys2Proof.Machine

/-- NOP (R205). -/
def execNop (s : State) : Host.Outcome State Fault Refusal := .next (respond 0#64 s)

/-- RESET (R192). -/
def resetCommand (blockSize : BitVec 24) (sampleRate : F64) (s : State) : State :=
  let cw := (Instr.reset blockSize sampleRate).commandWord
  onAudio cw s fun s => whenValid (resetOperands blockSize sampleRate) cw s fun s =>
    respond 0#64
      { s with
        SR := sampleRate
        DT := fdiv f1 sampleRate
        BLOCK_SIZE := blockSize
        MQ := []
        NS := []
        env := envStopped
        READY := true }

/-- RESET (R192). -/
def execReset (blockSize : BitVec 24) (sampleRate : F64) (s : State) : Host.Outcome State Fault Refusal :=
  .next (resetCommand blockSize sampleRate s)

/-- PROCESS_BLOCK up to its start event (R193). Its response follows its end event, so an accepted one leaves `RESP`
(R208; DEDUCED, log entry 22). -/
def processBlock (frameCount : BitVec 20) (channelCount : BitVec 4) (s : State) : State :=
  let cw := (Instr.processBlock frameCount channelCount).commandWord
  onAudio cw s fun s => whenReady cw s fun s =>
    { s with blk := { BLK_ACTIVE := true, BLK_S := 0#20, BLK_N := frameCount, BLK_C := channelCount, BLK_CW := cw } }

/-- PROCESS_BLOCK: its checks and its start event (R193). The sample events and the end event are `blockEvent`. -/
def execProcessBlock (frameCount : BitVec 20) (channelCount : BitVec 4) (s : State) : Host.Outcome State Fault Refusal :=
  .next (processBlock frameCount channelCount s)

/-! ### The sample step -/

/-- Operations 1 to 6 of a sample step (R196): the MIDI events due, the tint, the ramps, the noise, the oscillator, the
mixer. It answers the scrub position p and the state. -/
def sampleScrub (P : Params) (s : State) : F64 × State :=
  let s := midiDrain P s
  let tint := s.par.P_TINT
  let s := tickRamps s
  let n := noiseSample P tint s.RMP_RATE.cur s
  let s := noiseStep P tint s.RMP_RATE.cur s
  let g := oscOutput P s.RMP_SHAPE.cur s.OSC_PHASE
  let s := phaseAdvance s.RMP_MOD.cur s
  (mixStep n g s.RMP_RANGE.cur, s)

/-- The envelope tick of a sample step (R196, operation 9). -/
def tickEnvelope (s : State) : State := { s with env := envTick s.par s.DT s.env }

/-- Operations 8 to 10 of a sample step from the shapers' results (R196): panners and summer, envelope, output stage. -/
def sampleOutput (yL yR : F64) (s : State) : State :=
  let o := panSum yL yR
  let s := tickEnvelope s
  let e := s.env.ENV_OUT
  writeFrame (outStage o.1 e s.par.VOL_GAIN) (outStage o.2 e s.par.VOL_GAIN) s

/-- `SampleStep(s)` (R196): the ten operations in their order, the left shaper before the right. -/
def sampleStep (P : Params) (s : State) : Except Fault State :=
  let p := (sampleScrub P s).1
  let s := (sampleScrub P s).2
  match shaperOutput P .left p s with
  | .error f => .error f
  | .ok yL =>
    let s := shaperStep P .left p s
    match shaperOutput P .right p s with
    | .error f => .error f
    | .ok yR => .ok (sampleOutput yL yR (shaperStep P .right p s))

/-- One sample event: the step, then `BLK_S <- BLK_S + 1` (R193). -/
def sampleEvent (P : Params) (s : State) : Except Fault State :=
  match sampleStep P s with
  | .ok t => .ok { t with blk := { t.blk with BLK_S := t.blk.BLK_S + 1#20 } }
  | .error f => .error f

/-- The end event of a block (R193, R179, R199). -/
def blockEnd (s : State) : State :=
  respond 0#64
    { s with
      SHAPER_MAP := if 1 ≤ s.blk.BLK_N.toNat then s.SHP_LAST_L else s.SHAPER_MAP
      MQ := offsetCarry s.blk.BLK_N s.MQ
      blk := { s.blk with BLK_ACTIVE := false } }

end Sys2Proof.Machine
end

