-- ==== Sys2Proof/Machine/Getters.lean ====
section
/-! DEFINITION. The getters without operands (48_parameters.md, R234 to R239; 45_waveshaper.md, R177 and R178): each changes
only `RESP` (R71). -/

namespace Sys2Proof.Machine

/-- GET_NOISE_OFFSET (R234). -/
def execGetNoiseOffset (s : State) : Host.Outcome State Fault Refusal := .next (respond (rampValue s.RMP_RANGE) s)

/-- GET_NOISE_RATE (R235). -/
def execGetNoiseRate (s : State) : Host.Outcome State Fault Refusal := .next (respond (rampValue s.RMP_RATE) s)

/-- GET_SHAPE (R236). -/
def execGetShape (s : State) : Host.Outcome State Fault Refusal := .next (respond (rampValue s.RMP_SHAPE) s)

/-- GET_SHAPER_SIZE (R177). -/
def execGetShaperSize (s : State) : Host.Outcome State Fault Refusal := .next (respond (BitVec.ofNat 64 s.WT_N) s)

/-- GET_SHAPER_MAP_VALUE (R178). -/
def execGetShaperMapValue (s : State) : Host.Outcome State Fault Refusal := .next (respond s.SHAPER_MAP s)

/-- GET_STATUS (R237). -/
def execGetStatus (s : State) : Host.Outcome State Fault Refusal := .next (respond (statusWord s) s)

/-- GET_FAULT_INFO (R238). -/
def execGetFaultInfo (s : State) : Host.Outcome State Fault Refusal := .next (respond (faultInfoWord s) s)

end Sys2Proof.Machine
end

