-- ==== Sys2Proof/Machine/Setters.lean ====
section
/-! DEFINITION. The parameter setters (48_parameters.md, R223 to R233). SET_NOISE_TINT stands in Machine/Noise.lean. -/

namespace Sys2Proof.Machine

/-- SET_VOLUME (R224): decibels; the gain must be finite. -/
def setVolume (P : Params) (v : F64) (s : State) : State :=
  let cw := (Instr.setVolume v).commandWord
  let gain := pow64 P f10 (fdiv v f20)
  whenValid (isFinite v) cw s fun s => whenValid (isFinite gain) cw s fun s =>
    respond 0#64 { s with par := { s.par with P_VOLUME := v, VOL_GAIN := gain } }

/-- SET_VOLUME (R224). -/
def execSetVolume (v : F64) (s : State) : Host.Outcome State Fault Refusal := .next (setVolume Config.params v s)

/-- SET_ATTACK (R225). -/
def execSetAttack (v : F64) (s : State) : Host.Outcome State Fault Refusal :=
  .next (withFinite (Instr.setAttack v).commandWord v s fun s => { s with par := { s.par with P_ATTACK := v } })

/-- SET_DECAY (R226). -/
def execSetDecay (v : F64) (s : State) : Host.Outcome State Fault Refusal :=
  .next (withFinite (Instr.setDecay v).commandWord v s fun s => { s with par := { s.par with P_DECAY := v } })

/-- SET_SUSTAIN (R227). -/
def execSetSustain (v : F64) (s : State) : Host.Outcome State Fault Refusal :=
  .next (withFinite (Instr.setSustain v).commandWord v s fun s =>
    { s with par := { s.par with P_SUSTAIN := sustainOperand v } })

/-- SET_RELEASE (R228). -/
def execSetRelease (v : F64) (s : State) : Host.Outcome State Fault Refusal :=
  .next (withFinite (Instr.setRelease v).commandWord v s fun s => { s with par := { s.par with P_RELEASE := v } })

/-- SET_NOISE_MOD (R229). -/
def execSetNoiseMod (v : F64) (s : State) : Host.Outcome State Fault Refusal :=
  .next (withFinite (Instr.setNoiseMod v).commandWord v s (applyMod v))

/-- SET_NOISE_RATE (R230). -/
def execSetNoiseRate (v : F64) (s : State) : Host.Outcome State Fault Refusal :=
  .next (withFinite (Instr.setNoiseRate v).commandWord v s (applyRate v))

/-- SET_NOISE_RANGE (R231). -/
def execSetNoiseRange (v : F64) (s : State) : Host.Outcome State Fault Refusal :=
  .next (withFinite (Instr.setNoiseRange v).commandWord v s (applyRange v))

/-- SET_NOISE_SHAPE (R232). -/
def execSetNoiseShape (v : F64) (s : State) : Host.Outcome State Fault Refusal :=
  .next (withFinite (Instr.setNoiseShape v).commandWord v s (applyShape v))

end Sys2Proof.Machine
end

