-- ==== Sys2Proof/Machine/Snapshots.lean ====
section
/-! DEFINITION. The snapshot blend engine (49_snapshot.md). -/

namespace Sys2Proof.Machine

/-- One field of a record (R256). -/
def snapField (f : SnapField) (r : Snapshot) : F64 :=
  match f with
  | .mod => r.mod
  | .rate => r.rate
  | .range => r.range
  | .shape => r.shape

/-- Slot k; every index the rules form is at most 7 (R251), and no slot above 7 is ever read. -/
def snapSlot (s : State) (k : Nat) : Snapshot :=
  s.SNAP[min k kNoiseSnapshotMax]'(Nat.lt_of_le_of_lt (Nat.min_le_right _ _) (by decide))

/-- `Blend(a, b, t)` (R250). -/
def blend (a b t : F64) : F64 := if feq t f0 then a else fadd a (fmul t (fsub b a))

/-- The dial position c (R249): the control value clamped into [0, 7]. -/
def dialPosition (v : F64) : F64 := fclamp v f0 f7

/-- The lower slot i of a dial position (R249). -/
def dialLower (c : F64) : Nat := toInt (ffloor c)

/-- The upper slot j of a dial position (R249). -/
def dialUpper (c : F64) : Nat := min (dialLower c + 1) kNoiseSnapshotMax

/-- The blend weight t of a dial position (R249). -/
def dialWeight (c : F64) : F64 := fsub c (ffloor c)

/-- The blended value of one field at dial position c (R249). -/
def dialBlend (s : State) (c : F64) (f : SnapField) : F64 :=
  blend (snapField f (snapSlot s (dialLower c))) (snapField f (snapSlot s (dialUpper c))) (dialWeight c)

/-- Apply a blended value, or raise NUMERIC and skip the field if it is not finite (R249, R252). -/
def applyBlended (cw : CmdWord) (x : F64) (apply : F64 → State → State) (s : State) : State :=
  if isFinite x then apply x s else raiseFault cw .numeric s

/-- SET_NOISE_SNAPSHOT (R249): the four fields in the order mod, rate, range, shape. No apply writes a slot. -/
def setNoiseSnapshot (v : F64) (s : State) : State :=
  let cw := (Instr.setNoiseSnapshot v).commandWord
  let c := dialPosition v
  withFinite cw v s fun s =>
    let t := { s with par := { s.par with P_SNAPSHOT := c } }
    let t := applyBlended cw (dialBlend s c .mod) applyMod t
    let t := applyBlended cw (dialBlend s c .rate) applyRate t
    let t := applyBlended cw (dialBlend s c .range) applyRange t
    applyBlended cw (dialBlend s c .shape) applyShape t

/-- SET_NOISE_SNAPSHOT (R249). -/
def execSetNoiseSnapshot (v : F64) (s : State) : Host.Outcome State Fault Refusal := .next (setNoiseSnapshot v s)

/-- The live parameter registers as a record (R253). -/
def liveSnapshot (p : ParamRegs) : Snapshot :=
  { mod := p.P_MOD, rate := p.P_RATE, range := p.P_RANGE, shape := p.P_SHAPE }

/-- UPDATE_NOISE_SNAPSHOT (R253). -/
def updateNoiseSnapshot (idx : BitVec 4) (s : State) : State :=
  whenValid (slotOperand idx) (Instr.updateNoiseSnapshot idx).commandWord s fun s =>
    respond 0#64 { s with SNAP := s.SNAP.setIfInBounds idx.toNat (liveSnapshot s.par) }

/-- UPDATE_NOISE_SNAPSHOT (R253). -/
def execUpdateNoiseSnapshot (idx : BitVec 4) (s : State) : Host.Outcome State Fault Refusal :=
  .next (updateNoiseSnapshot idx s)

/-- GET_NOISE_SNAPSHOT (R254). -/
def getNoiseSnapshot (field : SnapField) (idx : BitVec 4) (s : State) : State :=
  whenValid (slotOperand idx) (Instr.getNoiseSnapshot field idx).commandWord s fun s =>
    respond (snapField field (snapSlot s idx.toNat)) s

/-- GET_NOISE_SNAPSHOT (R254). -/
def execGetNoiseSnapshot (field : SnapField) (idx : BitVec 4) (s : State) : Host.Outcome State Fault Refusal :=
  .next (getNoiseSnapshot field idx s)

/-- The quotient of the normalized getter (R255). -/
def normalizedQuotient (x lo hi : F64) : F64 := fdiv (fsub x lo) (fsub hi lo)

/-- GET_NOISE_SNAPSHOT_NORMALIZED (R255). -/
def getNoiseSnapshotNormalized (P : Params) (field : SnapField) (idx : BitVec 4) (s : State) : State :=
  let cw := (Instr.getNoiseSnapshotNormalized field idx).commandWord
  whenValid (slotOperand idx) cw s fun s =>
    let r := normalizedQuotient (snapField field (snapSlot s idx.toNat)) (pmin P field) (pmax P field)
    if isFinite r then respond (fclamp r f0 f1) s else refuse cw .numeric s

/-- GET_NOISE_SNAPSHOT_NORMALIZED (R255). -/
def execGetNoiseSnapshotNormalized (field : SnapField) (idx : BitVec 4) (s : State) : Host.Outcome State Fault Refusal :=
  .next (getNoiseSnapshotNormalized Config.params field idx s)

end Sys2Proof.Machine
end

