-- ==== Sys2Proof/Machine/Wavetable.lean ====
section
/-! DEFINITION. Loading a wavetable: WT_BEGIN, WT_PUSH, WT_COMMIT (45_waveshaper.md, R173 to R176). -/

namespace Sys2Proof.Machine

/-- WT_BEGIN (R173). -/
def wtBegin (P : Params) (channels : BitVec 4) (frames : Word) (s : State) : State :=
  let cw := (Instr.wtBegin channels frames).commandWord
  whenValid (channels != 0#4) cw s fun s =>
    if P.wtCap < frames.toNat then refuse cw .wtCapacity s
    else
      respond 0#64
        { s with stg := { s.stg with STG_ACTIVE := true, STG_CH := channels, STG_N := frames.toNat, STG_COUNT := 0 } }

/-- WT_BEGIN (R173). -/
def execWtBegin (channels : BitVec 4) (frames : Word) (s : State) : Host.Outcome State Fault Refusal :=
  .next (wtBegin Config.params channels frames s)

/-- The number of samples a load takes: `STG_CH * STG_N` (R39). -/
def loadSize (g : Staging) : Nat := g.STG_CH.toNat * g.STG_N

/-- The sample v as the next one of the open load (R67, R174): to STG0 in channel 0, to STG1 in channel 1, and nowhere above. -/
def pushSample (cap : Nat) (v : F64) (g : Staging) : Except Fault Staging :=
  let c := g.STG_COUNT / g.STG_N
  let f := g.STG_COUNT % g.STG_N
  if c = 0 then
    match tableWrite cap .stg0 g.STG0 f v with
    | .ok m => .ok { g with STG0 := m, STG_COUNT := g.STG_COUNT + 1 }
    | .error e => .error e
  else if c = 1 then
    match tableWrite cap .stg1 g.STG1 f v with
    | .ok m => .ok { g with STG1 := m, STG_COUNT := g.STG_COUNT + 1 }
    | .error e => .error e
  else .ok { g with STG_COUNT := g.STG_COUNT + 1 }

/-- WT_PUSH (R174). -/
def wtPush (P : Params) (v : F64) (s : State) : Except Fault State :=
  let cw := (Instr.wtPush v).commandWord
  if isFinite v then
    if !s.stg.STG_ACTIVE || loadSize s.stg ≤ s.stg.STG_COUNT then .ok (refuse cw .wtSequence s)
    else
      match pushSample P.wtCap v s.stg with
      | .ok g => .ok (respond 0#64 { s with stg := g })
      | .error e => .error e
  else .ok (refuse cw .badArg s)

/-- WT_PUSH (R174). -/
def execWtPush (v : F64) (s : State) : Host.Outcome State Fault Refusal := ofExcept (wtPush Config.params v s)

/-- The first n words of a staging memory written over those of a table, in rising order (R175). -/
def publish (cap : Nat) (source target : Space) (stage : Memory) : Nat → Memory → Except Fault Memory
  | 0, into => .ok into
  | n + 1, into =>
    match publish cap source target stage n into with
    | .error e => .error e
    | .ok m =>
      match tableRead cap source stage n with
      | .error e => .error e
      | .ok v => tableWrite cap target m n v

/-- The staging memory the right table is published from: channel 1, or channel 0 of a mono load (R175, R176). -/
def rightSource (g : Staging) : Space × Memory :=
  if 2 ≤ g.STG_CH.toNat then (.stg1, g.STG1) else (.stg0, g.STG0)

/-- WT_COMMIT (R175). A short load is discarded, the one refusal that has another effect (R261). -/
def wtCommit (P : Params) (s : State) : Except Fault State :=
  let cw := Instr.wtCommit.commandWord
  if !s.stg.STG_ACTIVE then .ok (refuse cw .wtSequence s)
  else if s.stg.STG_COUNT ≠ loadSize s.stg then
    .ok (refuse cw .wtSequence { s with stg := { s.stg with STG_ACTIVE := false } })
  else
    match publish P.wtCap .stg0 .wtL s.stg.STG0 s.stg.STG_N s.WT_L,
        publish P.wtCap (rightSource s.stg).1 .wtR (rightSource s.stg).2 s.stg.STG_N s.WT_R with
    | .ok l, .ok r =>
      .ok (respond 0#64
        { s with WT_L := l, WT_R := r, WT_N := s.stg.STG_N, stg := { s.stg with STG_ACTIVE := false } })
    | .error e, _ => .error e
    | _, .error e => .error e

/-- WT_COMMIT (R175). -/
def execWtCommit (s : State) : Host.Outcome State Fault Refusal := ofExcept (wtCommit Config.params s)

end Sys2Proof.Machine
end

