-- ==== Sys2Proof/Machine/Dispatch.lean ====
section
/-! DEFINITION. The meaning of every command: one arm per constructor, one definition per arm. -/

namespace Sys2Proof.Machine

def exec (i : Instr) (s : State) : Host.Outcome State Fault Refusal :=
  match i with
  | .nop => Sys2Proof.Machine.execNop s
  | .reset blockSize sampleRate => Sys2Proof.Machine.execReset blockSize sampleRate s
  | .processBlock frameCount channelCount => Sys2Proof.Machine.execProcessBlock frameCount channelCount s
  | .midiMsg status d1 d2 offset => Sys2Proof.Machine.execMidiMsg status d1 d2 offset s
  | .envStop => Sys2Proof.Machine.execEnvStop s
  | .setVolume v => Sys2Proof.Machine.execSetVolume v s
  | .setAttack v => Sys2Proof.Machine.execSetAttack v s
  | .setDecay v => Sys2Proof.Machine.execSetDecay v s
  | .setSustain v => Sys2Proof.Machine.execSetSustain v s
  | .setRelease v => Sys2Proof.Machine.execSetRelease v s
  | .setNoiseTint v => Sys2Proof.Machine.execSetNoiseTint v s
  | .setNoiseMod v => Sys2Proof.Machine.execSetNoiseMod v s
  | .setNoiseRate v => Sys2Proof.Machine.execSetNoiseRate v s
  | .setNoiseRange v => Sys2Proof.Machine.execSetNoiseRange v s
  | .setNoiseShape v => Sys2Proof.Machine.execSetNoiseShape v s
  | .setNoiseSnapshot v => Sys2Proof.Machine.execSetNoiseSnapshot v s
  | .wtBegin channels frames => Sys2Proof.Machine.execWtBegin channels frames s
  | .wtPush v => Sys2Proof.Machine.execWtPush v s
  | .wtCommit => Sys2Proof.Machine.execWtCommit s
  | .getNoiseOffset => Sys2Proof.Machine.execGetNoiseOffset s
  | .getNoiseRate => Sys2Proof.Machine.execGetNoiseRate s
  | .getShape => Sys2Proof.Machine.execGetShape s
  | .getShaperSize => Sys2Proof.Machine.execGetShaperSize s
  | .getShaperMapValue => Sys2Proof.Machine.execGetShaperMapValue s
  | .getStatus => Sys2Proof.Machine.execGetStatus s
  | .getFaultInfo => Sys2Proof.Machine.execGetFaultInfo s
  | .updateNoiseSnapshot idx => Sys2Proof.Machine.execUpdateNoiseSnapshot idx s
  | .getNoiseSnapshot field idx => Sys2Proof.Machine.execGetNoiseSnapshot field idx s
  | .getNoiseSnapshotNormalized field idx => Sys2Proof.Machine.execGetNoiseSnapshotNormalized field idx s

end Sys2Proof.Machine
end

