-- ==== Sys2Proof/Machine/Events.lean ====
section
/-! DEFINITION. The total order of events (R74): which port's event comes next, taking a command from its port's stream,
the events of a running block, and the delivery of responses (R78, R208). -/

namespace Sys2Proof.Machine

/-- The stream holds a whole command: the transport delivers whole words (R69), and a command not yet whole waits (DESIGN
CHOICE, log entry 17). -/
def hasCommand (stream : List Byte) : Bool :=
  match decode stream with
  | .incomplete => false
  | .command _ _ => true
  | .illegal _ _ _ => true

/-- The AUDIO port has an event: the next one of the running block, or a command (R193, R194). -/
def audioHasEvent (s : State) : Bool := s.blk.BLK_ACTIVE || hasCommand s.AUDIO_IN

/-- The CONTROL port has an event, a running block or not (R194). -/
def controlHasEvent (s : State) : Bool := hasCommand s.CONTROL_IN

/-- The port whose event comes next. Where both have one, either may: the next free choice of the merge (R74). -/
def nextPort (P : Params) (s : State) : Option Port :=
  if audioHasEvent s then
    if controlHasEvent s then some (P.merge s.MERGES) else some .audio
  else if controlHasEvent s then some .control else none

/-- The choice of the merge is used up where both ports had an event (DESIGN CHOICE, log entry 2). -/
def countMerge (s : State) : State :=
  if audioHasEvent s && controlHasEvent s then { s with MERGES := s.MERGES + 1 } else s

/-- The commands waiting on a port. -/
def portStream (port : Port) (s : State) : List Byte :=
  match port with
  | .audio => s.AUDIO_IN
  | .control => s.CONTROL_IN

/-- The command of a port is taken: its stream goes on after it, and it is the one being executed. -/
def takeCommand (port : Port) (rest : List Byte) (s : State) : State :=
  match port with
  | .audio => { s with AUDIO_IN := rest, PORT := .audio }
  | .control => { s with CONTROL_IN := rest, PORT := .control }

/-- The response word is delivered on the port of its command (R78). -/
def deliver (port : Port) (s : State) : State :=
  match port with
  | .audio => { s with AUDIO_RESP := s.AUDIO_RESP ++ [s.RESP] }
  | .control => { s with CONTROL_RESP := s.CONTROL_RESP ++ [s.RESP] }

/-- After a command of a port: its response is delivered, except that of a PROCESS_BLOCK that has started a block, which
follows the block's end event (R208). -/
def finishCommand (port : Port) (s : State) : State :=
  if port = .audio ∧ s.blk.BLK_ACTIVE = true then s else deliver port s

/-- One command of a port (R74): one atomic event. A port without a whole command does nothing. -/
def commandEvent (port : Port) (s : State) : Host.Outcome State Fault Refusal :=
  match decode (portStream port s) with
  | .incomplete => .next s
  | .illegal why cw rest => .next (finishCommand port (illegalCommand why cw (takeCommand port rest s)))
  | .command i rest =>
    match exec i (takeCommand port rest s) with
    | .next t => .next (finishCommand port t)
    | .fault f => .fault f
    | .refused r => .refused r

/-- One event of the running block (R74, R193): the next sample step, or after the last the end event and the response. -/
def blockEvent (P : Params) (s : State) : Host.Outcome State Fault Refusal :=
  if s.blk.BLK_S.toNat < s.blk.BLK_N.toNat then ofExcept (sampleEvent P s) else .next (deliver .audio (blockEnd s))

/-- One event of the block, or nothing where neither port has one (R210; DESIGN CHOICE, log entry 1). -/
def event (P : Params) (s : State) : Host.Outcome State Fault Refusal :=
  match nextPort P s with
  | none => .next s
  | some .control => commandEvent .control (countMerge s)
  | some .audio =>
    if s.blk.BLK_ACTIVE then blockEvent P (countMerge s) else commandEvent .audio (countMerge s)

/-- The bytes of an instruction word numbered as the opcode table numbers it: the command word, then the data word. -/
def tableWordBytes (nbits w : Nat) : List Byte :=
  CmdWord.bytes (BitVec.ofNat 32 (w % 2 ^ nbits)) ++ Word.bytes (BitVec.ofNat 64 (w % 2 ^ nbits / 2 ^ 32))

/-- The instruction as the next command of the AUDIO port, over the bytes that stood there; no block runs and the CONTROL
port has no command, so that the very next event is this command. -/
def placeCommand (nbits w : Nat) (s : State) : State :=
  { s with
    AUDIO_IN := tableWordBytes nbits w ++ s.AUDIO_IN.drop 12
    CONTROL_IN := []
    blk := { s.blk with BLK_ACTIVE := false } }

end Sys2Proof.Machine
end

