-- ==== Sys2Proof/Machine/Step.lean ====
section
/-! DEFINITION. The step of the machine: one event of the total order of R74. -/

namespace Sys2Proof.Machine

/-- One step: one command, or one event of a running PROCESS_BLOCK (R3, R74). -/
def step (s : State) : Host.Outcome State Fault Refusal := event Config.params s

/-- The state with an instruction stored where `step` takes its next command: the head of the AUDIO stream. -/
def State.withFetchWord (s : State) (nbits w : Nat) : State := placeCommand nbits w s

end Sys2Proof.Machine
end

