-- ==== Sys2Proof/Machine/Assembler.lean ====
section
/-! DEFINITION. The host's side of the command ports: issuing a command (R276), the assembler notation of R103 and R104 from
its mnemonic and literals on (its text is Machine/AsmText.lean; DESIGN CHOICE, log entry 16), and the pseudo-instructions of
R105. -/

namespace Sys2Proof.Machine

/-- The host issues a command: its bytes follow those already issued on the port (R74, R86). -/
def issue (port : Port) (i : Instr) (s : State) : State :=
  match port with
  | .audio => { s with AUDIO_IN := s.AUDIO_IN ++ encode i }
  | .control => { s with CONTROL_IN := s.CONTROL_IN ++ encode i }

/-- An operand as written (R103, R104). -/
inductive Literal where
  /-- an integer, decimal or hexadecimal -/
  | int (n : Nat)
  /-- a decimal real: the digits, the power of ten that divides them, the power of ten that multiplies them -/
  | real (negative : Bool) (digits places exponent : Nat)
  /-- a raw bit pattern -/
  | raw (bits : F64)
  /-- the name of a snapshot field -/
  | field (f : SnapField)
deriving DecidableEq, Repr

/-- The integer a literal stands for, where it fits the field of w bits (R104). -/
def intLiteral (w : Nat) : Literal → Option (BitVec w)
  | .int n => if n < 2 ^ w then some (BitVec.ofNat w n) else none
  | _ => none

/-- The binary64 a literal stands for: the nearest to a decimal, ties to even, or the raw pattern (R104). -/
def realLiteral : Literal → Option F64
  | .real negative digits places exponent =>
    let v := ofRatio (digits * 10 ^ exponent) (10 ^ places)
    some (if negative then fneg v else v)
  | .raw bits => some bits
  | _ => none

/-- The snapshot field a literal stands for: a name, or 0 to 3 (R103). -/
def fieldLiteral : Literal → Option SnapField
  | .field f => some f
  | .int n => if n < 4 then some (SnapField.ofCode (BitVec.ofNat 2 n)) else none
  | _ => none

/-- The port of a line: AUDIO where none is written (R103). -/
def linePort (port : Option Port) : Port := port.getD .audio

/-- `NOTE_ON p, v, off` (R105). -/
def noteOn (pitch velocity : Byte) (offset : Word) : Instr := .midiMsg 0x90#8 pitch velocity offset

/-- `NOTE_OFF p, off` (R105). -/
def noteOff (pitch : Byte) (offset : Word) : Instr := .midiMsg 0x80#8 pitch 0#8 offset

/-- `LOAD_WAVETABLE ch, [x0, …]` (R105): channel 0's samples, then channel 1's, and so on. -/
def loadWavetable (channels : BitVec 4) (samples : List F64) : List Instr :=
  .wtBegin channels (BitVec.ofNat 64 (samples.length / channels.toNat)) :: samples.map .wtPush ++ [.wtCommit]

/-- `SET_ADSR a, d, s, r` (R105). -/
def setAdsr (attack decay sustain release : F64) : List Instr :=
  [.setAttack attack, .setDecay decay, .setSustain sustain, .setRelease release]

/-- A command of format D with its real operand. -/
def withReal (ctor : F64 → Instr) (x : Literal) : Option (List Instr) := (realLiteral x).map fun v => [ctor v]

/-- A command of format SF with its index and field (R103). -/
def withSlotField (ctor : SnapField → BitVec 4 → Instr) (idx field : Literal) : Option (List Instr) := do
  let k ← intLiteral 4 idx
  let f ← fieldLiteral field
  return [ctor f k]

/-- The commands a line's mnemonic and operands stand for (R103, R105); no value where they are no command. -/
def assemble (mnemonic : String) (operands : List Literal) : Option (List Instr) :=
  match mnemonic, operands with
  | "NOP", [] => some [.nop]
  | "RESET", [sampleRate, blockSize] => do
    let r ← realLiteral sampleRate
    let b ← intLiteral 24 blockSize
    return [.reset b r]
  | "PROCESS_BLOCK", [frameCount, channelCount] => do
    let n ← intLiteral 20 frameCount
    let c ← intLiteral 4 channelCount
    return [.processBlock n c]
  | "MIDI_MSG", [status, d1, d2, offset] => do
    let a ← intLiteral 8 status
    let b ← intLiteral 8 d1
    let c ← intLiteral 8 d2
    let o ← intLiteral 64 offset
    return [.midiMsg a b c o]
  | "ENV_STOP", [] => some [.envStop]
  | "SET_VOLUME", [x] => withReal .setVolume x
  | "SET_ATTACK", [x] => withReal .setAttack x
  | "SET_DECAY", [x] => withReal .setDecay x
  | "SET_SUSTAIN", [x] => withReal .setSustain x
  | "SET_RELEASE", [x] => withReal .setRelease x
  | "SET_NOISE_TINT", [x] => withReal .setNoiseTint x
  | "SET_NOISE_MOD", [x] => withReal .setNoiseMod x
  | "SET_NOISE_RATE", [x] => withReal .setNoiseRate x
  | "SET_NOISE_RANGE", [x] => withReal .setNoiseRange x
  | "SET_NOISE_SHAPE", [x] => withReal .setNoiseShape x
  | "SET_NOISE_SNAPSHOT", [x] => withReal .setNoiseSnapshot x
  | "WT_BEGIN", [channels, frames] => do
    let c ← intLiteral 4 channels
    let n ← intLiteral 64 frames
    return [.wtBegin c n]
  | "WT_PUSH", [x] => withReal .wtPush x
  | "WT_COMMIT", [] => some [.wtCommit]
  | "GET_NOISE_OFFSET", [] => some [.getNoiseOffset]
  | "GET_NOISE_RATE", [] => some [.getNoiseRate]
  | "GET_SHAPE", [] => some [.getShape]
  | "GET_SHAPER_SIZE", [] => some [.getShaperSize]
  | "GET_SHAPER_MAP_VALUE", [] => some [.getShaperMapValue]
  | "GET_STATUS", [] => some [.getStatus]
  | "GET_FAULT_INFO", [] => some [.getFaultInfo]
  | "UPDATE_NOISE_SNAPSHOT", [idx] => (intLiteral 4 idx).map fun k => [.updateNoiseSnapshot k]
  | "GET_NOISE_SNAPSHOT", [idx, field] => withSlotField .getNoiseSnapshot idx field
  | "GET_NOISE_SNAPSHOT_NORMALIZED", [idx, field] => withSlotField .getNoiseSnapshotNormalized idx field
  | "NOTE_ON", [pitch, velocity, offset] => do
    let p ← intLiteral 8 pitch
    let v ← intLiteral 8 velocity
    let o ← intLiteral 64 offset
    return [noteOn p v o]
  | "NOTE_OFF", [pitch, offset] => do
    let p ← intLiteral 8 pitch
    let o ← intLiteral 64 offset
    return [noteOff p o]
  | "SET_ADSR", [a, d, s, r] => do
    let a ← realLiteral a
    let d ← realLiteral d
    let s ← realLiteral s
    let r ← realLiteral r
    return setAdsr a d s r
  | "LOAD_WAVETABLE", channels :: samples => loadLine channels samples
  | "SET_WAVETABLES", channels :: samples => loadLine channels samples
  | _, _ => none
where
  /-- The operands of a load: the list's length must be a multiple of the channel count (R105). -/
  loadLine (channels : Literal) (samples : List Literal) : Option (List Instr) := do
    let c ← intLiteral 4 channels
    let xs ← samples.mapM realLiteral
    if c.toNat ≠ 0 ∧ xs.length % c.toNat = 0 then some (loadWavetable c xs) else none

end Sys2Proof.Machine
end

