-- ==== Sys2Proof/Machine/AsmText.lean ====
section
/-! DEFINITION. The text of the assembler notation (R103, R104): the characters of a line become its port, its mnemonic and
its literals, and so the commands of `assemble`. What the two rules do not spell out (blanks, the digits around a point) is
the model's (DESIGN CHOICE, log entry 16). -/

namespace Sys2Proof.Machine

/-- A blank. -/
def isBlank (c : Char) : Bool := c = ' ' || c = '\t' || c = '\r'

/-- The text without the blanks at both its ends. -/
def trimText (cs : List Char) : List Char := ((cs.dropWhile isBlank).reverse.dropWhile isBlank).reverse

/-- The pieces of a text between the occurrences of a character. -/
def splitText (sep : Char) : List Char → List (List Char)
  | [] => [[]]
  | c :: cs =>
    match splitText sep cs with
    | [] => [[c]]
    | w :: ws => if c = sep then [] :: w :: ws else (c :: w) :: ws

/-- The value of a digit in a base of at most 16. -/
def digitValue (base : Nat) (c : Char) : Option Nat :=
  let n := c.toNat
  let v := if 48 ≤ n ∧ n ≤ 57 then n - 48 else if 65 ≤ n ∧ n ≤ 70 then n - 55 else if 97 ≤ n ∧ n ≤ 102 then n - 87 else 16
  if v < base then some v else none

/-- The number that digits write after those already read. -/
def digitsFrom (base acc : Nat) : List Char → Option Nat
  | [] => some acc
  | c :: cs =>
    match digitValue base c with
    | some v => digitsFrom base (acc * base + v) cs
    | none => none

/-- The number that one or more digits write. -/
def digitsValue (base : Nat) (cs : List Char) : Option Nat := if cs = [] then none else digitsFrom base 0 cs

/-- An integer literal: decimal, or hexadecimal after `0x` (R104). -/
def integerText : List Char → Option Nat
  | '0' :: 'x' :: cs => digitsValue 16 cs
  | cs => digitsValue 10 cs

/-- The exponent of a real literal: the power of ten that divides, and the one that multiplies. -/
def exponentText : List Char → Option (Nat × Nat)
  | '-' :: cs => (digitsValue 10 cs).map fun n => (n, 0)
  | '+' :: cs => (digitsValue 10 cs).map fun n => (0, n)
  | cs => (digitsValue 10 cs).map fun n => (0, n)

/-- The significand of a real literal: its digits as a number, and how many stand after the point. -/
def significandText (cs : List Char) : Option (Nat × Nat) :=
  match splitText '.' cs with
  | [whole] => (digitsValue 10 whole).map fun n => (n, 0)
  | [whole, fraction] => do
    let w ← digitsValue 10 whole
    let v ← digitsValue 10 fraction
    return (w * 10 ^ fraction.length + v, fraction.length)
  | _ => none

/-- A decimal real literal without its sign: with a point, an exponent or both (R104). -/
def decimalText (negative : Bool) (cs : List Char) : Option Literal :=
  match splitText 'e' (cs.map fun c => if c = 'E' then 'e' else c) with
  | [significand] =>
    if '.' ∈ significand then (significandText significand).map fun m => .real negative m.1 m.2 0 else none
  | [significand, exponent] => do
    let m ← significandText significand
    let e ← exponentText exponent
    return .real negative m.1 (m.2 + e.1) e.2
  | _ => none

/-- A literal (R103, R104): the name of a snapshot field, a raw bit pattern, an integer, or a decimal real. -/
def literalText : List Char → Option Literal
  | ['M', 'O', 'D'] => some (.field .mod)
  | ['R', 'A', 'T', 'E'] => some (.field .rate)
  | ['R', 'A', 'N', 'G', 'E'] => some (.field .range)
  | ['S', 'H', 'A', 'P', 'E'] => some (.field .shape)
  | 'f' :: '6' :: '4' :: ':' :: '0' :: 'x' :: cs =>
    if cs.length = 16 then (digitsValue 16 cs).map fun n => .raw (BitVec.ofNat 64 n) else none
  | '-' :: cs => decimalText true cs
  | cs =>
    match integerText cs with
    | some n => some (.int n)
    | none => decimalText false cs

/-- Literals between commas; none in an empty text (R103). -/
def literalsText (cs : List Char) : Option (List Literal) :=
  if trimText cs = [] then some [] else (splitText ',' cs).mapM fun w => literalText (trimText w)

/-- The operands of a wavetable load, `ch, [x0, …]` (R105). -/
def loadOperandsText (cs : List Char) : Option (List Literal) :=
  match splitText '[' cs with
  | [channels, list] =>
    match (trimText channels).reverse, (trimText list).reverse with
    | ',' :: c, ']' :: l => do
      let ch ← literalText (trimText c.reverse)
      let xs ← literalsText l.reverse
      return ch :: xs
    | _, _ => none
  | _ => none

/-- The port of a line, where one is written, and the rest of the line (R103). -/
def portText : List Char → Option Port × List Char
  | 'A' :: ':' :: cs => (some .audio, cs)
  | 'C' :: ':' :: cs => (some .control, cs)
  | cs => (none, cs)

/-- The commands of a line, with their port: AUDIO where none is written; a `;` starts a comment, and a line with nothing
else has no command (R103). -/
def assembleLine (line : List Char) : Option (Port × List Instr) :=
  let code := portText (trimText (line.takeWhile (· ≠ ';')))
  let body := trimText code.2
  let mnemonic := String.ofList (body.takeWhile fun c => !isBlank c)
  let operands := body.dropWhile fun c => !isBlank c
  if body = [] then (if code.1 = none then some (.audio, []) else none)
  else do
    let literals ←
      if mnemonic = "LOAD_WAVETABLE" ∨ mnemonic = "SET_WAVETABLES" then loadOperandsText operands else literalsText operands
    let commands ← assemble mnemonic literals
    return (linePort code.1, commands)

/-- The commands of a text of lines, in order, each with its port (R103). -/
def assembleText (text : List Char) : Option (List (Port × Instr)) :=
  ((splitText '\n' text).mapM assembleLine).map fun lines => lines.flatMap fun l => l.2.map fun i => (l.1, i)

/-- The host issues commands in their order (R74, R276). -/
def issueAll (commands : List (Port × Instr)) (s : State) : State := commands.foldl (fun s c => issue c.1 c.2 s) s

end Sys2Proof.Machine
end

