-- ==== Sys2Proof/Safety.lean ====
section
/-! DEFINITION. What counts as a safe run, in the terms claims use: the spec's named premises (NO_FAULT R261, BOOTED R283,
NOISE_BOUNDED R144), the end of a run and its observation (R293), and the invariants of the block. -/

namespace Sys2Proof.Machine

/-- `NO_FAULT` (R261): no fault has been recorded. -/
def NoFault (s : State) : Prop := s.FAULTS = 0#16

/-- `BOOTED` (R283) of the commands of a run in their order: a RESET stands before every PROCESS_BLOCK and MIDI_MSG. -/
def Booted (commands : List Instr) : Prop :=
  ∀ before i after, commands = before ++ i :: after →
    (∃ n c, i = .processBlock n c) ∨ (∃ a b c o, i = .midiMsg a b c o) → ∃ bs sr, .reset bs sr ∈ before

/-- The noise states that `NoiseStep`s reach from `NoiseRel.init`, whatever tint, rate, `DT`, `SR` and choice each takes:
the states over which `NoiseBounded` ranges (DESIGN CHOICE, log entry 25). -/
inductive NoiseReached (P : Params) : NoiseState → Prop where
  | init : NoiseReached P P.noiseInit
  | step {σ : NoiseState} (tint : Tint) (rate dt sr : F64) (χ : Nat) (h : NoiseReached P σ) :
    NoiseReached P (P.noiseRel tint rate dt sr σ χ).1

/-- `NOISE_BOUNDED` (R144), an assumption about the configuration and no rule of the machine: every noise sample is of
magnitude at most 1. R144 does not say over which noise states; the model takes the reached ones, so that the reference
instance satisfies it as 42_noise.md says of that instance (DESIGN CHOICE, log entry 25). -/
def NoiseBounded (P : Params) : Prop :=
  ∀ σ, NoiseReached P σ → ∀ tint rate dt sr χ, magBits (P.noiseRel tint rate dt sr σ χ).2.bits ≤ magBits f1

/-- The run has ended (R293): every command of both ports has had its response. -/
def RunEnded (s : State) : Prop := s.AUDIO_IN = [] ∧ s.CONTROL_IN = [] ∧ s.blk.BLK_ACTIVE = false

/-- What a host observes of a run (R293): the responses on each port, what it reads in `OUT`, and what the getters answer. -/
structure Observation where
  audioResponses : List Word
  controlResponses : List Word
  out : Memory
  status : Word
  faultInfo : Word
  offset : F64
  rate : F64
  shape : F64
  shaperSize : Nat
  shaperMap : F64
  snapshots : Vector Snapshot 8
deriving DecidableEq, Repr

/-- The observation of a state (R293). -/
def observe (s : State) : Observation where
  audioResponses := s.AUDIO_RESP
  controlResponses := s.CONTROL_RESP
  out := s.OUT
  status := statusWord s
  faultInfo := faultInfoWord s
  offset := rampValue s.RMP_RANGE
  rate := rampValue s.RMP_RATE
  shape := rampValue s.RMP_SHAPE
  shaperSize := s.WT_N
  shaperMap := s.SHAPER_MAP
  snapshots := s.SNAP

/-- Word a of a memory is written and finite. -/
def LiveWord (m : Memory) (a : Nat) : Prop := ∃ v, memRead m a = some v ∧ isFinite v = true

/-- The value is in [0, 1]. -/
def InUnit (x : F64) : Prop := fle f0 x = true ∧ fle x f1 = true

/-- The invariant of the block's memories, queues, fault record and sequencer, which every step keeps. -/
structure Inv (P : Params) (s : State) : Prop where
  /-- the memories have their canonical form -/
  outWf : Memory.wf s.OUT = true
  wtLWf : Memory.wf s.WT_L = true
  wtRWf : Memory.wf s.WT_R = true
  stg0Wf : Memory.wf s.stg.STG0 = true
  stg1Wf : Memory.wf s.stg.STG1 = true
  /-- `OUT` holds finite values at addresses of 24 bits (R64, R189) -/
  outFinite : ∀ c ∈ s.OUT, c.1 < 2 ^ 24 ∧ isFinite c.2 = true
  /-- the live words of both tables are written and finite, and the table fits (R37, R66, R174) -/
  tableFits : s.WT_N ≤ P.wtCap
  leftLive : ∀ a < s.WT_N, LiveWord s.WT_L a
  rightLive : ∀ a < s.WT_N, LiveWord s.WT_R a
  /-- an open load has a channel, fits, and has taken at most its samples, each of which is staged (R39, R67) -/
  loadShape : s.stg.STG_ACTIVE = true →
    1 ≤ s.stg.STG_CH.toNat ∧ s.stg.STG_N ≤ P.wtCap ∧ s.stg.STG_COUNT ≤ s.stg.STG_CH.toNat * s.stg.STG_N
  stagedLeft : s.stg.STG_ACTIVE = true → ∀ f < s.stg.STG_N, f < s.stg.STG_COUNT → LiveWord s.stg.STG0 f
  stagedRight : s.stg.STG_ACTIVE = true →
    ∀ f < s.stg.STG_N, s.stg.STG_N + f < s.stg.STG_COUNT → LiveWord s.stg.STG1 f
  /-- the MIDI queue is in offset order and within its capacity (R40, R204) -/
  queueOrder : s.MQ.Pairwise fun a b => a.offset.toNat ≤ b.offset.toNat
  queueBound : s.MQ.length ≤ s.BLOCK_SIZE.toNat
  /-- the note stack is within its capacity (R41) -/
  notesBound : s.NS.length ≤ P.noteCap
  /-- only bits 0 to 7 of `FAULTS` are ever set, and `FAULT_INFO` is 0 exactly while none is (R29, R45) -/
  faultBits : s.FAULTS >>> 8 = 0#16
  firstFault : s.FAULTS = 0#16 ↔ s.FAULT_INFO = 0#40
  /-- a block runs only when ready, at most one step past its last, and every queued event is still to come (R43, R197) -/
  running : s.blk.BLK_ACTIVE = true →
    s.READY = true ∧ s.blk.BLK_S.toNat ≤ s.blk.BLK_N.toNat ∧ ∀ ev ∈ s.MQ, s.blk.BLK_S.toNat ≤ ev.offset.toNat
  /-- once ready, the sample period is finite and above zero (R192) -/
  period : s.READY = true → isFinite s.DT = true ∧ flt f0 s.DT = true

/-- The invariant of the block's signals, which every step keeps in a state with `Inv`: the gain finite and not negative (R224),
the envelope's bounds (R134), the oscillator's phase in [0, 1) (R35, R153), the map values in [0, 1] (R38, R172). -/
structure SignalInv (s : State) : Prop where
  gain : isFinite s.par.VOL_GAIN = true ∧ fle f0 s.par.VOL_GAIN = true
  sustain : InUnit s.par.P_SUSTAIN
  attackFinite : isFinite s.par.P_ATTACK = true
  decayFinite : isFinite s.par.P_DECAY = true
  releaseFinite : isFinite s.par.P_RELEASE = true
  envelope : InUnit s.env.ENV_OUT
  elapsed : isFinite s.env.ENV_ELAPSED = true ∧ fle f0 s.env.ENV_ELAPSED = true
  phase : fle f0 s.OSC_PHASE = true ∧ flt s.OSC_PHASE f1 = true
  mapLeft : InUnit s.SHP_LAST_L
  mapRight : InUnit s.SHP_LAST_R
  mapShown : InUnit s.SHAPER_MAP

end Sys2Proof.Machine
end

