-- ==== Sys2Proof/Certificates/Slice0/Obligations.lean ====
section
/-! DEFINITION. The statements for the provers, from the numbered rules of the spec. An equation `exec i s = .next t` with t
written as an update of s is the instruction's result, its frame and its completion at once: every field and every memory
word that t does not name is as in s. -/

namespace Sys2Proof.Claim

open Sys2Proof.Machine

/-- The state after a refused command (R262, R273): `RESP` 0, the bit code - 1 of `FAULTS`, and `FAULT_INFO` if no fault was
recorded before; nothing else. -/
def refused (cw : CmdWord) (code : Nat) (s : State) : State :=
  { s with
    RESP := 0#64
    FAULTS := s.FAULTS ||| BitVec.twoPow 16 (code - 1)
    FAULT_INFO := if s.FAULTS = 0#16 then BitVec.ofNat 8 code ++ cw else s.FAULT_INFO }

/-- The state after a fault that does not refuse (R262): the record alone. -/
def recorded (cw : CmdWord) (code : Nat) (s : State) : State :=
  { s with
    FAULTS := s.FAULTS ||| BitVec.twoPow 16 (code - 1)
    FAULT_INFO := if s.FAULTS = 0#16 then BitVec.ofNat 8 code ++ cw else s.FAULT_INFO }

/-- The state after a command that answers v and changes nothing else. -/
def answered (v : Word) (s : State) : State := { s with RESP := v }

/-- What a command word with a data word does (R98, R99): its command's meaning, or ILLEGAL_OP. -/
def issued (cw : CmdWord) (dw : Word) (s : State) : Host.Outcome State Fault Refusal :=
  match decodeWords cw dw with
  | .ok i => exec i s
  | .error why => .next (illegalCommand why cw s)

/-- The words of an opcode of format N or D (R89, R90): with IMM 0 the command, else ILLEGAL_OP (R99). -/
def PlainWords (op : BitVec 8) (ctor : Word → Instr) : Prop :=
  ∀ imm dw s, issued (op ++ imm) dw s = if imm = 0#24 then exec (ctor dw) s else .next (refused (op ++ imm) 1 s)

/-- The words of an opcode of format W or S (R94, R95). -/
def IndexWords (op : BitVec 8) (ctor : BitVec 4 → Word → Instr) : Prop :=
  ∀ above k dw s, issued (op ++ above ++ k) dw s =
    if above = 0#20 then exec (ctor k dw) s else .next (refused (op ++ above ++ k) 1 s)

/-- The words of an opcode of format SF (R95). -/
def FieldWords (op : BitVec 8) (ctor : SnapField → BitVec 4 → Instr) : Prop :=
  ∀ above f k dw s, issued (op ++ above ++ f ++ k) dw s =
    if above = 0#18 then exec (ctor (SnapField.ofCode f) k) s else .next (refused (op ++ above ++ f ++ k) 1 s)

/-- The opcodes of the opcode map (R96). -/
def opcodes : List Nat :=
  [0x00, 0x01, 0x02, 0x03, 0x04, 0x10, 0x11, 0x12, 0x13, 0x14, 0x15, 0x16, 0x17, 0x18, 0x19, 0x1A, 0x20, 0x21, 0x22,
   0x30, 0x31, 0x32, 0x33, 0x34, 0x35, 0x36, 0x40, 0x41, 0x42]

/-- The opcodes with a data word (R97). -/
def dataOpcodes : List Nat :=
  [0x01, 0x03, 0x10, 0x11, 0x12, 0x13, 0x14, 0x15, 0x16, 0x17, 0x18, 0x19, 0x1A, 0x20, 0x21]

/-- The bits of a command word that its opcode's format reserves (R99). -/
def reservedMask (op : Nat) : CmdWord :=
  if op ∈ [0x01, 0x02, 0x03] then 0x00000000#32
  else if op ∈ [0x20, 0x40] then 0x00FFFFF0#32
  else if op ∈ [0x41, 0x42] then 0x00FFFFC0#32
  else 0x00FFFFFF#32

/-- A command word, its data word if its opcode has one, and the stream after them (R86, R97). -/
def streamOf (cw : CmdWord) (dw : Word) (rest : List Byte) : List Byte :=
  CmdWord.bytes cw ++ (if (cw.toNat / 2 ^ 24) ∈ dataOpcodes then Word.bytes dw else []) ++ rest

/-- Commands run one after another with nothing between (R105). -/
def runCommands : List Instr → State → Host.Outcome State Fault Refusal
  | [], s => .next s
  | i :: is, s =>
    match exec i s with
    | .next t => runCommands is t
    | .fault f => .fault f
    | .refused r => .refused r

/-- The note stack after one delivered event, and whether its note-on found the stack full (R198, R200, R201, R268). -/
def stackEvent (cap : Nat) (ns : List Byte) (ev : MidiEvent) : List Byte × Bool :=
  if ev.status.toNat / 16 = 9 ∧ ev.d2 ≠ 0#8 then
    (if cap ≤ ns.length then (ns, true) else (ns ++ [ev.d1], false))
  else if ev.status.toNat / 16 = 8 ∨ ev.status.toNat / 16 = 9 then ((ns.reverse.erase ev.d1).reverse, false)
  else (ns, false)

/-- The note stack after delivered events, and whether any of their note-ons found the stack full. -/
def stackEvents (cap : Nat) : List MidiEvent → List Byte → List Byte × Bool
  | [], ns => (ns, false)
  | ev :: rest, ns =>
    ((stackEvents cap rest (stackEvent cap ns ev).1).1,
      (stackEvent cap ns ev).2 || (stackEvents cap rest (stackEvent cap ns ev).1).2)

/-- A blended value applied, or NUMERIC recorded and the field skipped (R249, R252). -/
def applied (x : F64) (apply : F64 → State → State) (s : State) : State :=
  if isFinite x then apply x s else recorded 0x1A000000#32 8 s

end Sys2Proof.Claim

open Sys2Proof Sys2Proof.Machine Sys2Proof.Claim

/-! ### Encoding -/

/-- R106: the six encoding examples, from the text of the line to the words and back. -/
def Obligations.DecodesSpecExamples : Prop :=
  (assembleLine "RESET 44100.0, 512".toList = some (.audio, [.reset 512#24 0x40E5888000000000#64]) ∧
    (Instr.reset 512#24 0x40E5888000000000#64).commandWord = 0x01000200#32 ∧
    decodeWords 0x01000200#32 0x40E5888000000000#64 = .ok (.reset 512#24 0x40E5888000000000#64)) ∧
  (assembleLine "PROCESS_BLOCK 512, 2".toList = some (.audio, [.processBlock 512#20 2#4]) ∧
    (Instr.processBlock 512#20 2#4).commandWord = 0x02002002#32 ∧
    decodeWords 0x02002002#32 0#64 = .ok (.processBlock 512#20 2#4)) ∧
  (assembleLine "NOTE_ON 60, 100, 0".toList = some (.audio, [.midiMsg 0x90#8 60#8 100#8 0#64]) ∧
    (Instr.midiMsg 0x90#8 60#8 100#8 0#64).commandWord = 0x03903C64#32 ∧
    decodeWords 0x03903C64#32 0#64 = .ok (.midiMsg 0x90#8 60#8 100#8 0#64)) ∧
  (assembleLine "SET_NOISE_MOD 0.0".toList = some (.audio, [.setNoiseMod 0#64]) ∧
    (Instr.setNoiseMod 0#64).commandWord = 0x16000000#32 ∧
    decodeWords 0x16000000#32 0#64 = .ok (.setNoiseMod 0#64)) ∧
  (assembleLine "GET_NOISE_SNAPSHOT 7, SHAPE".toList = some (.audio, [.getNoiseSnapshot .shape 7#4]) ∧
    (Instr.getNoiseSnapshot .shape 7#4).commandWord = 0x41000037#32 ∧
    decodeWords 0x41000037#32 0#64 = .ok (.getNoiseSnapshot .shape 7#4)) ∧
  (assembleLine "WT_BEGIN 1, 4".toList = some (.audio, [.wtBegin 1#4 4#64]) ∧
    (Instr.wtBegin 1#4 4#64).commandWord = 0x20000001#32 ∧
    decodeWords 0x20000001#32 4#64 = .ok (.wtBegin 1#4 4#64))

/-- Decoding the bytes of any command, whatever follows them, gives the command back and leaves what follows. -/
def Obligations.DecodeEncodeAgree : Prop :=
  ∀ (i : Instr) (rest : List Byte), decode (encode i ++ rest) = .command i rest

/-- A command word that decodes is the command word of the command it decodes to, and so is its data word: no two words
mean one command. -/
def Obligations.EncodeUnique : Prop :=
  ∀ (cw : CmdWord) (dw : Word) (i : Instr), decodeWords cw dw = .ok i →
    i.commandWord = cw ∧ ∀ d, i.dataWord = some d → d = dw

/-- R98: a reserved opcode is one word long, is refused with ILLEGAL_OP and has no other effect. -/
def Obligations.ReservedOpIllegal : Prop :=
  ∀ (cw : CmdWord) (dw : Word) (rest : List Byte) (s : State), cw.toNat / 2 ^ 24 ∉ opcodes →
    decode (CmdWord.bytes cw ++ rest) = .illegal .reservedOp cw rest ∧
    issued cw dw s = .next (refused cw 1 s)

/-- R97, R99: with a reserved bit of IMM set a command is refused with ILLEGAL_OP, its data word consumed, and has no other
effect; with none set it is a command of the length its opcode says. -/
def Obligations.ReservedBitsIllegal : Prop :=
  ∀ (cw : CmdWord) (dw : Word) (rest : List Byte) (s : State), cw.toNat / 2 ^ 24 ∈ opcodes →
    (cw &&& reservedMask (cw.toNat / 2 ^ 24) ≠ 0#32 →
      decode (streamOf cw dw rest) = .illegal .reservedBits cw rest ∧ issued cw dw s = .next (refused cw 1 s)) ∧
    (cw &&& reservedMask (cw.toNat / 2 ^ 24) = 0#32 →
      ∃ i, decode (streamOf cw dw rest) = .command i rest)

/-! ### Faults, ports and steps -/

/-- R262 and R263: what raising a fault changes, and that raising one again changes nothing. -/
def Obligations.FaultRecord : Prop :=
  (∀ cw s, raiseFault cw .illegalOp s = recorded cw 1 s ∧ raiseFault cw .notReady s = recorded cw 2 s ∧
    raiseFault cw .badArg s = recorded cw 3 s ∧ raiseFault cw .midiOverflow s = recorded cw 4 s ∧
    raiseFault cw .noteOverflow s = recorded cw 5 s ∧ raiseFault cw .wtSequence s = recorded cw 6 s ∧
    raiseFault cw .wtCapacity s = recorded cw 7 s ∧ raiseFault cw .numeric s = recorded cw 8 s) ∧
  (∀ cw cw' code s, raiseFault cw' code (raiseFault cw code s) = raiseFault cw code s) ∧
  (∀ cw cw' code code' s, (raiseFault cw' code' (raiseFault cw code s)).FAULT_INFO = (raiseFault cw code s).FAULT_INFO)

/-- R100: RESET, PROCESS_BLOCK, MIDI_MSG and ENV_STOP issued on the CONTROL port are refused with ILLEGAL_OP and have no
other effect. -/
def Obligations.PortCheck : Prop :=
  ∀ (i : Instr) (s : State),
    ((∃ bs sr, i = .reset bs sr) ∨ (∃ n c, i = .processBlock n c) ∨ (∃ a b c o, i = .midiMsg a b c o) ∨ i = .envStop) →
    s.PORT = .control → exec i s = .next (refused i.commandWord 1 s)

/-- Where the AUDIO port's turn comes with no block running, a step is `exec` of the command its stream decodes to, the
command taken from the stream; its response is delivered, except that of a PROCESS_BLOCK that has started its block. Where
the stream decodes to an illegal word, a step takes that word, and its data word if its opcode has one (`ReservedOpIllegal`,
`ReservedBitsIllegal`), records ILLEGAL_OP with the word, and delivers the response 0.
The streams, the delivered responses and the merge's choice are the model's fields (log entries 1, 2, 13). -/
def Obligations.StepRunsAudioCommand : Prop :=
  ∀ (s : State) (rest : List Byte), s.blk.BLK_ACTIVE = false →
    (hasCommand s.CONTROL_IN = false ∨ Config.params.merge s.MERGES = .audio) →
    let taken := { s with
      AUDIO_IN := rest, PORT := .audio
      MERGES := if hasCommand s.CONTROL_IN then s.MERGES + 1 else s.MERGES }
    (∀ i, decode s.AUDIO_IN = .command i rest →
      step s =
        match exec i taken with
        | .next t => .next (if t.blk.BLK_ACTIVE then t else { t with AUDIO_RESP := t.AUDIO_RESP ++ [t.RESP] })
        | .fault f => .fault f
        | .refused r => .refused r) ∧
    (∀ why cw, decode s.AUDIO_IN = .illegal why cw rest →
      step s = .next { refused cw 1 taken with AUDIO_RESP := s.AUDIO_RESP ++ [0#64] })

/-- Where the CONTROL port's turn comes, a block running or not, a step is `exec` of the command its stream decodes to, and
its response is delivered. Where the stream decodes to an illegal word, a step takes that word, and its data word if its
opcode has one (`ReservedOpIllegal`, `ReservedBitsIllegal`), records ILLEGAL_OP with the word, and delivers the response 0.
The streams, the delivered responses and the merge's choice are the model's fields (log entries 1, 2, 13). -/
def Obligations.StepRunsControlCommand : Prop :=
  ∀ (s : State) (rest : List Byte),
    ((s.blk.BLK_ACTIVE = false ∧ hasCommand s.AUDIO_IN = false) ∨ Config.params.merge s.MERGES = .control) →
    let taken := { s with
      CONTROL_IN := rest, PORT := .control
      MERGES := if s.blk.BLK_ACTIVE || hasCommand s.AUDIO_IN then s.MERGES + 1 else s.MERGES }
    (∀ i, decode s.CONTROL_IN = .command i rest →
      step s =
        match exec i taken with
        | .next t => .next { t with CONTROL_RESP := t.CONTROL_RESP ++ [t.RESP] }
        | .fault f => .fault f
        | .refused r => .refused r) ∧
    (∀ why cw, decode s.CONTROL_IN = .illegal why cw rest →
      step s = .next { refused cw 1 taken with CONTROL_RESP := s.CONTROL_RESP ++ [0#64] })

/-- While a block runs and its turn comes, a step is the next sample step and the advance of `BLK_S`, or after the last one
the end event, whose response is delivered then.
The streams, the delivered responses and the merge's choice are the model's fields (log entries 1, 2, 13). -/
def Obligations.StepRunsBlock : Prop :=
  ∀ s : State, s.blk.BLK_ACTIVE = true → (hasCommand s.CONTROL_IN = false ∨ Config.params.merge s.MERGES = .audio) →
    let s' := { s with MERGES := if hasCommand s.CONTROL_IN then s.MERGES + 1 else s.MERGES }
    (s.blk.BLK_S.toNat < s.blk.BLK_N.toNat → ∀ t, sampleStep Config.params s' = .ok t →
      step s = .next { t with blk := { t.blk with BLK_S := t.blk.BLK_S + 1#20 } }) ∧
    (s.blk.BLK_N.toNat ≤ s.blk.BLK_S.toNat →
      step s = .next { s' with
        SHAPER_MAP := if s.blk.BLK_N = 0#20 then s.SHAPER_MAP else s.SHP_LAST_L
        MQ := s.MQ.map fun ev => { ev with offset := ev.offset - s.blk.BLK_N.setWidth 64 }
        blk := { s.blk with BLK_ACTIVE := false }
        RESP := 0#64
        AUDIO_RESP := s.AUDIO_RESP ++ [0#64] })

/-- R210: with no block running and no command on either port, a step changes nothing.
That a step may be taken then, and that a command not yet whole is none, is the model's choice (log entries 1, 17). -/
def Obligations.IdleChangesNothing : Prop :=
  ∀ s : State, s.blk.BLK_ACTIVE = false → hasCommand s.AUDIO_IN = false → hasCommand s.CONTROL_IN = false →
    step s = .next s

/-- No step clears a recorded fault, replaces the first one, or clears READY. -/
def Obligations.FaultsSticky : Prop :=
  ∀ s t : State, step s = .next t →
    s.FAULTS &&& t.FAULTS = s.FAULTS ∧ (s.FAULTS ≠ 0#16 → t.FAULT_INFO = s.FAULT_INFO) ∧
    (s.READY = true → t.READY = true)

/-- Each piece of state is written only by the commands the spec names for it: what a command leaves unchanged, for every
command at once. -/
def Obligations.CommandWriters : Prop :=
  ∀ (i : Instr) (s t : State), exec i s = .next t →
    (t.OUT = s.OUT ∧ t.OSC_PHASE = s.OSC_PHASE ∧ t.NOISE_ST = s.NOISE_ST ∧ t.SHP_LAST_L = s.SHP_LAST_L ∧
      t.SHP_LAST_R = s.SHP_LAST_R ∧ t.SHAPER_MAP = s.SHAPER_MAP ∧ t.DRAWS = s.DRAWS ∧ t.MERGES = s.MERGES ∧
      t.AUDIO_IN = s.AUDIO_IN ∧ t.CONTROL_IN = s.CONTROL_IN ∧ t.AUDIO_RESP = s.AUDIO_RESP ∧
      t.CONTROL_RESP = s.CONTROL_RESP ∧ t.PORT = s.PORT) ∧
    ((∀ bs sr, i ≠ .reset bs sr) →
      t.READY = s.READY ∧ t.SR = s.SR ∧ t.DT = s.DT ∧ t.BLOCK_SIZE = s.BLOCK_SIZE ∧ t.NS = s.NS ∧
      (i ≠ .envStop → t.env = s.env) ∧ ((∀ a b c o, i ≠ .midiMsg a b c o) → t.MQ = s.MQ)) ∧
    ((∀ n c, i ≠ .processBlock n c) → t.blk = s.blk) ∧
    (i ≠ .wtCommit → t.WT_N = s.WT_N ∧ t.WT_L = s.WT_L ∧ t.WT_R = s.WT_R) ∧
    (i ≠ .wtCommit → (∀ c n, i ≠ .wtBegin c n) → (∀ v, i ≠ .wtPush v) → t.stg = s.stg) ∧
    ((∀ k, i ≠ .updateNoiseSnapshot k) → t.SNAP = s.SNAP) ∧
    ((∀ v, i ≠ .setVolume v) → t.par.P_VOLUME = s.par.P_VOLUME ∧ t.par.VOL_GAIN = s.par.VOL_GAIN) ∧
    ((∀ v, i ≠ .setAttack v) → t.par.P_ATTACK = s.par.P_ATTACK) ∧
    ((∀ v, i ≠ .setDecay v) → t.par.P_DECAY = s.par.P_DECAY) ∧
    ((∀ v, i ≠ .setSustain v) → t.par.P_SUSTAIN = s.par.P_SUSTAIN) ∧
    ((∀ v, i ≠ .setRelease v) → t.par.P_RELEASE = s.par.P_RELEASE) ∧
    ((∀ v, i ≠ .setNoiseTint v) → t.par.P_TINT = s.par.P_TINT) ∧
    ((∀ v, i ≠ .setNoiseSnapshot v) →
      t.par.P_SNAPSHOT = s.par.P_SNAPSHOT ∧
      ((∀ v, i ≠ .setNoiseMod v) → t.par.P_MOD = s.par.P_MOD ∧ t.RMP_MOD = s.RMP_MOD) ∧
      ((∀ v, i ≠ .setNoiseRate v) → t.par.P_RATE = s.par.P_RATE ∧ t.RMP_RATE = s.RMP_RATE) ∧
      ((∀ v, i ≠ .setNoiseRange v) → t.par.P_RANGE = s.par.P_RANGE ∧ t.RMP_RANGE = s.RMP_RANGE) ∧
      ((∀ v, i ≠ .setNoiseShape v) → t.par.P_SHAPE = s.par.P_SHAPE ∧ t.RMP_SHAPE = s.RMP_SHAPE))

/-! ### Control commands -/

/-- R205: NOP answers 0 and changes nothing else; with a reserved bit set it is ILLEGAL_OP. -/
def Obligations.NopEffect : Prop :=
  PlainWords 0x00#8 (fun _ => .nop) ∧ ∀ s, exec .nop s = .next (answered 0#64 s)

/-- R192: the checks of RESET in their order, and what an accepted one sets; every other register and memory is kept. -/
def Obligations.ResetEffect : Prop :=
  (∀ bs sr s, issued (0x01#8 ++ bs) sr s = exec (.reset bs sr) s) ∧
  ∀ (bs : BitVec 24) (sr : F64) (s : State), exec (.reset bs sr) s = .next (
    if s.PORT = .control then refused (0x01#8 ++ bs) 1 s
    else if isFinite sr = false ∨ flt f0 sr = false ∨ isFinite (fdiv f1 sr) = false ∨ bs = 0#24 then
      refused (0x01#8 ++ bs) 3 s
    else
      { s with
        SR := sr
        DT := fdiv f1 sr
        BLOCK_SIZE := bs
        MQ := []
        NS := []
        env := { ENV_STATE := .off, ENV_OUT := 0#64, ENV_ELAPSED := 0#64, ENV_AUTOREL := false }
        READY := true
        RESP := 0#64 })

/-- R133 and R131: ENV_STOP cuts the envelope and touches nothing else; on CONTROL or with a reserved bit it is ILLEGAL_OP. -/
def Obligations.EnvStopEffect : Prop :=
  PlainWords 0x04#8 (fun _ => .envStop) ∧
  ∀ s : State, exec .envStop s = .next (
    if s.PORT = .control then refused 0x04000000#32 1 s
    else
      { s with
        env := { ENV_STATE := .off, ENV_OUT := 0#64, ENV_ELAPSED := 0#64, ENV_AUTOREL := false }
        RESP := 0#64 })

/-- PROCESS_BLOCK's checks and its start event (R193, R265); its sample events and end event are `StepRunsBlock`. -/
def Obligations.ProcessBlockStart : Prop :=
  (∀ n c dw s, issued (0x02#8 ++ n ++ c) dw s = exec (.processBlock n c) s) ∧
  ∀ (n : BitVec 20) (c : BitVec 4) (s : State), exec (.processBlock n c) s = .next (
    if s.PORT = .control then refused (0x02#8 ++ n ++ c) 1 s
    else if s.READY = false then refused (0x02#8 ++ n ++ c) 2 s
    else { s with blk := { BLK_ACTIVE := true, BLK_S := 0#20, BLK_N := n, BLK_C := c, BLK_CW := 0x02#8 ++ n ++ c } })

/-- R202: the checks of MIDI_MSG in their order, the messages it ignores, and the queueing of a note message. -/
def Obligations.MidiMsgEffect : Prop :=
  (∀ st d1 d2 off s, issued (0x03#8 ++ st ++ d1 ++ d2) off s = exec (.midiMsg st d1 d2 off) s) ∧
  ∀ (st d1 d2 : Byte) (off : Word) (s : State), exec (.midiMsg st d1 d2 off) s = .next (
    if s.PORT = .control then refused (0x03#8 ++ st ++ d1 ++ d2) 1 s
    else if s.READY = false then refused (0x03#8 ++ st ++ d1 ++ d2) 2 s
    else if st.getLsbD 7 = false ∨ d1.getLsbD 7 = true ∨ d2.getLsbD 7 = true then
      refused (0x03#8 ++ st ++ d1 ++ d2) 3 s
    else if st.toNat / 16 ≠ 8 ∧ st.toNat / 16 ≠ 9 then answered 0#64 s
    else if s.BLOCK_SIZE.toNat ≤ s.MQ.length then refused (0x03#8 ++ st ++ d1 ++ d2) 4 s
    else { s with MQ := queueInsert s.MQ { offset := off, status := st, d1 := d1, d2 := d2 }, RESP := 0#64 })

/-- R203: in a queue in offset order, an event is placed after every event whose offset is at most its own and before every
one whose offset is greater, and the queue stays in order. -/
def Obligations.QueueInsertStable : Prop :=
  ∀ (q : List MidiEvent) (ev : MidiEvent), (q.Pairwise fun a b => a.offset.toNat ≤ b.offset.toNat) →
    queueInsert q ev =
      (q.filter fun x => x.offset.toNat ≤ ev.offset.toNat) ++ [ev] ++ (q.filter fun x => ev.offset.toNat < x.offset.toNat) ∧
    (queueInsert q ev).Pairwise fun a b => a.offset.toNat ≤ b.offset.toNat

/-! ### Setters -/

/-- R224: SET_VOLUME stores the decibels and the gain, and refuses a value that is not finite or whose gain is not; a gain
that is stored is at least 0.0, and is 0.0 for every volume negative enough. -/
def Obligations.SetVolumeEffect : Prop :=
  let gain := fun v : F64 => pow64 Config.params f10 (fdiv v f20)
  PlainWords 0x10#8 .setVolume ∧
  (∀ (v : F64) (s : State), exec (.setVolume v) s = .next (
    if isFinite v = false ∨ isFinite (gain v) = false then refused 0x10000000#32 3 s
    else { s with par := { s.par with P_VOLUME := v, VOL_GAIN := gain v }, RESP := 0#64 })) ∧
  (∀ v, isFinite (gain v) = true → fle f0 (gain v) = true) ∧
  ∃ silent, isFinite silent = true ∧ flt silent f0 = true ∧
    ∀ v, isFinite v = true → fle v silent = true → gain v = 0#64

/-- R225, R226, R228: the three envelope times are stored as given, on either port and before READY; a value that is not
finite is refused. -/
def Obligations.SetEnvelopeTimes : Prop :=
  PlainWords 0x11#8 .setAttack ∧ PlainWords 0x12#8 .setDecay ∧ PlainWords 0x14#8 .setRelease ∧
  ∀ (v : F64) (s : State),
    exec (.setAttack v) s = .next (
      if isFinite v then { s with par := { s.par with P_ATTACK := v }, RESP := 0#64 } else refused 0x11000000#32 3 s) ∧
    exec (.setDecay v) s = .next (
      if isFinite v then { s with par := { s.par with P_DECAY := v }, RESP := 0#64 } else refused 0x12000000#32 3 s) ∧
    exec (.setRelease v) s = .next (
      if isFinite v then { s with par := { s.par with P_RELEASE := v }, RESP := 0#64 } else refused 0x14000000#32 3 s)

/-- R227: the sustain level is stored at most 1.0, and as +0.0 for anything not above zero. -/
def Obligations.SetSustainEffect : Prop :=
  PlainWords 0x13#8 .setSustain ∧
  ∀ (v : F64) (s : State), exec (.setSustain v) s = .next (
    if isFinite v = false then refused 0x13000000#32 3 s
    else
      { s with
        par := { s.par with P_SUSTAIN := if flt f0 v then (if flt f1 v then f1 else v) else 0#64 }
        RESP := 0#64 })

/-- R146: the four patterns that select a tint, and BAD_ARG for every other, NaNs and infinities among them. -/
def Obligations.SetNoiseTintEffect : Prop :=
  PlainWords 0x15#8 .setNoiseTint ∧
  ∀ (v : F64) (s : State), exec (.setNoiseTint v) s = .next (
    if v = 0x0000000000000000#64 ∨ v = 0x8000000000000000#64 then
      { s with par := { s.par with P_TINT := .white }, RESP := 0#64 }
    else if v = 0x3FF0000000000000#64 then { s with par := { s.par with P_TINT := .pink }, RESP := 0#64 }
    else if v = 0x4000000000000000#64 then { s with par := { s.par with P_TINT := .brown }, RESP := 0#64 }
    else refused 0x15000000#32 3 s)

/-- R229, R231, R232 with the apply operations of R233: the register takes the value and its ramp is armed from where it
stands, over 0.01 s for Mod and 0.1 s for Range and Shape. -/
def Obligations.SetRampParameters : Prop :=
  PlainWords 0x16#8 .setNoiseMod ∧ PlainWords 0x18#8 .setNoiseRange ∧ PlainWords 0x19#8 .setNoiseShape ∧
  ∀ (v : F64) (s : State),
    exec (.setNoiseMod v) s = .next (
      if isFinite v then
        { s with
          par := { s.par with P_MOD := v }
          RMP_MOD := { cur := s.RMP_MOD.cur, start := s.RMP_MOD.cur, endVal := v, dur := 0x3F847AE147AE147B#64, elapsed := 0#64 }
          RESP := 0#64 }
      else refused 0x16000000#32 3 s) ∧
    exec (.setNoiseRange v) s = .next (
      if isFinite v then
        { s with
          par := { s.par with P_RANGE := v }
          RMP_RANGE :=
            { cur := s.RMP_RANGE.cur, start := s.RMP_RANGE.cur, endVal := v, dur := 0x3FB999999999999A#64, elapsed := 0#64 }
          RESP := 0#64 }
      else refused 0x18000000#32 3 s) ∧
    exec (.setNoiseShape v) s = .next (
      if isFinite v then
        { s with
          par := { s.par with P_SHAPE := v }
          RMP_SHAPE :=
            { cur := s.RMP_SHAPE.cur, start := s.RMP_SHAPE.cur, endVal := v, dur := 0x3FB999999999999A#64, elapsed := 0#64 }
          RESP := 0#64 }
      else refused 0x19000000#32 3 s)

/-- R230: the rate ramps over 0.01 s while a note is held, and jumps at once while none is. -/
def Obligations.SetNoiseRateEffect : Prop :=
  PlainWords 0x17#8 .setNoiseRate ∧
  ∀ (v : F64) (s : State), exec (.setNoiseRate v) s = .next (
    if isFinite v = false then refused 0x17000000#32 3 s
    else if s.NS = [] then
      { s with
        par := { s.par with P_RATE := v }
        RMP_RATE := { cur := v, start := v, endVal := v, dur := 0#64, elapsed := 0#64 }
        RESP := 0#64 }
    else
      { s with
        par := { s.par with P_RATE := v }
        RMP_RATE := { cur := s.RMP_RATE.cur, start := s.RMP_RATE.cur, endVal := v, dur := 0x3F847AE147AE147B#64, elapsed := 0#64 }
        RESP := 0#64 })

/-! ### Wavetable loads -/

/-- R173: WT_BEGIN's checks in their order; an accepted one opens a load and leaves the staging memories and both tables. -/
def Obligations.WtBeginEffect : Prop :=
  IndexWords 0x20#8 .wtBegin ∧
  ∀ (ch : BitVec 4) (n : Word) (s : State), exec (.wtBegin ch n) s = .next (
    if ch = 0#4 then refused (0x2000000#28 ++ ch) 3 s
    else if Config.params.wtCap < n.toNat then refused (0x2000000#28 ++ ch) 7 s
    else
      { s with
        stg := { s.stg with STG_ACTIVE := true, STG_CH := ch, STG_N := n.toNat, STG_COUNT := 0 }
        RESP := 0#64 })

/-- R174: WT_PUSH's checks in their order; an accepted one writes its sample at one word of one staging memory, or nowhere
for a third channel, and counts it. The premise is the bound of `STG_N` in an open load (R39, `StepKeepsInv`). -/
def Obligations.WtPushEffect : Prop :=
  PlainWords 0x21#8 .wtPush ∧
  ∀ (v : F64) (s : State), (s.stg.STG_ACTIVE = true → s.stg.STG_N ≤ Config.params.wtCap) →
    (isFinite v = false → exec (.wtPush v) s = .next (refused 0x21000000#32 3 s)) ∧
    (isFinite v = true → (s.stg.STG_ACTIVE = false ∨ s.stg.STG_CH.toNat * s.stg.STG_N ≤ s.stg.STG_COUNT) →
      exec (.wtPush v) s = .next (refused 0x21000000#32 6 s)) ∧
    (isFinite v = true → s.stg.STG_ACTIVE = true → s.stg.STG_COUNT < s.stg.STG_CH.toNat * s.stg.STG_N →
      ∃ m0 m1,
        exec (.wtPush v) s = .next
          { s with stg := { s.stg with STG0 := m0, STG1 := m1, STG_COUNT := s.stg.STG_COUNT + 1 }, RESP := 0#64 } ∧
        ∀ a,
          memRead m0 a = (if s.stg.STG_COUNT / s.stg.STG_N = 0 ∧ a = s.stg.STG_COUNT % s.stg.STG_N then some v
            else memRead s.stg.STG0 a) ∧
          memRead m1 a = (if s.stg.STG_COUNT / s.stg.STG_N = 1 ∧ a = s.stg.STG_COUNT % s.stg.STG_N then some v
            else memRead s.stg.STG1 a))

/-- R175, R176: WT_COMMIT out of sequence is refused, a short load is discarded, and a whole load is published to both
tables at once, a mono one to both; the words past its frames are kept. -/
def Obligations.WtCommitEffect : Prop :=
  PlainWords 0x22#8 (fun _ => .wtCommit) ∧
  ∀ s : State, Inv Config.params s →
    (s.stg.STG_ACTIVE = false → exec .wtCommit s = .next (refused 0x22000000#32 6 s)) ∧
    (s.stg.STG_ACTIVE = true → s.stg.STG_COUNT ≠ s.stg.STG_CH.toNat * s.stg.STG_N →
      exec .wtCommit s = .next (refused 0x22000000#32 6 { s with stg := { s.stg with STG_ACTIVE := false } })) ∧
    (s.stg.STG_ACTIVE = true → s.stg.STG_COUNT = s.stg.STG_CH.toNat * s.stg.STG_N →
      ∃ l r,
        exec .wtCommit s = .next
          { s with
            WT_L := l, WT_R := r, WT_N := s.stg.STG_N
            stg := { s.stg with STG_ACTIVE := false }
            RESP := 0#64 } ∧
        ∀ a,
          memRead l a = (if a < s.stg.STG_N then memRead s.stg.STG0 a else memRead s.WT_L a) ∧
          memRead r a = (if a < s.stg.STG_N then
              (if 2 ≤ s.stg.STG_CH.toNat then memRead s.stg.STG1 a else memRead s.stg.STG0 a)
            else memRead s.WT_R a))

/-- The whole load of R105, from any state: WT_BEGIN, the samples channel by channel, WT_COMMIT. It leaves exactly the
samples of channel 0 and channel 1 (of channel 0 twice where there is one) in the two tables, no fault, and everything
else but the staging area as it was. -/
def Obligations.LoadPublishesTable : Prop :=
  ∀ (ch : BitVec 4) (n : Nat) (xs : List F64) (s : State), ch ≠ 0#4 → n ≤ Config.params.wtCap →
    xs.length = ch.toNat * n → (∀ x ∈ xs, isFinite x = true) →
    ∃ t, runCommands (loadWavetable ch xs) s = .next t ∧
      t = { s with WT_L := t.WT_L, WT_R := t.WT_R, WT_N := n, stg := t.stg, RESP := 0#64 } ∧
      t.stg.STG_ACTIVE = false ∧
      (∀ k < n, memRead t.WT_L k = xs[k]? ∧
        memRead t.WT_R k = if 2 ≤ ch.toNat then xs[n + k]? else xs[k]?) ∧
      (∀ k, n ≤ k → memRead t.WT_L k = memRead s.WT_L k ∧ memRead t.WT_R k = memRead s.WT_R k)

/-! ### Getters and status -/

/-- R177, R178, R234, R235, R236: each getter answers its value and changes nothing else. -/
def Obligations.GettersAnswer : Prop :=
  PlainWords 0x30#8 (fun _ => .getNoiseOffset) ∧ PlainWords 0x31#8 (fun _ => .getNoiseRate) ∧
  PlainWords 0x32#8 (fun _ => .getShape) ∧ PlainWords 0x33#8 (fun _ => .getShaperSize) ∧
  PlainWords 0x34#8 (fun _ => .getShaperMapValue) ∧
  ∀ s : State,
    exec .getNoiseOffset s = .next (answered s.RMP_RANGE.cur s) ∧
    exec .getNoiseRate s = .next (answered s.RMP_RATE.cur s) ∧
    exec .getShape s = .next (answered s.RMP_SHAPE.cur s) ∧
    exec .getShaperSize s = .next (answered (BitVec.ofNat 64 s.WT_N) s) ∧
    exec .getShaperMapValue s = .next (answered s.SHAPER_MAP s)

/-- R44 and R237: GET_STATUS answers the word whose fields are the state's, and changes nothing else. The premises are the
bounds of the queue and the note stack (R40, R41, `StepKeepsInv`). -/
def Obligations.StatusFields : Prop :=
  PlainWords 0x35#8 (fun _ => .getStatus) ∧
  ∀ s : State, s.MQ.length < 2 ^ 24 → s.NS.length < 2 ^ 8 →
    ∃ w, exec .getStatus s = .next (answered w s) ∧
      w.getLsbD 0 = s.READY ∧
      (w.extractLsb' 1 3).toNat = (match s.env.ENV_STATE with
        | .off => 0 | .attack => 1 | .decay => 2 | .sustain => 3 | .release => 4) ∧
      w.getLsbD 4 = s.env.ENV_AUTOREL ∧
      w.getLsbD 5 = s.stg.STG_ACTIVE ∧
      (w.extractLsb' 6 2).toNat = (match s.par.P_TINT with | .white => 0 | .pink => 1 | .brown => 2) ∧
      (w.extractLsb' 8 8).toNat = s.NS.length ∧
      (w.extractLsb' 16 24).toNat = s.MQ.length ∧
      w.extractLsb' 40 16 = s.FAULTS ∧
      w.extractLsb' 56 7 = 0#7 ∧
      w.getLsbD 63 = s.blk.BLK_ACTIVE

/-- R238 and R45: GET_FAULT_INFO answers the first-fault word in its low 40 bits and changes nothing. -/
def Obligations.FaultInfoAnswer : Prop :=
  PlainWords 0x36#8 (fun _ => .getFaultInfo) ∧
  ∀ s : State, exec .getFaultInfo s = .next (answered (0#24 ++ s.FAULT_INFO) s)

/-! ### Snapshots -/

/-- R253, R254: UPDATE_NOISE_SNAPSHOT captures the four parameter registers in its slot, GET_NOISE_SNAPSHOT answers one
field of one; an index of 8 or more is BAD_ARG. -/
def Obligations.SnapshotSlots : Prop :=
  IndexWords 0x40#8 (fun k _ => .updateNoiseSnapshot k) ∧ FieldWords 0x41#8 .getNoiseSnapshot ∧
  ∀ (idx : BitVec 4) (f : SnapField) (s : State),
    (7 < idx.toNat →
      exec (.updateNoiseSnapshot idx) s = .next (refused (0x4000000#28 ++ idx) 3 s) ∧
      exec (.getNoiseSnapshot f idx) s = .next (refused (0x41#8 ++ 0#18 ++ f.code ++ idx) 3 s)) ∧
    (∀ k : Fin 8, k.val = idx.toNat →
      exec (.updateNoiseSnapshot idx) s = .next
        { s with
          SNAP := s.SNAP.set k { mod := s.par.P_MOD, rate := s.par.P_RATE, range := s.par.P_RANGE, shape := s.par.P_SHAPE }
          RESP := 0#64 } ∧
      exec (.getNoiseSnapshot f idx) s = .next (answered (match f with
        | .mod => s.SNAP[k].mod | .rate => s.SNAP[k].rate | .range => s.SNAP[k].range | .shape => s.SNAP[k].shape) s))

/-- R255: the normalized field, NUMERIC where the quotient is not finite, BAD_ARG for an index of 8 or more. -/
def Obligations.NormalizedSnapshot : Prop :=
  FieldWords 0x42#8 .getNoiseSnapshotNormalized ∧
  ∀ (idx : BitVec 4) (f : SnapField) (s : State),
    (7 < idx.toNat →
      exec (.getNoiseSnapshotNormalized f idx) s = .next (refused (0x42#8 ++ 0#18 ++ f.code ++ idx) 3 s)) ∧
    (∀ k : Fin 8, k.val = idx.toNat →
      let x := match f with
        | .mod => s.SNAP[k].mod | .rate => s.SNAP[k].rate | .range => s.SNAP[k].range | .shape => s.SNAP[k].shape
      let r := fdiv (fsub x (pmin Config.params f)) (fsub (pmax Config.params f) (pmin Config.params f))
      exec (.getNoiseSnapshotNormalized f idx) s = .next (
        if isFinite r then answered (fmin (fmax r f0) f1) s
        else refused (0x42#8 ++ 0#18 ++ f.code ++ idx) 8 s))

/-- R249, R250, R252: the dial clamps to [0, 7], each field is blended between the two bracketing slots and applied, or
recorded as NUMERIC and skipped, in the order mod, rate, range, shape. -/
def Obligations.SetNoiseSnapshotEffect : Prop :=
  PlainWords 0x1A#8 .setNoiseSnapshot ∧
  ∀ (v : F64) (s : State),
    (isFinite v = false → exec (.setNoiseSnapshot v) s = .next (refused 0x1A000000#32 3 s)) ∧
    (isFinite v = true →
      let c := fmin (fmax v f0) f7
      let t := fsub c (ffloor c)
      let blend := fun a b => if feq t f0 then a else fadd a (fmul t (fsub b a))
      ∀ i j : Fin 8, i.val = toInt (ffloor c) → j.val = min (i.val + 1) 7 →
        let u := { s with par := { s.par with P_SNAPSHOT := c } }
        let u := applied (blend s.SNAP[i].mod s.SNAP[j].mod) (fun x u =>
          { u with par := { u.par with P_MOD := x }, RMP_MOD := rampActivate T_MOD u.RMP_MOD.cur x }) u
        let u := applied (blend s.SNAP[i].rate s.SNAP[j].rate) (fun x u =>
          { u with
            par := { u.par with P_RATE := x }
            RMP_RATE := rampActivate (if u.NS = [] then f0 else T_RATE) u.RMP_RATE.cur x }) u
        let u := applied (blend s.SNAP[i].range s.SNAP[j].range) (fun x u =>
          { u with par := { u.par with P_RANGE := x }, RMP_RANGE := rampActivate T_RANGE u.RMP_RANGE.cur x }) u
        let u := applied (blend s.SNAP[i].shape s.SNAP[j].shape) (fun x u =>
          { u with par := { u.par with P_SHAPE := x }, RMP_SHAPE := rampActivate T_SHAPE u.RMP_SHAPE.cur x }) u
        exec (.setNoiseSnapshot v) s = .next { u with RESP := 0#64 })

/-- R251: for every finite control value both slots are at most 7; at 7.0 and anywhere above, both are slot 7 and the
blended value is slot 7's field itself. -/
def Obligations.SnapshotTopEdge : Prop :=
  ∀ v : F64, isFinite v = true →
    dialLower (dialPosition v) ≤ 7 ∧ dialUpper (dialPosition v) ≤ 7 ∧
    (fle f7 v = true → dialPosition v = f7 ∧ dialLower (dialPosition v) = 7 ∧ dialUpper (dialPosition v) = 7 ∧
      dialWeight (dialPosition v) = f0 ∧ ∀ s f, dialBlend s (dialPosition v) f = snapField f (snapSlot s 7))

/-- R257: capturing in slot k and then setting the dial to k writes back exactly the captured values, bit for bit, and arms
each ramp towards them. The premises are that the captured registers are finite, as every accepted setter leaves them. -/
def Obligations.SnapshotRoundTrip : Prop :=
  ∀ (k : BitVec 4) (s : State), k.toNat ≤ 7 → isFinite s.par.P_MOD = true → isFinite s.par.P_RATE = true →
    isFinite s.par.P_RANGE = true → isFinite s.par.P_SHAPE = true →
    ∃ t u, exec (.updateNoiseSnapshot k) s = .next t ∧ exec (.setNoiseSnapshot (toF64 k.toNat)) t = .next u ∧
      u = { s with
        par := { s.par with P_SNAPSHOT := toF64 k.toNat }
        SNAP := t.SNAP
        RMP_MOD := rampActivate T_MOD s.RMP_MOD.cur s.par.P_MOD
        RMP_RATE := rampActivate (if s.NS = [] then f0 else T_RATE) s.RMP_RATE.cur s.par.P_RATE
        RMP_RANGE := rampActivate T_RANGE s.RMP_RANGE.cur s.par.P_RANGE
        RMP_SHAPE := rampActivate T_SHAPE s.RMP_SHAPE.cur s.par.P_SHAPE
        RESP := 0#64 }

/-! ### Ramps -/

/-- R112 and R113: arming a ramp, at once where the duration is not above zero; a tick inside the stage and at or past its
end; when a tick records NUMERIC. -/
def Obligations.RampOperations : Prop :=
  (∀ d start target : F64, rampActivate d start target =
    if flt f0 d then { cur := start, start := start, endVal := target, dur := d, elapsed := 0#64 }
    else { cur := target, start := target, endVal := target, dur := 0#64, elapsed := 0#64 }) ∧
  ∀ (dt : F64) (r : Ramp),
    let x := fadd r.elapsed dt
    let y := fadd r.start (fmul (fsub r.endVal r.start) (fdiv x r.dur))
    rampTick dt r = { r with elapsed := x, cur := if fle r.dur x then r.endVal else y } ∧
    rampTickFaults dt r = (!fle r.dur x && !isFinite y)

/-- R113, the end of a stage: once the elapsed time has reached the duration, every later tick leaves the value exactly at
the end value, and no tick raises a fault. -/
def Obligations.RampSettles : Prop :=
  ∀ (r : Ramp) (dt : F64) (k : Nat), fle r.dur r.elapsed = true → isFinite dt = true → flt f0 dt = true →
    ((rampTick dt)^[k + 1] r).cur = r.endVal ∧ rampTickFaults dt ((rampTick dt)^[k] r) = false

/-- R119, inside a stage: from one tick to the next the value does not move away from the end value, as long as both ticks
lie inside the stage. -/
def Obligations.RampMonotone : Prop :=
  ∀ (r : Ramp) (dt : F64), isFinite r.start = true → isFinite r.endVal = true → isFinite (fsub r.endVal r.start) = true →
    isFinite r.dur = true → isFinite r.elapsed = true → fle f0 r.elapsed = true → isFinite dt = true → flt f0 dt = true →
    flt (fadd (fadd r.elapsed dt) dt) r.dur = true →
    (fle r.start r.endVal = true → fle (rampTick dt r).cur (rampTick dt (rampTick dt r)).cur = true) ∧
    (fle r.endVal r.start = true → fle (rampTick dt (rampTick dt r)).cur (rampTick dt r).cur = true)

/-! ### Envelope -/

/-- R122 to R125 and R131: the envelope's events. -/
def Obligations.EnvelopeEvents : Prop :=
  ∀ (p : ParamRegs) (e : Envelope),
    enterRelease p e =
      (if flt f0 p.P_RELEASE then { e with ENV_ELAPSED := 0#64, ENV_STATE := .release }
        else { e with ENV_ELAPSED := 0#64, ENV_STATE := .off, ENV_OUT := 0#64 }) ∧
    enterSustain p e =
      (if e.ENV_AUTOREL then enterRelease p { e with ENV_AUTOREL := false }
        else { e with ENV_ELAPSED := 0#64, ENV_STATE := .sustain }) ∧
    envNoteOn p e =
      { e with
        ENV_ELAPSED := 0#64
        ENV_AUTOREL := false
        ENV_STATE := if flt f0 p.P_ATTACK then .attack else if flt f0 p.P_DECAY then .decay else .sustain } ∧
    envNoteOff p e = (match e.ENV_STATE with
      | .attack | .decay => { e with ENV_AUTOREL := true }
      | .sustain => enterRelease p e
      | .off | .release => e) ∧
    envStopped = { ENV_STATE := .off, ENV_OUT := 0#64, ENV_ELAPSED := 0#64, ENV_AUTOREL := false }

/-- R126 to R130: the tick of each stage, inside it and at its end. -/
def Obligations.EnvelopeTicks : Prop :=
  ∀ (p : ParamRegs) (dt : F64) (e : Envelope),
    let x := fadd e.ENV_ELAPSED dt
    let level := fmul f1 p.P_SUSTAIN
    envTick p dt e = match e.ENV_STATE with
      | .off => { e with ENV_OUT := 0#64 }
      | .attack =>
        if fle p.P_ATTACK x then
          (if flt f0 p.P_DECAY then { e with ENV_OUT := f1, ENV_ELAPSED := 0#64, ENV_STATE := .decay }
            else enterSustain p { e with ENV_OUT := f1, ENV_ELAPSED := 0#64 })
        else { e with ENV_ELAPSED := x, ENV_OUT := fmul f1 (fdiv x p.P_ATTACK) }
      | .decay =>
        if fle p.P_DECAY x then enterSustain p { e with ENV_ELAPSED := x, ENV_OUT := level }
        else { e with ENV_ELAPSED := x, ENV_OUT := fadd f1 (fmul (fdiv x p.P_DECAY) (fsub level f1)) }
      | .sustain => { e with ENV_OUT := level }
      | .release =>
        if fle p.P_RELEASE x then { e with ENV_OUT := 0#64, ENV_ELAPSED := 0#64, ENV_STATE := .off }
        else { e with ENV_ELAPSED := x, ENV_OUT := fadd level (fmul (fdiv x p.P_RELEASE) (fsub f0 level)) }

/-- R134 for one tick: with the parameters in their domains, a tick keeps the output in [0, 1] and the elapsed time finite
and not negative. -/
def Obligations.EnvelopeBounds : Prop :=
  ∀ (p : ParamRegs) (dt : F64) (e : Envelope), InUnit p.P_SUSTAIN → isFinite p.P_ATTACK = true →
    isFinite p.P_DECAY = true → isFinite p.P_RELEASE = true → isFinite dt = true → flt f0 dt = true →
    isFinite e.ENV_ELAPSED = true → fle f0 e.ENV_ELAPSED = true → InUnit e.ENV_OUT →
    InUnit (envTick p dt e).ENV_OUT ∧ isFinite (envTick p dt e).ENV_ELAPSED = true ∧
    fle f0 (envTick p dt e).ENV_ELAPSED = true

/-! ### Noise, oscillator, shapers, output -/

/-- R155: the advance stores the sum less its floor, a rounded 1.0 as 0.0; where the sum is not finite it records NUMERIC
with the running block's command word and leaves the phase. It keeps the phase in [0, 1), for every frequency and sample
period. -/
def Obligations.PhaseStaysInCycle : Prop :=
  ∀ (freq : F64) (s : State),
    (let sum := fadd s.OSC_PHASE (fmul freq s.DT)
      let wrapped := fsub sum (ffloor sum)
      phaseAdvance freq s =
        if isFinite sum then { s with OSC_PHASE := if feq wrapped f1 then 0#64 else wrapped }
        else recorded s.blk.BLK_CW 8 s) ∧
    (fle f0 s.OSC_PHASE = true → flt s.OSC_PHASE f1 = true →
      fle f0 (phaseAdvance freq s).OSC_PHASE = true ∧ flt (phaseAdvance freq s).OSC_PHASE f1 = true)

/-- R158, one step: at frequency zero of either sign the phase of a quarter cycle stays exactly, no fault is raised, and
where the sine there is 1.0 the oscillator's output is its amplitude. Beside it, R180: under `NOISE_BOUNDED`, at every
frequency, the scrub position of a sample step lies between Range - |Shape| and Range + |Shape| of the ticked ramps, and its
map between theirs, each bound rounded as the position is. That the sine is of magnitude at most 1.0 is the model's reading
of R180 (log entry 10), and that `NOISE_BOUNDED` ranges over the reached noise states the model's choice (log entry 25). -/
def Obligations.ZeroModulation : Prop :=
  (∀ (P : Params) (freq amp : F64) (s : State), freq = 0x0000000000000000#64 ∨ freq = 0x8000000000000000#64 →
    isFinite s.DT = true → s.OSC_PHASE = 0x3FD0000000000000#64 →
    phaseAdvance freq s = s ∧
    (sin64 P 0x3FF921FB54442D18#64 = f1 → isFinite amp = true → oscOutput P amp s.OSC_PHASE = amp)) ∧
  ∀ (P : Params) (s : State), NoiseBounded P → NoiseReached P s.NOISE_ST →
    let p := (sampleScrub P s).1
    let range := (sampleScrub P s).2.RMP_RANGE.cur
    let shape := (sampleScrub P s).2.RMP_SHAPE.cur
    let width := packMag false (magBits shape)
    isFinite range = true → isFinite shape = true →
    fle (fsub range width) p = true ∧ fle p (fadd range width) = true ∧
    fle (shaperMap (fsub range width)) (shaperMap p) = true ∧ fle (shaperMap p) (shaperMap (fadd range width)) = true

/-- The shaper step of R166 to R172 at every scrub position p: the map onto [0, 1], wrapped or clamped; 0.0 with NUMERIC
where it is not finite; the last map value. With no table the output is +0.0, whatever the table memories hold, and the
sample step completes; with one it interpolates between the frame at the position and the next, which in WRAP is the first
frame after the last, and in CLAMP the last one again. -/
def Obligations.EmptyTableSilence : Prop :=
  ∀ (P : Params) (s : State),
    (∀ p : F64,
      let m := fmul (fadd p f1) fHalf
      let u := if isFinite m then
          (match P.edgeMode with | .wrap => fsub m (ffloor m) | .clamp => fmin (fmax m f0) f1)
        else 0#64
      let s' := if isFinite m then s else recorded s.blk.BLK_CW 8 s
      shaperStep P .left p s = { s' with SHP_LAST_L := u } ∧
      shaperStep P .right p s = { s' with SHP_LAST_R := u } ∧
      ∀ (c : Side) (table : Nat → F64), 1 ≤ s.WT_N → s.WT_N ≤ P.wtCap →
        (∀ a < s.WT_N, memRead (match c with | .left => s.WT_L | .right => s.WT_R) a = some (table a)) →
        let x := fmul u (toF64 s.WT_N)
        let i := toInt (ffloor x)
        let fr := fsub x (ffloor x)
        let i0 := match P.edgeMode with | .wrap => i % s.WT_N | .clamp => min i (s.WT_N - 1)
        let i1 := match P.edgeMode with | .wrap => (i0 + 1) % s.WT_N | .clamp => min (i0 + 1) (s.WT_N - 1)
        shaperOutput P c p s =
          .ok (if feq fr f0 then table i0 else fadd (table i0) (fmul fr (fsub (table i1) (table i0))))) ∧
    (s.WT_N = 0 → (∀ c p, shaperOutput P c p s = .ok 0#64) ∧ ∃ t, sampleStep P s = .ok t)

/-- R181: after every sample step the two map values are equal; where the two tables agree in their frames the two shapers
yield the same at every position, and so do the words written to channels 0 and 1; and the tables agree after the commit of
a whole load of one channel, whatever stood past its frames before. -/
def Obligations.MonoChannelsEqual : Prop :=
  (∀ (P : Params) (s t : State), sampleStep P s = .ok t → t.SHP_LAST_L = t.SHP_LAST_R) ∧
  (∀ (P : Params) (s : State), (∀ a < s.WT_N, memRead s.WT_L a = memRead s.WT_R a) →
    (∀ p y, shaperOutput P .left p s = .ok y ↔ shaperOutput P .right p s = .ok y) ∧
    ∀ t, sampleStep P s = .ok t → 2 ≤ s.blk.BLK_C.toNat →
      hostRead t 0#4 s.blk.BLK_S = hostRead t 1#4 s.blk.BLK_S) ∧
  (∀ s t : State, s.stg.STG_ACTIVE = true → s.stg.STG_CH = 1#4 → s.stg.STG_COUNT = s.stg.STG_N →
    exec .wtCommit s = .next t → ∀ a < t.WT_N, memRead t.WT_L a = memRead t.WT_R a)

/-- R190: the left output does not depend on the right table, nor the right output on the left table. -/
def Obligations.StereoSeparation : Prop :=
  ∀ (P : Params) (s t : State) (m : Memory), sampleStep P s = .ok t →
    (∀ t', sampleStep P { s with WT_R := m } = .ok t' → ∀ f, hostRead t' 0#4 f = hostRead t 0#4 f) ∧
    (∀ t', sampleStep P { s with WT_L := m } = .ok t' → ∀ f, hostRead t' 1#4 f = hostRead t 1#4 f)

/-- R186 to R189: the output stage writes the running frame of each selected channel, left, right and silence above, +0.0
in place of a value that is not finite, and no other word of `OUT`; NUMERIC is recorded exactly for a left or right value
that is written and not finite. -/
def Obligations.OutputStage : Prop :=
  ∀ (yL yR : F64) (s : State),
    let e := envTick s.par s.DT s.env
    let left := fmul (fmul yL e.ENV_OUT) s.par.VOL_GAIN
    let right := fmul (fmul yR e.ENV_OUT) s.par.VOL_GAIN
    let bad := (1 ≤ s.blk.BLK_C.toNat ∧ isFinite left = false) ∨ (2 ≤ s.blk.BLK_C.toNat ∧ isFinite right = false)
    ∃ m,
      sampleOutput yL yR s = { (if bad then recorded s.blk.BLK_CW 8 s else s) with env := e, OUT := m } ∧
      ∀ (c : BitVec 4) (f : BitVec 20), memRead m (c.toNat * 2 ^ 20 + f.toNat) =
        if c.toNat < s.blk.BLK_C.toNat ∧ f = s.blk.BLK_S then
          some (if c = 0#4 then (if isFinite left then left else 0#64)
            else if c = 1#4 then (if isFinite right then right else 0#64) else 0#64)
        else memRead s.OUT (c.toNat * 2 ^ 20 + f.toNat)

/-- R196: what a sample step leaves in every unit, in `OUT` and in the fault record, each computed from what the step's
earlier operations produced, and what it leaves alone. The outputs are those of the two shapers at the step's scrub position
(`EmptyTableSilence` says which). NOTE_OVERFLOW is recorded exactly where a due note-on finds the note stack full (R268), and
after it NUMERIC exactly where a ramp, the phase, the position or an output that is written is not finite (R271), both with
the running block's command word. The draw `P.draw s.DRAWS` and its counter, `t.DRAWS = s.DRAWS + 1`, are the model's choice
and no state of the spec (DESIGN CHOICE, log entries 8 and 15). -/
def Obligations.SampleStepSignals : Prop :=
  ∀ (P : Params) (s t : State), sampleStep P s = .ok t →
    let d := midiDrain P s
    let notes := stackEvents P.noteCap (s.MQ.takeWhile fun ev => ev.offset.toNat ≤ s.blk.BLK_S.toNat) s.NS
    let noise := P.noiseRel s.par.P_TINT t.RMP_RATE.cur s.DT s.SR s.NOISE_ST (P.draw s.DRAWS)
    let g := fmul t.RMP_SHAPE.cur (sin64 P (fmul twoPi s.OSC_PHASE))
    let p := fadd (fmul noise.2.bits g) t.RMP_RANGE.cur
    (∃ yL yR, shaperOutput P .left p s = .ok yL ∧ shaperOutput P .right p s = .ok yR ∧
      let left := fmul (fmul yL t.env.ENV_OUT) s.par.VOL_GAIN
      let right := fmul (fmul yR t.env.ENV_OUT) s.par.VOL_GAIN
      let numeric := rampTickFaults s.DT s.RMP_MOD || rampTickFaults s.DT d.RMP_RATE ||
        rampTickFaults s.DT s.RMP_RANGE || rampTickFaults s.DT s.RMP_SHAPE ||
        !isFinite (fadd s.OSC_PHASE (fmul t.RMP_MOD.cur s.DT)) || !isFinite (fmul (fadd p f1) fHalf) ||
        (decide (1 ≤ s.blk.BLK_C.toNat) && !isFinite left) || (decide (2 ≤ s.blk.BLK_C.toNat) && !isFinite right)
      let afterNotes := if notes.2 then recorded s.blk.BLK_CW 5 s else s
      let record := if numeric then recorded s.blk.BLK_CW 8 afterNotes else afterNotes
      t.FAULTS = record.FAULTS ∧ t.FAULT_INFO = record.FAULT_INFO ∧
      ∀ (c : BitVec 4) (f : BitVec 20), memRead t.OUT (c.toNat * 2 ^ 20 + f.toNat) =
        if c.toNat < s.blk.BLK_C.toNat ∧ f = s.blk.BLK_S then
          some (if c = 0#4 then (if isFinite left then left else 0#64)
            else if c = 1#4 then (if isFinite right then right else 0#64) else 0#64)
        else memRead s.OUT (c.toNat * 2 ^ 20 + f.toNat)) ∧
    t.NS = notes.1 ∧
    t.RMP_MOD = rampTick s.DT s.RMP_MOD ∧ t.RMP_RATE = rampTick s.DT d.RMP_RATE ∧
    t.RMP_RANGE = rampTick s.DT s.RMP_RANGE ∧ t.RMP_SHAPE = rampTick s.DT s.RMP_SHAPE ∧
    t.NOISE_ST = noise.1 ∧ t.DRAWS = s.DRAWS + 1 ∧
    t.OSC_PHASE = (phaseAdvance t.RMP_MOD.cur s).OSC_PHASE ∧
    t.SHP_LAST_L = shaperPosition P.edgeMode p ∧ t.SHP_LAST_R = shaperPosition P.edgeMode p ∧
    t.env = envTick s.par s.DT d.env ∧
    (t.MQ = s.MQ.dropWhile fun ev => ev.offset.toNat ≤ s.blk.BLK_S.toNat) ∧
    t = { s with
      RMP_MOD := t.RMP_MOD, RMP_RATE := t.RMP_RATE, RMP_RANGE := t.RMP_RANGE, RMP_SHAPE := t.RMP_SHAPE
      NOISE_ST := t.NOISE_ST, DRAWS := t.DRAWS, OSC_PHASE := t.OSC_PHASE
      SHP_LAST_L := t.SHP_LAST_L, SHP_LAST_R := t.SHP_LAST_R
      env := t.env, NS := t.NS, MQ := t.MQ, OUT := t.OUT, FAULTS := t.FAULTS, FAULT_INFO := t.FAULT_INFO }

/-! ### MIDI delivery -/

/-- R197: the drain delivers the due events at the head of the queue, each once and in queue order, and leaves the rest. -/
def Obligations.DrainDelivers : Prop :=
  ∀ (P : Params) (s : State),
    midiDrain P s =
      { ((s.MQ.takeWhile fun ev => ev.offset.toNat ≤ s.blk.BLK_S.toNat).foldl (fun t ev => midiEvent P ev t) s) with
        MQ := s.MQ.dropWhile fun ev => ev.offset.toNat ≤ s.blk.BLK_S.toNat }

/-- R198 and R200: how an event is classified; a note-on is dropped with NOTE_OVERFLOW where the stack is full; the first
one held starts the envelope and retriggers the rate over 0.01 s; a further one changes the stack alone. -/
def Obligations.NoteOnEffect : Prop :=
  (∀ (P : Params) (ev : MidiEvent) (s : State),
    midiEvent P ev s =
      if ev.status.toNat / 16 = 9 ∧ ev.d2 ≠ 0#8 then noteOnEv P ev.d1 s
      else if ev.status.toNat / 16 = 8 ∨ (ev.status.toNat / 16 = 9 ∧ ev.d2 = 0#8) then noteOffEv ev.d1 s
      else s) ∧
  ∀ (P : Params) (pitch : Byte) (s : State),
    noteOnEv P pitch s =
      if P.noteCap ≤ s.NS.length then recorded s.blk.BLK_CW 5 s
      else if s.NS = [] then
        { s with
          NS := [pitch]
          env := envNoteOn s.par s.env
          RMP_RATE := rampActivate 0x3F847AE147AE147B#64 s.RMP_RATE.cur s.par.P_RATE }
      else { s with NS := s.NS ++ [pitch] }

/-- R201 with R14: a note-off removes the most recent matching pitch; the last one held releases the envelope and ramps the
rate to zero over the release time; a pitch not held changes nothing. -/
def Obligations.NoteOffEffect : Prop :=
  ∀ (pitch : Byte) (s : State),
    (pitch ∉ s.NS → noteOffEv pitch s = s) ∧
    ∀ a b, s.NS = a ++ pitch :: b → pitch ∉ b →
      noteOffEv pitch s =
        if a ++ b = [] then
          { s with
            NS := []
            env := envNoteOff s.par s.env
            RMP_RATE := rampActivate s.par.P_RELEASE s.RMP_RATE.cur 0#64 }
        else { s with NS := a ++ b }

/-- R199: at the end of a block every event still queued has an offset of at least the frame count, and each keeps its
place and message with its offset reduced by the frame count, which never goes below zero. -/
def Obligations.OffsetsCarried : Prop :=
  ∀ s : State, Inv Config.params s → s.blk.BLK_ACTIVE = true → s.blk.BLK_S = s.blk.BLK_N →
    (∀ ev ∈ s.MQ, s.blk.BLK_N.toNat ≤ ev.offset.toNat) ∧
    (blockEnd s).MQ.map (fun ev => (ev.offset.toNat + s.blk.BLK_N.toNat, ev.status, ev.d1, ev.d2)) =
      s.MQ.map (fun ev => (ev.offset.toNat, ev.status, ev.d1, ev.d2))

/-! ### The machine -/

/-- R47: the power-on values that the spec states. `SR` and `DT` have none and nothing is said of them here, nor of the
memories' contents, which the spec leaves unspecified. -/
def Obligations.PowerOnValues : Prop :=
  let s := State.reset
  let P := Config.params
  s.READY = false ∧ s.BLOCK_SIZE = 0#24 ∧ s.FAULTS = 0#16 ∧ s.FAULT_INFO = 0#40 ∧ s.RESP = 0#64 ∧
  s.par =
    { P_VOLUME := P.defVolume.bits, VOL_GAIN := pow64 P f10 (fdiv P.defVolume.bits f20)
      P_ATTACK := P.defAttack.bits, P_DECAY := P.defDecay.bits, P_SUSTAIN := defSustain P, P_RELEASE := P.defRelease.bits
      P_TINT := P.defTint, P_MOD := P.defMod.bits, P_RATE := P.defRate.bits, P_RANGE := P.defRange.bits
      P_SHAPE := P.defShape.bits, P_SNAPSHOT := 0#64 } ∧
  s.RMP_MOD = { cur := P.defMod.bits, start := P.defMod.bits, endVal := P.defMod.bits, dur := 0#64, elapsed := 0#64 } ∧
  s.RMP_RATE = { cur := P.defRate.bits, start := P.defRate.bits, endVal := P.defRate.bits, dur := 0#64, elapsed := 0#64 } ∧
  s.RMP_RANGE = { cur := P.defRange.bits, start := P.defRange.bits, endVal := P.defRange.bits, dur := 0#64, elapsed := 0#64 } ∧
  s.RMP_SHAPE = { cur := P.defShape.bits, start := P.defShape.bits, endVal := P.defShape.bits, dur := 0#64, elapsed := 0#64 } ∧
  s.env = { ENV_STATE := .off, ENV_OUT := 0#64, ENV_ELAPSED := 0#64, ENV_AUTOREL := false } ∧
  s.OSC_PHASE = 0x3FD0000000000000#64 ∧ s.NOISE_ST = P.noiseInit ∧ s.WT_N = 0 ∧
  s.SHP_LAST_L = 0#64 ∧ s.SHP_LAST_R = 0#64 ∧ s.SHAPER_MAP = 0#64 ∧
  s.stg.STG_ACTIVE = false ∧ s.stg.STG_CH = 0#4 ∧ s.stg.STG_N = 0 ∧ s.stg.STG_COUNT = 0 ∧
  s.MQ = [] ∧ s.NS = [] ∧
  (∀ k : Fin 8, s.SNAP[k] =
    { mod := P.defMod.bits, rate := P.defRate.bits, range := P.defRange.bits, shape := P.defShape.bits }) ∧
  s.blk = { BLK_ACTIVE := false, BLK_S := 0#20, BLK_N := 0#20, BLK_C := 0#4, BLK_CW := 0#32 }

/-- The power-on state has both invariants, and a reached noise state. That the power-on gain is finite is the model's reading
of R224 for the open `pow64` and `DEF_VOLUME` of R6 (DESIGN CHOICE, log entry 11), and the reached noise states are the model's
choice for R144 (DESIGN CHOICE, log entry 25). -/
def Obligations.InvariantsAtReset : Prop :=
  Inv Config.params State.reset ∧ SignalInv State.reset ∧ NoiseReached Config.params State.reset.NOISE_ST

/-- Every step from a state with the invariant leads to a state with it: the memories' canonical form, finite `OUT`, live
tables and staged samples, the bounds and order of the queue, the bound of the note stack, the fault record, the
sequencer.
The canonical form is the model's (log entry 9). -/
def Obligations.StepKeepsInv : Prop :=
  ∀ s t : State, Inv Config.params s → step s = .next t → Inv Config.params t

/-- From a state with both invariants a step keeps the signal invariant: the gain finite and not negative, the envelope in
[0, 1], the phase in [0, 1), the map values in [0, 1]. From any state a step keeps the noise state a reached one; that
`NOISE_BOUNDED` ranges over those is the model's choice (log entry 25). -/
def Obligations.StepKeepsSignalInv : Prop :=
  ∀ s t : State, step s = .next t →
    (Inv Config.params s → SignalInv s → SignalInv t) ∧
    (NoiseReached Config.params s.NOISE_ST → NoiseReached Config.params t.NOISE_ST)

/-- R280: from a state with the invariant every step completes; no event of any encoding stops the block. -/
def Obligations.EveryStepCompletesUnderInvariants : Prop :=
  ∀ s : State, Inv Config.params s → ∃ t, step s = .next t

/-- A PROCESS_BLOCK n, c at the head of the AUDIO stream, with the CONTROL port quiet, runs as n + 2 steps: it writes exactly
the words of channels below c and frames below n, each finite, keeps every other word of `OUT`, delivers one response 0,
and keeps the parameters, the tables, the staging area and the snapshots.
The streams, the delivered responses and the count of noise draws are the model's fields (log entries 1, 13, 15). -/
def Obligations.BlockRenders : Prop :=
  ∀ (s : State) (n : BitVec 20) (c : BitVec 4) (rest : List Byte), Inv Config.params s → s.READY = true →
    s.blk.BLK_ACTIVE = false → decode s.AUDIO_IN = .command (.processBlock n c) rest → hasCommand s.CONTROL_IN = false →
    ∃ t, Host.Core.run Sys2Proof.core (n.toNat + 2) s = .next t ∧
      t.blk.BLK_ACTIVE = false ∧ t.blk.BLK_S = n ∧ t.AUDIO_IN = rest ∧ t.AUDIO_RESP = s.AUDIO_RESP ++ [0#64] ∧
      t.CONTROL_RESP = s.CONTROL_RESP ∧ t.DRAWS = s.DRAWS + n.toNat ∧
      t.par = s.par ∧ t.WT_N = s.WT_N ∧ t.WT_L = s.WT_L ∧ t.WT_R = s.WT_R ∧ t.stg = s.stg ∧ t.SNAP = s.SNAP ∧
      t.SHAPER_MAP = (if n = 0#20 then s.SHAPER_MAP else t.SHP_LAST_L) ∧
      ∀ (ch : BitVec 4) (f : BitVec 20),
        (ch.toNat < c.toNat → f.toNat < n.toNat → ∃ v, hostRead t ch f = some v ∧ isFinite v = true) ∧
        (¬ (ch.toNat < c.toNat ∧ f.toNat < n.toNat) → hostRead t ch f = hostRead s ch f)
end

