-- ==== Sys2Proof/Laws/Float.lean ====
section
/-! SUPPORT. The small laws of the binary64 operations: the classes of the two constructed kinds of value, the order,
rounding, and what the rules say of the gain (R224) and the sine (R154, R180). -/

namespace Sys2Proof.Machine

/-- A value finite by construction is finite. -/
theorem isFinite_bits (x : FinF64) : isFinite x.bits = true := by
  obtain ⟨sign, ⟨e, he⟩, fr⟩ := x
  have hf := fr.isLt
  have h : FinF64.bits ⟨sign, ⟨e, he⟩, fr⟩ =
      BitVec.ofNat 64 ((if sign then 2 ^ 63 else 0) + (e * 2 ^ 52 + fr.toNat)) := by
    apply BitVec.eq_of_toNat_eq
    simp only [FinF64.bits, BitVec.toNat_append, BitVec.toNat_ofNat, BitVec.toNat_ofBool]
    rw [← Nat.shiftLeft_add_eq_or_of_lt hf,
      ← Nat.shiftLeft_add_eq_or_of_lt (by omega : e % 2 ^ 11 < 2 ^ 11),
      Nat.shiftLeft_eq, Nat.shiftLeft_eq]
    cases sign <;> simp <;> omega
  rw [h]
  simp only [isFinite, magBits, infMag, BitVec.toNat_ofNat, decide_eq_true_eq]
  cases sign <;> simp <;> omega

/-- The order of values that are no NaN is the order of their keys. -/
theorem fle_iff {a b : F64} : fle a b = true ↔ isNaN a = false ∧ isNaN b = false ∧ orderKey a ≤ orderKey b := by
  simp [fle, and_assoc]

theorem flt_iff {a b : F64} : flt a b = true ↔ isNaN a = false ∧ isNaN b = false ∧ orderKey a < orderKey b := by
  simp [flt, and_assoc]

theorem feq_iff {a b : F64} : feq a b = true ↔ isNaN a = false ∧ isNaN b = false ∧ orderKey a = orderKey b := by
  simp [feq, and_assoc]

theorem fle_trans {a b c : F64} (h : fle a b = true) (k : fle b c = true) : fle a c = true := by
  rw [fle_iff] at *
  exact ⟨h.1, k.2.1, h.2.2.trans k.2.2⟩

theorem fle_of_flt {a b : F64} (h : flt a b = true) : fle a b = true := by
  rw [fle_iff]; rw [flt_iff] at h
  exact ⟨h.1, h.2.1, h.2.2.le⟩

/-- Of two values that are no NaN, one is below the other or not above it. -/
theorem flt_or_fle {a b : F64} (ha : isNaN a = false) (hb : isNaN b = false) : flt a b = true ∨ fle b a = true := by
  rw [flt_iff, fle_iff]
  rcases lt_or_ge (orderKey a) (orderKey b) with h | h
  · exact .inl ⟨ha, hb, h⟩
  · exact .inr ⟨hb, ha, h⟩

/-- A finite value is no NaN. -/
theorem isNaN_of_isFinite {a : F64} (h : isFinite a = true) : isNaN a = false := by
  have h1 : magBits a < infMag := of_decide_eq_true h
  exact decide_eq_false (Nat.lt_asymm h1)

/-- `min` is one of its operands. -/
theorem fmin_cases (a b : F64) : fmin a b = a ∨ fmin a b = b := by
  unfold fmin
  split
  · exact .inl rfl
  · split
    · exact .inr rfl
    · split
      · exact .inl rfl
      · split
        · exact .inl rfl
        · exact .inr rfl

/-- `max` is one of its operands. -/
theorem fmax_cases (a b : F64) : fmax a b = a ∨ fmax a b = b := by
  unfold fmax
  split
  · exact .inl rfl
  · split
    · exact .inr rfl
    · split
      · exact .inl rfl
      · split
        · exact .inl rfl
        · exact .inr rfl

/-- The clamp of a value that is no NaN to bounds in their order lies between them. -/
theorem fclamp_window {x lo hi : F64} (hx : isNaN x = false) (hl : isNaN lo = false) (hh : isNaN hi = false)
    (h : fle lo hi = true) : fle lo (fclamp x lo hi) = true ∧ fle (fclamp x lo hi) hi = true := by
  have max : isNaN (fmax x lo) = false ∧ orderKey lo ≤ orderKey (fmax x lo) := by
    unfold fmax
    simp only [flt, hx, hl, Bool.not_false, Bool.true_and, decide_eq_true_eq]
    split
    · exact ⟨hx, by omega⟩
    · split
      · exact ⟨hl, le_refl _⟩
      · split
        · exact ⟨hx, by omega⟩
        · split
          · exact ⟨hx, by omega⟩
          · exact ⟨hl, le_refl _⟩
  obtain ⟨hy, hm⟩ := max
  have k := (fle_iff.mp h).2.2
  unfold fclamp
  generalize fmax x lo = y at hy hm
  unfold fmin
  simp only [flt, hy, hh, Bool.not_false, Bool.true_and, decide_eq_true_eq, fle_iff, hl, true_and]
  split
  · exact ⟨⟨hy, hm⟩, hy, by omega⟩
  · split
    · exact ⟨⟨hh, k⟩, hh, le_refl _⟩
    · split
      · exact ⟨⟨hy, hm⟩, hy, by omega⟩
      · split
        · exact ⟨⟨hy, hm⟩, hy, by omega⟩
        · exact ⟨⟨hh, k⟩, hh, le_refl _⟩

/-! ### A pattern from its sign and its magnitude bits -/

/-- The magnitude bits of a packed pattern. -/
theorem magBits_packMag {b : Bool} {m : Nat} (h : m < 2 ^ 63) : magBits (packMag b m) = m := by
  cases b <;> simp only [magBits, packMag, Bool.false_eq_true, if_false, if_true, BitVec.toNat_ofNat] <;> omega

/-- The sign of a packed pattern. -/
theorem msb_packMag {b : Bool} {m : Nat} (h : m < 2 ^ 63) : (packMag b m).msb = b := by
  cases b
  · rw [BitVec.msb_eq_false_iff_two_mul_lt]
    simp only [packMag, Bool.false_eq_true, if_false, BitVec.toNat_ofNat]
    omega
  · rw [BitVec.msb_eq_true_iff_two_mul_ge]
    simp only [packMag, if_true, BitVec.toNat_ofNat]
    omega

/-- A pattern is packed from its own sign and magnitude bits. -/
theorem packMag_self (x : F64) : packMag x.msb (magBits x) = x := by
  have h := x.isLt
  apply BitVec.eq_of_toNat_eq
  simp only [packMag, magBits, BitVec.toNat_ofNat]
  by_cases hm : x.msb = true
  · have := BitVec.msb_eq_true_iff_two_mul_ge.mp hm
    simp only [hm, if_true]; omega
  · have := BitVec.msb_eq_false_iff_two_mul_lt.mp (by simpa using hm)
    simp only [hm]; simp; omega

/-- The sign apart, a pattern is its magnitude bits. -/
theorem magBits_lt (x : F64) : magBits x < 2 ^ 63 := Nat.mod_lt _ (by decide)

/-- A packed magnitude of at most an infinity's is no NaN. -/
theorem isNaN_packMag {b : Bool} {m : Nat} (h : m ≤ infMag) : isNaN (packMag b m) = false := by
  have hm : m < 2 ^ 63 := Nat.lt_of_le_of_lt h (by decide)
  simpa [isNaN, magBits_packMag hm] using h

/-- The order key of a packed pattern is its signed magnitude. -/
theorem orderKey_packMag {b : Bool} {m : Nat} (h : m ≤ infMag) : orderKey (packMag b m) = if b then -(m : Int) else m := by
  have hm : m < 2 ^ 63 := Nat.lt_of_le_of_lt h (by decide)
  simp only [orderKey, magBits_packMag hm, msb_packMag hm]

/-! ### Rounding and order -/

/-- Larger magnitude bits hold no smaller value. -/
theorem magUnits_mono {m n : Nat} (h : m ≤ n) : magUnits m ≤ magUnits n := by
  have hE : m / 2 ^ 52 ≤ n / 2 ^ 52 := Nat.div_le_div_right h
  simp only [magUnits]
  rcases Nat.lt_or_ge (m / 2 ^ 52 - 1) (n / 2 ^ 52 - 1) with hlt | hge
  · calc (m - (m / 2 ^ 52 - 1) * 2 ^ 52) * 2 ^ (m / 2 ^ 52 - 1)
        ≤ 2 ^ 53 * 2 ^ (m / 2 ^ 52 - 1) := Nat.mul_le_mul_right _ (by omega)
      _ = 2 ^ 52 * 2 ^ (m / 2 ^ 52 - 1 + 1) := by rw [pow_succ]; ring
      _ ≤ 2 ^ 52 * 2 ^ (n / 2 ^ 52 - 1) := Nat.mul_le_mul_left _ (Nat.pow_le_pow_right (by decide) hlt)
      _ ≤ _ := Nat.mul_le_mul_right _ (by omega)
  · have : m / 2 ^ 52 - 1 = n / 2 ^ 52 - 1 := by omega
    rw [this]
    exact Nat.mul_le_mul_right _ (by omega)

/-- log2 keeps the order. -/
theorem log2_mono {m n : Nat} (h : m ≤ n) : m.log2 ≤ n.log2 := by
  rcases Nat.eq_zero_or_pos m with rfl | hm
  · simp
  · rw [Nat.le_log2 (by omega)]
    exact (Nat.log2_self_le (by omega)).trans h

/-- A whole number is its own rounding. -/
theorem nearestEven_mul {b q : Nat} (hq : 0 < q) : nearestEven (b * q) q = b := by
  simp [nearestEven, Nat.mul_div_cancel _ hq, hq]

/-- Rounding a ratio to a whole number keeps the order. -/
theorem nearestEven_mono {p p' q : Nat} (h : p ≤ p') : nearestEven p q ≤ nearestEven p' q := by
  have hd : p / q ≤ p' / q := Nat.div_le_div_right h
  have h1 := Nat.div_add_mod p q
  have h2 := Nat.div_add_mod p' q
  rcases Nat.eq_or_lt_of_le hd with he | hl
  · rw [he] at h1
    simp only [nearestEven, he]
    split <;> split <;> (try split) <;> (try split) <;> omega
  · simp only [nearestEven]
    split <;> split <;> (try split) <;> (try split) <;> omega

/-- A ratio of at most b rounds to at most b. -/
theorem nearestEven_le {p q b : Nat} (hq : 0 < q) (h : p ≤ b * q) : nearestEven p q ≤ b :=
  (nearestEven_mono h).trans (nearestEven_mul hq).le

/-- A ratio of at least b rounds to at least b. -/
theorem le_nearestEven {p q b : Nat} (hq : 0 < q) (h : b * q ≤ p) : b ≤ nearestEven p q :=
  (nearestEven_mul hq).ge.trans (nearestEven_mono h)

/-- Rounding a magnitude keeps the order. -/
theorem roundMag_mono {p p' q : Nat} (hq : 0 < q) (h : p ≤ p') : roundMag p q ≤ roundMag p' q := by
  have hd : p / q ≤ p' / q := Nat.div_le_div_right h
  have hs : (p / q).log2 ≤ (p' / q).log2 := log2_mono hd
  simp only [roundMag]
  refine min_le_min_left _ ?_
  generalize hS : (p / q).log2 - 52 = S
  generalize hS' : (p' / q).log2 - 52 = S'
  rcases Nat.eq_or_lt_of_le (by omega : S ≤ S') with he | hl
  · subst he
    exact Nat.add_le_add_left (nearestEven_mono h) _
  · have up : nearestEven p (q * 2 ^ S) ≤ 2 ^ 53 := by
      refine nearestEven_le (by positivity) ?_
      have h1 : p / q < 2 ^ ((p / q).log2 + 1) := Nat.lt_log2_self
      have h2 : (2:Nat) ^ ((p / q).log2 + 1) ≤ 2 ^ (53 + S) := Nat.pow_le_pow_right (by decide) (by omega)
      have h3 : p < 2 ^ (53 + S) * q := (Nat.div_lt_iff_lt_mul hq).mp (h1.trans_le h2)
      calc p ≤ 2 ^ (53 + S) * q := h3.le
        _ = 2 ^ 53 * (q * 2 ^ S) := by rw [pow_add]; ring
    have down : 2 ^ 52 ≤ nearestEven p' (q * 2 ^ S') := by
      refine le_nearestEven (by positivity) ?_
      have h0 : p' / q ≠ 0 := by
        intro h0; rw [h0] at hS'; simp at hS'; omega
      have h1 : 2 ^ (p' / q).log2 ≤ p' / q := Nat.log2_self_le h0
      have h2 : (p' / q).log2 = 52 + S' := by omega
      rw [h2] at h1
      calc 2 ^ 52 * (q * 2 ^ S') = 2 ^ (52 + S') * q := by rw [pow_add]; ring
        _ ≤ p' := (Nat.le_div_iff_mul_le hq).mp h1
    have : (S + 1) * 2 ^ 52 ≤ S' * 2 ^ 52 := Nat.mul_le_mul_right _ hl
    omega

/-- A rounded magnitude is at most an infinity. -/
theorem roundMag_le (p q : Nat) : roundMag p q ≤ infMag := min_le_left _ _

/-- A finite magnitude is its own rounding. -/
theorem roundMag_magUnits {m q : Nat} (hq : 0 < q) (h : m < infMag) : roundMag (magUnits m * q) q = m := by
  have hb : infMag = 2047 * 2 ^ 52 := by decide
  have key : (magUnits m).log2 - 52 = m / 2 ^ 52 - 1 := by
    simp only [magUnits]
    rcases Nat.lt_or_ge (m / 2 ^ 52) 1 with h0 | h1
    · have : m / 2 ^ 52 - 1 = 0 := by omega
      rw [this]
      have hm : m < 2 ^ 52 := by omega
      simp only [Nat.zero_mul, Nat.sub_zero, pow_zero, Nat.mul_one]
      by_cases hz : m = 0
      · subst hz; decide
      · have := (Nat.log2_lt hz).mpr hm
        omega
    · generalize hE : m / 2 ^ 52 - 1 = E
      have hx : m - E * 2 ^ 52 ≠ 0 := by omega
      have e : (m - E * 2 ^ 52) * 2 ^ E ≠ 0 := Nat.mul_ne_zero hx (by positivity)
      have l1 : 52 + E ≤ ((m - E * 2 ^ 52) * 2 ^ E).log2 := by
        rw [Nat.le_log2 e, pow_add]
        exact Nat.mul_le_mul_right _ (by omega)
      have l2 : ((m - E * 2 ^ 52) * 2 ^ E).log2 < 53 + E := by
        rw [Nat.log2_lt e, pow_add]
        exact Nat.mul_lt_mul_of_pos_right (by omega) (by positivity)
      omega
  simp only [roundMag, Nat.mul_div_cancel _ hq, key]
  have e : nearestEven (magUnits m * q) (q * 2 ^ (m / 2 ^ 52 - 1)) = m - (m / 2 ^ 52 - 1) * 2 ^ 52 := by
    have : magUnits m * q = (m - (m / 2 ^ 52 - 1) * 2 ^ 52) * (q * 2 ^ (m / 2 ^ 52 - 1)) := by
      simp only [magUnits]; ring
    rw [this]
    exact nearestEven_mul (by positivity)
  rw [e]
  omega


/-- The signed magnitude that a whole number of units rounds to. -/
theorem orderKey_roundUnits (b : Bool) (z : Int) :
    orderKey (roundUnits b z) = if z < 0 then -(roundMag z.natAbs 1 : Int) else roundMag z.natAbs 1 := by
  unfold roundUnits
  split
  · rename_i h
    subst h
    rw [orderKey_packMag (by decide)]
    have : roundMag 0 1 = 0 := by decide
    cases b <;> simp [this]
  · rw [orderKey_packMag (roundMag_le _ _)]
    by_cases h : z < 0 <;> simp [h]

/-- A rounded number of units is no NaN. -/
theorem isNaN_roundUnits (b : Bool) (z : Int) : isNaN (roundUnits b z) = false := by
  unfold roundUnits
  split
  · exact isNaN_packMag (by decide)
  · exact isNaN_packMag (roundMag_le _ _)

/-- Rounding keeps the order. -/
theorem roundUnits_mono (b b' : Bool) {z z' : Int} (h : z ≤ z') : fle (roundUnits b z) (roundUnits b' z') = true := by
  refine fle_iff.mpr ⟨isNaN_roundUnits _ _, isNaN_roundUnits _ _, ?_⟩
  rw [orderKey_roundUnits, orderKey_roundUnits]
  split <;> split
  · have := roundMag_mono (by decide : 0 < 1) (by omega : z'.natAbs ≤ z.natAbs)
    omega
  · omega
  · omega
  · have := roundMag_mono (by decide : 0 < 1) (by omega : z.natAbs ≤ z'.natAbs)
    omega

/-- The sum of finite values is their exact sum, rounded. -/
theorem fadd_finite {a b : F64} (ha : isFinite a = true) (hb : isFinite b = true) :
    fadd a b = roundUnits (a.msb && b.msb) (units a + units b) := by
  simp [fadd, ha, hb]

/-- The order of patterns is the order of their values. -/
theorem units_mono {a b : F64} (h : orderKey a ≤ orderKey b) : units a ≤ units b := by
  simp only [orderKey, units] at h ⊢
  split at h <;> split at h <;> rename_i h1 h2 <;> simp only [h1, h2, if_true, if_false, Bool.false_eq_true]
  · have := magUnits_mono (by omega : magBits b ≤ magBits a); omega
  · omega
  · have hz : magBits a = 0 ∧ magBits b = 0 := by omega
    rw [hz.1, hz.2]; simp [magUnits]
  · have := magUnits_mono (by omega : magBits a ≤ magBits b); omega

/-- A value that is no NaN is finite or an infinity. -/
theorem finite_or_inf {a : F64} (h : isNaN a = false) : isFinite a = true ∨ magBits a = infMag := by
  have h : ¬ infMag < magBits a := of_decide_eq_false h
  by_cases h1 : magBits a < infMag
  · exact .inl (decide_eq_true h1)
  · exact .inr (by omega)

/-- The order keys of values that are no NaN lie between those of the infinities. -/
theorem orderKey_bounds {a : F64} (h : isNaN a = false) : -(infMag : Int) ≤ orderKey a ∧ orderKey a ≤ infMag := by
  have h : ¬ infMag < magBits a := of_decide_eq_false h
  simp only [orderKey]
  split <;> omega

/-- A sum with a finite value: rounded, or the infinity that was added to. -/
theorem fadd_inf {a b : F64} (h : magBits a = infMag) (hb : isFinite b = true) : fadd a b = a := by
  have h1 : isFinite a = false := by simp [isFinite, h]
  have h2 : isNaN a = false := by simp [isNaN, h]
  simp [fadd, h1, h2, hb, isNaN_of_isFinite hb]

/-- Adding one finite value keeps the order. -/
theorem fadd_mono_left {a a' b : F64} (hb : isFinite b = true) (h : fle a a' = true) :
    fle (fadd a b) (fadd a' b) = true := by
  obtain ⟨n, n', k⟩ := fle_iff.mp h
  have bnd {x : F64} (hx : isNaN x = false) : isNaN (fadd x b) = false := by
    rcases finite_or_inf hx with f | f
    · rw [fadd_finite f hb]; exact isNaN_roundUnits _ _
    · rwa [fadd_inf f hb]
  rcases finite_or_inf n with f | f <;> rcases finite_or_inf n' with f' | f'
  · rw [fadd_finite f hb, fadd_finite f' hb]
    exact roundUnits_mono _ _ (by have := units_mono k; omega)
  all_goals
    refine fle_iff.mpr ⟨bnd n, bnd n', ?_⟩
  · have h1 := (orderKey_bounds (bnd n)).2
    have f0 : magBits a < infMag := of_decide_eq_true f
    rw [fadd_inf f' hb]
    simp only [orderKey, f'] at k ⊢ h1
    split at k <;> split at k <;> simp_all <;> omega
  · have h1 := (orderKey_bounds (bnd n')).1
    have f0 : magBits a' < infMag := of_decide_eq_true f'
    rw [fadd_inf f hb]
    simp only [orderKey, f] at k ⊢ h1
    split at k <;> split at k <;> simp_all <;> omega
  · rwa [fadd_inf f hb, fadd_inf f' hb]

/-- Multiplying by one finite value above zero keeps the order. -/
theorem fmul_mono_left {a a' b : F64} (hb : isFinite b = true) (hs : b.msb = false) (h0 : magBits b ≠ 0)
    (h : fle a a' = true) : fle (fmul a b) (fmul a' b) = true := by
  obtain ⟨n, n', k⟩ := fle_iff.mp h
  have key {x : F64} (hx : isNaN x = false) : ∃ m, m ≤ infMag ∧ fmul x b = packMag x.msb m ∧
      (isFinite x = true → m = roundMag (magUnits (magBits x) * magUnits (magBits b)) unitScale) ∧
      (isFinite x = false → m = infMag) := by
    rcases finite_or_inf hx with f | f
    · exact ⟨_, roundMag_le _ _, by simp [fmul, f, hb, hs], fun _ => rfl, by simp [f]⟩
    · have h1 : isFinite x = false := by simp [isFinite, f]
      have h2 : magBits x ≠ 0 := by rw [f]; decide
      exact ⟨infMag, Nat.le_refl _, by simp [fmul, h1, hx, hs, isNaN_of_isFinite hb, h2, h0], by simp [h1], fun _ => rfl⟩
  have mono {x y : F64} (hx : isNaN x = false) (hy : isNaN y = false) (hm : magBits x ≤ magBits y) {p q : Nat}
      (hp : (isFinite x = true → p = roundMag (magUnits (magBits x) * magUnits (magBits b)) unitScale) ∧
      (isFinite x = false → p = infMag)) (hq : (isFinite y = true → q = roundMag (magUnits (magBits y) * magUnits (magBits b)) unitScale) ∧
      (isFinite y = false → q = infMag)) : p ≤ q := by
    cases fx : isFinite x <;> cases fy : isFinite y
    · rw [hp.2 fx, hq.2 fy]
    · have : magBits y < infMag := of_decide_eq_true fy
      have : ¬ magBits x < infMag := of_decide_eq_false fx
      omega
    · rw [hp.1 fx, hq.2 fy]; exact roundMag_le _ _
    · rw [hp.1 fx, hq.1 fy]
      exact roundMag_mono (by unfold unitScale; positivity) (Nat.mul_le_mul_right _ (magUnits_mono hm))
  have zero {x : F64} (hm : magBits x = 0) {p : Nat}
      (hp : isFinite x = true → p = roundMag (magUnits (magBits x) * magUnits (magBits b)) unitScale) : p = 0 := by
    have f : isFinite x = true := by simp only [isFinite, hm]; decide
    rw [hp f, hm]
    simp [magUnits, roundMag, nearestEven]
  obtain ⟨p, hp, e, r⟩ := key n
  obtain ⟨p', hp', e', r'⟩ := key n'
  rw [e, e']
  refine fle_iff.mpr ⟨isNaN_packMag hp, isNaN_packMag hp', ?_⟩
  rw [orderKey_packMag hp, orderKey_packMag hp']
  simp only [orderKey] at k
  cases m : a.msb <;> cases m' : a'.msb <;> simp only [m, m', if_true, if_false, Bool.false_eq_true] at k ⊢
  · have := mono n n' (by omega) r r'; omega
  · rw [zero (by omega) r.1, zero (by omega) r'.1]; simp
  · omega
  · have := mono n' n (by omega) r' r; omega

/-- A product with a factor of magnitude at most 1.0 is no larger than the other factor. -/
theorem fmul_le_right {a b : F64} (ha : magBits a ≤ magBits f1) (hb : isFinite b = true) :
    magBits (fmul a b) ≤ magBits b := by
  have hb' : magBits b < infMag := of_decide_eq_true hb
  have h1 : magBits f1 < infMag := by decide
  have hf : isFinite a = true := decide_eq_true (ha.trans_lt h1)
  have hu : magUnits (magBits f1) = unitScale := by decide +kernel
  have h : roundMag (magUnits (magBits a) * magUnits (magBits b)) unitScale ≤ magBits b := by
    have hq : 0 < unitScale := by unfold unitScale; positivity
    calc _ ≤ roundMag (magUnits (magBits b) * unitScale) unitScale := by
          refine roundMag_mono hq ?_
          rw [Nat.mul_comm]
          exact Nat.mul_le_mul_left _ (hu ▸ magUnits_mono ha)
      _ = magBits b := roundMag_magUnits hq hb'
  simp only [fmul, hf, hb, Bool.and_self, if_true]
  rwa [magBits_packMag ((roundMag_le _ _).trans_lt (by decide))]

/-- A value between -1.0 and 1.0 is of magnitude at most 1.0. -/
theorem magBits_le_of_window {x : F64} (hl : fle (fneg f1) x = true) (hh : fle x f1 = true) :
    magBits x ≤ magBits f1 := by
  have l := (fle_iff.mp hl).2.2
  have u := (fle_iff.mp hh).2.2
  have k : orderKey (fneg f1) = -(magBits f1 : Int) ∧ orderKey f1 = magBits f1 := by decide
  rw [k.1] at l
  rw [k.2] at u
  simp only [orderKey] at l u
  split at l <;> simp_all

/-- The product of finite values does not depend on their order. -/
theorem fmul_comm_finite {a b : F64} (ha : isFinite a = true) (hb : isFinite b = true) : fmul a b = fmul b a := by
  simp only [fmul, ha, hb, Bool.and_self, if_true]
  rw [Nat.mul_comm]
  congr 1
  cases a.msb <;> cases b.msb <;> rfl

/-! ### The gain (R224) -/

/-- A value without a sign that is no NaN is at least zero. -/
theorem zero_fle_packMag {m : Nat} (h : m ≤ infMag) : fle f0 (packMag false m) = true := by
  have hm : m < 2 ^ 63 := Nat.lt_of_le_of_lt h (by decide)
  refine fle_iff.mpr ⟨by decide +kernel, ?_, ?_⟩
  · simpa [isNaN, magBits_packMag hm] using h
  · have h0 : orderKey f0 = 0 := by decide +kernel
    rw [h0]
    simp [orderKey, msb_packMag hm]

/-- The silent volume is a finite volume below zero. -/
theorem silentVolume_spec (P : Params) : isFinite (silentVolume P) = true ∧ flt (silentVolume P) f0 = true := by
  unfold silentVolume
  split
  · rename_i h
    rw [fle_iff] at h
    have h20 : orderKey (fneg f20) < orderKey f0 := by decide +kernel
    exact ⟨isFinite_bits _, flt_iff.mpr ⟨h.1, by decide +kernel, lt_of_le_of_lt h.2.2 h20⟩⟩
  · constructor <;> decide +kernel

/-- At or below the silent volume's power the gain is 0.0. -/
theorem pow64_silent {P : Params} {y : F64} (h : fle y (fdiv (silentVolume P) f20) = true) : pow64 P f10 y = f0 := by
  simp [pow64, h]

/-- What a power of 10.0 can be: 0.0, or the raw value without its sign. -/
theorem pow64_ten_cases (P : Params) (y : F64) :
    pow64 P f10 y = f0 ∨ pow64 P f10 y = packMag false (magBits (P.powRaw f10 y)) := by
  simp only [pow64, if_true]
  split
  · exact .inl rfl
  · split
    · exact .inl rfl
    · exact .inr rfl

/-- A gain that is finite is not negative. -/
theorem pow64_ten_nonneg {P : Params} {y : F64} (h : isFinite (pow64 P f10 y) = true) :
    fle f0 (pow64 P f10 y) = true := by
  rcases pow64_ten_cases P y with hp | hp <;> rw [hp] at h ⊢
  · decide +kernel
  · have hm : magBits (packMag false (magBits (P.powRaw f10 y))) < infMag := of_decide_eq_true h
    rw [magBits_packMag (magBits_lt _)] at hm
    exact zero_fle_packMag hm.le

/-- The gain of the power-on volume is finite. -/
theorem isFinite_powerOn_gain (P : Params) : isFinite (pow64 P f10 (fdiv P.defVolume.bits f20)) = true := by
  simp only [pow64, if_true, true_and]
  split
  · decide +kernel
  · split
    · decide +kernel
    · rename_i h
      have hr : isFinite (P.powRaw f10 (fdiv P.defVolume.bits f20)) = true := by simpa using h
      have hf : magBits (P.powRaw f10 (fdiv P.defVolume.bits f20)) < infMag := of_decide_eq_true hr
      exact decide_eq_true (by rwa [magBits_packMag (magBits_lt _)])

/-! ### The sine (R154, R180) -/

/-- The sine is of magnitude at most 1.0 (R180). -/
theorem sin64_bounded (P : Params) (x : F64) : magBits (sin64 P x) ≤ magBits f1 := by
  have h1 : magBits f1 < 2 ^ 63 := by decide
  unfold sin64
  rw [magBits_packMag (by omega)]
  exact min_le_right _ _

/-- The sine is finite (R154). -/
theorem isFinite_sin64 (P : Params) (x : F64) : isFinite (sin64 P x) = true :=
  decide_eq_true ((sin64_bounded P x).trans_lt (by decide))

/-- A raw sine within its bounds is the sine. -/
theorem sin64_raw {P : Params} {x : F64} (h : magBits (P.sinRaw x).bits ≤ magBits f1) : sin64 P x = (P.sinRaw x).bits := by
  simp only [sin64, min_eq_left h, packMag_self]

end Sys2Proof.Machine
end

