-- ==== Sys2Proof/Laws/Memory.lean ====
section
/-! SUPPORT. The laws of the memories: a read after a write, the canonical form under every memory operation, and one lemma
for each operation that says when it answers and what. -/

namespace Sys2Proof.Machine

/-! ### One word -/

/-- A write is read back at its address, and changes no other address. -/
theorem memRead_memWrite (m : Memory) (a b : Nat) (v : F64) :
    memRead (memWrite m a v) b = if b = a then some v else memRead m b := by
  induction m with
  | nil => simp [memWrite, memRead]
  | cons x rest ih =>
    obtain ⟨c, w⟩ := x
    simp only [memWrite]
    split
    · simp only [memRead]
    · split
      · rename_i h; subst h; simp only [memRead]; split <;> rfl
      · simp only [memRead, ih]
        by_cases hc : b = c <;> by_cases ha : b = a <;> simp_all

/-- A listed word is one of the list's pairs. -/
theorem mem_of_memRead {m : Memory} {a : Nat} {v : F64} (h : memRead m a = some v) : (a, v) ∈ m := by
  induction m with
  | nil => simp [memRead] at h
  | cons x rest ih =>
    obtain ⟨c, w⟩ := x
    simp only [memRead] at h
    split at h
    · simp_all
    · exact List.mem_cons_of_mem _ (ih h)

/-- The pairs after a write are those before it and the one written. -/
theorem mem_memWrite {m : Memory} {a : Nat} {v : F64} {c : Nat × F64} (h : c ∈ memWrite m a v) :
    c = (a, v) ∨ c ∈ m := by
  induction m with
  | nil => simpa [memWrite] using h
  | cons x rest ih =>
    obtain ⟨b, w⟩ := x
    simp only [memWrite] at h
    split at h
    · simpa using h
    · split at h
      · simp only [List.mem_cons] at h ⊢; tauto
      · simp only [List.mem_cons] at h ⊢
        rcases h with h | h
        · exact .inr (.inl h)
        · rcases ih h with h | h <;> simp [h]

/-! ### The canonical form -/

/-- The canonical form, pair by pair. -/
theorem wf_cons (x : Nat × F64) (rest : Memory) :
    Memory.wf (x :: rest) = true ↔ (∀ y ∈ rest.head?, x.1 < y.1) ∧ Memory.wf rest = true := by
  cases rest <;> simp [Memory.wf]

/-- The canonical form is a strictly rising order of the addresses. -/
theorem wf_iff_pairwise (m : Memory) : Memory.wf m = true ↔ m.Pairwise fun x y => x.1 < y.1 := by
  induction m with
  | nil => simp [Memory.wf]
  | cons x rest ih =>
    rw [wf_cons, ih, List.pairwise_cons]
    refine and_congr_left fun hr => ⟨fun h => ?_, fun h y hy => h y (List.mem_of_mem_head? hy)⟩
    cases rest with
    | nil => simp
    | cons y ys =>
      rw [List.pairwise_cons] at hr
      intro z hz
      have hxy : x.1 < y.1 := h y rfl
      rcases List.mem_cons.mp hz with rfl | hz
      · exact hxy
      · exact Nat.lt_trans hxy (hr.1 z hz)

/-- `memWrite` keeps the canonical form. -/
theorem memWrite_wf {m : Memory} (h : Memory.wf m = true) (a : Nat) (v : F64) : Memory.wf (memWrite m a v) = true := by
  rw [wf_iff_pairwise] at h ⊢
  induction m with
  | nil => simp [memWrite]
  | cons x rest ih =>
    obtain ⟨b, w⟩ := x
    rw [List.pairwise_cons] at h
    simp only [memWrite]
    split
    · rename_i hab
      rw [List.pairwise_cons, List.pairwise_cons]
      refine ⟨fun y hy => ?_, h⟩
      rcases List.mem_cons.mp hy with rfl | hy
      · exact hab
      · exact Nat.lt_trans hab (h.1 y hy)
    · split
      · rename_i hab; subst hab
        exact List.pairwise_cons.mpr h
      · rename_i h1 h2
        rw [List.pairwise_cons]
        refine ⟨fun y hy => ?_, ih h.2⟩
        rcases mem_memWrite hy with rfl | hy
        · show b < a; omega
        · exact h.1 y hy

/-- A pair of a memory in canonical form is what its address reads as. -/
theorem memRead_of_mem {m : Memory} (h : Memory.wf m = true) {a : Nat} {v : F64} (hm : (a, v) ∈ m) :
    memRead m a = some v := by
  rw [wf_iff_pairwise] at h
  induction m with
  | nil => simp at hm
  | cons x rest ih =>
    obtain ⟨b, w⟩ := x
    rw [List.pairwise_cons] at h
    rcases List.mem_cons.mp hm with hm | hm
    · cases hm; simp [memRead]
    · have hlt : b < a := h.1 _ hm
      simp only [memRead]
      rw [if_neg (by omega), ih h.2 hm]

/-- Two memories in canonical form that read the same everywhere are the same list. -/
theorem memory_ext {m n : Memory} (hm : Memory.wf m = true) (hn : Memory.wf n = true)
    (h : ∀ a, memRead m a = memRead n a) : m = n := by
  have sub : ∀ {p q : Memory}, Memory.wf p = true → Memory.wf q = true → (∀ a, memRead p a = memRead q a) →
      ∀ c ∈ p, c ∈ q := fun hp _ e c hc => mem_of_memRead (by rw [← e]; exact memRead_of_mem hp hc)
  have key : ∀ {p : Memory}, Memory.wf p = true → p.Pairwise fun x y => x.1 < y.1 := fun hp => (wf_iff_pairwise _).mp hp
  refine List.Perm.eq_of_pairwise (le := fun x y => x.1 < y.1) ?_ (key hm) (key hn) ?_
  · intro a b _ _ h1 h2; omega
  · have nd : ∀ {p : Memory}, Memory.wf p = true → p.Nodup :=
      fun hp => (key hp).imp fun hxy e => by subst e; exact Nat.lt_irrefl _ hxy
    exact (List.perm_ext_iff_of_nodup (nd hm) (nd hn)).mpr
      fun c => ⟨sub hm hn h c, sub hn hm (fun a => (h a).symm) c⟩

/-! ### Table and staging memories -/

/-- `tableRead` answers exactly the words that the memory has and that have been written. -/
theorem tableRead_ok {cap : Nat} {space : Space} {m : Memory} {a : Nat} {v : F64} :
    tableRead cap space m a = .ok v ↔ a < cap ∧ memRead m a = some v := by
  unfold tableRead
  split
  · rename_i h
    cases hr : memRead m a <;> simp [h]
  · rename_i h; simp [h]

/-- `tableWrite` answers exactly for the words the memory has, with the word written. -/
theorem tableWrite_ok {cap : Nat} {space : Space} {m : Memory} {a : Nat} {v : F64} {n : Memory} :
    tableWrite cap space m a v = .ok n ↔ a < cap ∧ n = memWrite m a v := by
  unfold tableWrite
  split <;> simp_all [eq_comm]

/-- `tableWrite` keeps the canonical form. -/
theorem tableWrite_wf {cap : Nat} {space : Space} {m n : Memory} {a : Nat} {v : F64} (hw : Memory.wf m = true)
    (h : tableWrite cap space m a v = .ok n) : Memory.wf n = true := by
  rw [(tableWrite_ok.mp h).2]; exact memWrite_wf hw a v

/-- What `publish` leaves: the first n words of the target are those of the staging memory, the others as before. -/
theorem publish_ok {cap : Nat} {source target : Space} {stage into : Memory} {n : Nat} {out : Memory}
    (h : publish cap source target stage n into = .ok out) :
    ∀ a, memRead out a = if a < n then memRead stage a else memRead into a := by
  induction n generalizing out with
  | zero => simp only [publish, Except.ok.injEq] at h; subst h; simp
  | succ n ih =>
    simp only [publish] at h
    split at h
    · cases h
    · rename_i m hm
      split at h
      · cases h
      · rename_i v hv
        intro a
        rw [(tableWrite_ok.mp h).2, memRead_memWrite, ih hm]
        by_cases ha : a = n
        · subst ha; simp [(tableRead_ok.mp hv).2]
        · rw [if_neg ha]
          by_cases hl : a < n
          · rw [if_pos hl, if_pos (by omega)]
          · rw [if_neg hl, if_neg (by omega)]

/-- `publish` answers where the words fit and have been written. -/
theorem publish_answers {cap : Nat} (source target : Space) {stage : Memory} (into : Memory) {n : Nat} (fits : n ≤ cap)
    (written : ∀ a < n, memRead stage a ≠ none) : ∃ out, publish cap source target stage n into = .ok out := by
  induction n with
  | zero => exact ⟨into, rfl⟩
  | succ n ih =>
    obtain ⟨m, hm⟩ := ih (by omega) fun a ha => written a (by omega)
    obtain ⟨v, hv⟩ := Option.ne_none_iff_exists'.mp (written n (by omega))
    refine ⟨memWrite m n v, ?_⟩
    have hc : n < cap := fits
    simp only [publish, hm, tableRead_ok.mpr ⟨hc, hv⟩]
    exact tableWrite_ok.mpr ⟨hc, rfl⟩

/-- `publish` keeps the canonical form. -/
theorem publish_wf {cap : Nat} {source target : Space} {stage into : Memory} {n : Nat} {out : Memory}
    (hw : Memory.wf into = true) (h : publish cap source target stage n into = .ok out) : Memory.wf out = true := by
  induction n generalizing out with
  | zero => simp only [publish, Except.ok.injEq] at h; subst h; exact hw
  | succ n ih =>
    simp only [publish] at h
    split at h
    · cases h
    · rename_i m hm
      split at h
      · cases h
      · exact tableWrite_wf (ih hm) h

/-- What `pushSample` can do: it writes one staging memory, or none, and counts the sample. -/
theorem pushSample_ok {cap : Nat} {v : F64} {g g' : Staging} (h : pushSample cap v g = .ok g') :
    g' = { g with
      STG0 := if g.STG_COUNT / g.STG_N = 0 then memWrite g.STG0 (g.STG_COUNT % g.STG_N) v else g.STG0
      STG1 := if g.STG_COUNT / g.STG_N = 1 then memWrite g.STG1 (g.STG_COUNT % g.STG_N) v else g.STG1
      STG_COUNT := g.STG_COUNT + 1 } := by
  simp only [pushSample] at h
  split at h
  · rename_i h0
    split at h
    · rename_i m hm
      rw [(tableWrite_ok.mp hm).2] at h
      cases h; simp [h0]
    · cases h
  · rename_i h0
    split at h
    · rename_i h1
      split at h
      · rename_i m hm
        rw [(tableWrite_ok.mp hm).2] at h
        cases h; simp [h1]
      · cases h
    · rename_i h1
      cases h; simp [h0, h1]

/-- `pushSample` keeps the canonical form of both staging memories. -/
theorem pushSample_wf {cap : Nat} {v : F64} {g g' : Staging} (h0 : Memory.wf g.STG0 = true)
    (h1 : Memory.wf g.STG1 = true) (h : pushSample cap v g = .ok g') :
    Memory.wf g'.STG0 = true ∧ Memory.wf g'.STG1 = true := by
  rw [pushSample_ok h]
  constructor
  · show Memory.wf (if _ then _ else _) = true
    split
    · exact memWrite_wf h0 _ _
    · exact h0
  · show Memory.wf (if _ then _ else _) = true
    split
    · exact memWrite_wf h1 _ _
    · exact h1

/-! ### The output memory -/

/-- The address of a channel and a frame (R65). -/
theorem outAddress_toNat (channel : BitVec 4) (frame : BitVec 20) :
    (outAddress channel frame).toNat = channel.toNat * 2 ^ 20 + frame.toNat := by
  unfold outAddress
  rw [BitVec.toNat_append, Nat.shiftLeft_eq, ← Nat.shiftLeft_eq, Nat.shiftLeft_add_eq_or_of_lt frame.isLt, Nat.shiftLeft_eq]

/-- Different channels or frames have different addresses. -/
theorem outAddress_inj {c c' : BitVec 4} {f f' : BitVec 20} :
    (outAddress c f).toNat = (outAddress c' f').toNat ↔ c = c' ∧ f = f' := by
  rw [outAddress_toNat, outAddress_toNat]
  have := f.isLt; have := f'.isLt
  constructor
  · intro h
    exact ⟨BitVec.eq_of_toNat_eq (by omega), BitVec.eq_of_toNat_eq (by omega)⟩
  · rintro ⟨rfl, rfl⟩; rfl

/-- `outWrite` keeps the canonical form. -/
theorem outWrite_wf {m : Memory} (h : Memory.wf m = true) (c : BitVec 4) (f : BitVec 20) (v : F64) :
    Memory.wf (outWrite m c f v) = true := memWrite_wf h _ _

/-- A write of `OUT` is read back at its channel and frame, and changes no other word. -/
theorem memRead_outWrite (m : Memory) (c c' : BitVec 4) (f f' : BitVec 20) (v : F64) :
    memRead (outWrite m c f v) (outAddress c' f').toNat =
      if c' = c ∧ f' = f then some v else memRead m (outAddress c' f').toNat := by
  unfold outWrite
  rw [memRead_memWrite]
  simp only [outAddress_inj]

/-- What writing a channel changes besides the fault record: one word of `OUT`. -/
theorem writeChannel_OUT (left right : F64) (s : State) (c : Nat) :
    (writeChannel left right s c).OUT =
      outWrite s.OUT (BitVec.ofNat 4 c) s.blk.BLK_S (outWord (channelValue left right c)) := by
  unfold writeChannel raiseIf
  simp only
  split <;> rfl

/-- Writing a channel leaves the sequencer. -/
theorem writeChannel_blk (left right : F64) (s : State) (c : Nat) : (writeChannel left right s c).blk = s.blk := by
  unfold writeChannel raiseIf
  simp only
  split <;> rfl

/-- Writing a frame keeps the canonical form of `OUT`. -/
theorem writeFrame_wf (left right : F64) (s : State) (h : Memory.wf s.OUT = true) :
    Memory.wf (writeFrame left right s).OUT = true := by
  unfold writeFrame
  generalize List.range s.blk.BLK_C.toNat = l
  induction l generalizing s with
  | nil => exact h
  | cons c l ih => exact ih _ (by rw [writeChannel_OUT]; exact outWrite_wf h _ _ _)

/-! ### Power-on -/

/-- The memories of the power-on state have the canonical form. -/
theorem powerOn_wf (P : Params) : Memory.wf (State.powerOn P).OUT = true ∧ Memory.wf (State.powerOn P).WT_L = true ∧
    Memory.wf (State.powerOn P).WT_R = true ∧ Memory.wf (State.powerOn P).stg.STG0 = true ∧
    Memory.wf (State.powerOn P).stg.STG1 = true := ⟨rfl, rfl, rfl, rfl, rfl⟩

end Sys2Proof.Machine
end

