-- ==== Sys2Proof/Laws/Noise.lean ====
section
/-! SUPPORT. The noise states that are reached, and `NOISE_BOUNDED` of the reference instance (42_noise.md). -/

namespace Sys2Proof.Machine

/-- A noise step keeps the noise state reached. -/
theorem noiseStep_reached {P : Params} {s : State} (tint : Tint) (rate : F64) (h : NoiseReached P s.NOISE_ST) :
    NoiseReached P (noiseStep P tint rate s).NOISE_ST := h.step tint rate s.DT s.SR (P.draw s.DRAWS)

/-- A held value of the reference instance: of magnitude at most 1.0, or a NaN, whose reading as an output is of such a magnitude too. -/
def HeldBounded (x : F64) : Prop := magBits x ≤ magBits f1 ∨ isNaN x = true

/-- Every output of the reference instance is the bounded reading of a held value. -/
theorem finOfBits_bounded {x : F64} (h : HeldBounded x) : magBits (finOfBits x).bits ≤ magBits f1 := by
  have e : magBits (finOfBits x).bits = (x.toNat / 2 ^ 52 % 2 ^ 11 % 2047) * 2 ^ 52 + x.toNat % 2 ^ 52 := by
    have hf : x.toNat % 2 ^ 52 < 2 ^ 52 := Nat.mod_lt _ (by decide)
    have hx : x.toNat / 2 ^ 52 % 2 ^ 11 % 2047 < 2 ^ 11 := (Nat.mod_lt _ (by decide)).trans (by decide)
    simp only [magBits, finOfBits, FinF64.bits, BitVec.toNat_append, BitVec.toNat_ofNat, BitVec.toNat_ofBool,
      BitVec.extractLsb'_toNat, Nat.shiftRight_eq_div_pow, pow_zero, Nat.div_one]
    rw [← Nat.shiftLeft_add_eq_or_of_lt hf,
      ← Nat.shiftLeft_add_eq_or_of_lt (Nat.mod_lt _ (by decide) : x.toNat / 2 ^ 52 % 2 ^ 11 % 2047 % 2 ^ 11 < 2 ^ 11),
      Nat.shiftLeft_eq, Nat.shiftLeft_eq, Nat.mod_eq_of_lt hx]
    cases x.msb <;> simp <;> omega
  have h1 : magBits f1 = 1023 * 2 ^ 52 := by decide
  have hi : infMag = 2047 * 2 ^ 52 := by decide
  rw [e]
  rcases h with h | h
  · simp only [magBits] at h ⊢
    omega
  · have h : infMag < magBits x := of_decide_eq_true h
    simp only [magBits] at h
    omega

/-- The reference white value is of magnitude at most 1.0 (R148). -/
theorem refWhite_bounded (χ : Nat) : HeldBounded (refWhite (refDraw χ)) := by
  have hu : (refDraw χ).toNat < 0x3FF0000000000000 := by
    simp only [refDraw, BitVec.toNat_ofNat]
    omega
  have hm : (refDraw χ).msb = false := by rw [BitVec.msb_eq_false_iff_two_mul_lt]; omega
  have hb : magBits (refDraw χ) < 0x3FF0000000000000 := (Nat.mod_le _ _).trans_lt hu
  have hf : isFinite (refDraw χ) = true := decide_eq_true (hb.trans (by decide))
  have hk : orderKey (refDraw χ) = magBits (refDraw χ) := by simp [orderKey, hm]
  have k0 : orderKey f0 = 0 := by decide
  have k1 : orderKey f1 = 0x3FF0000000000000 := by decide
  have lo : fle f0 (refDraw χ) = true := fle_iff.mpr ⟨by decide, isNaN_of_isFinite hf, by omega⟩
  have hi : fle (refDraw χ) f1 = true := fle_iff.mpr ⟨isNaN_of_isFinite hf, by decide, by omega⟩
  have window {x y : F64} (h : fle x y = true) :
      fle (fsub (fmul x f2) f1) (fsub (fmul y f2) f1) = true :=
    fadd_mono_left (by decide +kernel) (fmul_mono_left (by decide) (by decide) (by decide) h)
  have w0 : fsub (fmul f0 f2) f1 = fneg f1 := by decide +kernel
  have w1 : fsub (fmul f1 f2) f1 = f1 := by decide +kernel
  have l := window lo
  have u := window hi
  rw [w0] at l
  rw [w1] at u
  unfold refWhite
  rw [fmul_comm_finite (by decide) hf]
  exact .inl (magBits_le_of_window l u)

/-- A value clamped to [-1, 1] is of magnitude at most 1.0. -/
theorem fclamp_bounded (x : F64) : HeldBounded (fclamp x (fneg f1) f1) := by
  by_cases hn : isNaN x = true
  · unfold fclamp
    rcases fmax_cases x (fneg f1) with h | h <;> rw [h] <;>
      rcases fmin_cases _ f1 with h' | h' <;> rw [h']
    · exact .inr hn
    · exact .inl (Nat.le_refl _)
    · exact .inl (by decide)
    · exact .inl (Nat.le_refl _)
  · have hn : isNaN x = false := by simpa using hn
    obtain ⟨l, u⟩ := fclamp_window hn (by decide : isNaN (fneg f1) = false) (by decide : isNaN f1 = false) (by decide)
    exact .inl (magBits_le_of_window l u)

/-- The held values of every reached state of the reference instance are bounded. -/
theorem refHeld_bounded {P : Params} (hr : P.noiseRel = refNoiseRel) (hi : P.noiseInit = refNoiseWords refNoiseInit)
    {σ : NoiseState} (h : NoiseReached P σ) :
    HeldBounded (refNoiseOfWords σ).held_w ∧ HeldBounded (refNoiseOfWords σ).held_p ∧
      HeldBounded (refNoiseOfWords σ).held_b := by
  induction h with
  | init => rw [hi]; exact ⟨.inl (by decide), .inl (by decide), .inl (by decide)⟩
  | @step σ tint rate dt sr χ _ ih =>
    rw [hr]
    show HeldBounded (refNoiseStep rate dt sr (refNoiseOfWords σ) (refDraw χ)).held_w ∧
      HeldBounded (refNoiseStep rate dt sr (refNoiseOfWords σ) (refDraw χ)).held_p ∧
      HeldBounded (refNoiseStep rate dt sr (refNoiseOfWords σ) (refDraw χ)).held_b
    unfold refNoiseStep
    split
    · simp only [refValue, refPink]
      exact ⟨refWhite_bounded χ, fclamp_bounded _, fclamp_bounded _⟩
    · exact ih

/-- The reference instance satisfies `NOISE_BOUNDED` (42_noise.md section 2). -/
theorem refNoise_bounded {P : Params} (hr : P.noiseRel = refNoiseRel) (hi : P.noiseInit = refNoiseWords refNoiseInit) :
    NoiseBounded P := by
  intro σ h tint rate dt sr χ
  obtain ⟨w, p, b⟩ := refHeld_bounded hr hi (h.step tint rate dt sr χ)
  rw [hr] at w p b ⊢
  cases tint
  · exact finOfBits_bounded w
  · exact finOfBits_bounded p
  · exact finOfBits_bounded b

end Sys2Proof.Machine
end

