-- ==== Sys2Proof/Laws/State.lean ====
section
/-! SUPPORT. What each named update of the state does to each field: one lemma per field, true by computation, so that no
proof unfolds a record update. A lemma `u_F` is about field F after update u. -/

namespace Sys2Proof.Machine

/-! ### `respond v s` -/

@[simp] theorem respond_READY (v : Word) (s : State) : (respond v s).READY = s.READY := rfl
@[simp] theorem respond_SR (v : Word) (s : State) : (respond v s).SR = s.SR := rfl
@[simp] theorem respond_DT (v : Word) (s : State) : (respond v s).DT = s.DT := rfl
@[simp] theorem respond_BLOCK_SIZE (v : Word) (s : State) : (respond v s).BLOCK_SIZE = s.BLOCK_SIZE := rfl
@[simp] theorem respond_FAULTS (v : Word) (s : State) : (respond v s).FAULTS = s.FAULTS := rfl
@[simp] theorem respond_FAULT_INFO (v : Word) (s : State) : (respond v s).FAULT_INFO = s.FAULT_INFO := rfl
@[simp] theorem respond_RESP (v : Word) (s : State) : (respond v s).RESP = v := rfl
@[simp] theorem respond_par (v : Word) (s : State) : (respond v s).par = s.par := rfl
@[simp] theorem respond_RMP_MOD (v : Word) (s : State) : (respond v s).RMP_MOD = s.RMP_MOD := rfl
@[simp] theorem respond_RMP_RATE (v : Word) (s : State) : (respond v s).RMP_RATE = s.RMP_RATE := rfl
@[simp] theorem respond_RMP_RANGE (v : Word) (s : State) : (respond v s).RMP_RANGE = s.RMP_RANGE := rfl
@[simp] theorem respond_RMP_SHAPE (v : Word) (s : State) : (respond v s).RMP_SHAPE = s.RMP_SHAPE := rfl
@[simp] theorem respond_env (v : Word) (s : State) : (respond v s).env = s.env := rfl
@[simp] theorem respond_OSC_PHASE (v : Word) (s : State) : (respond v s).OSC_PHASE = s.OSC_PHASE := rfl
@[simp] theorem respond_NOISE_ST (v : Word) (s : State) : (respond v s).NOISE_ST = s.NOISE_ST := rfl
@[simp] theorem respond_WT_N (v : Word) (s : State) : (respond v s).WT_N = s.WT_N := rfl
@[simp] theorem respond_WT_L (v : Word) (s : State) : (respond v s).WT_L = s.WT_L := rfl
@[simp] theorem respond_WT_R (v : Word) (s : State) : (respond v s).WT_R = s.WT_R := rfl
@[simp] theorem respond_SHP_LAST_L (v : Word) (s : State) : (respond v s).SHP_LAST_L = s.SHP_LAST_L := rfl
@[simp] theorem respond_SHP_LAST_R (v : Word) (s : State) : (respond v s).SHP_LAST_R = s.SHP_LAST_R := rfl
@[simp] theorem respond_SHAPER_MAP (v : Word) (s : State) : (respond v s).SHAPER_MAP = s.SHAPER_MAP := rfl
@[simp] theorem respond_stg (v : Word) (s : State) : (respond v s).stg = s.stg := rfl
@[simp] theorem respond_MQ (v : Word) (s : State) : (respond v s).MQ = s.MQ := rfl
@[simp] theorem respond_NS (v : Word) (s : State) : (respond v s).NS = s.NS := rfl
@[simp] theorem respond_SNAP (v : Word) (s : State) : (respond v s).SNAP = s.SNAP := rfl
@[simp] theorem respond_blk (v : Word) (s : State) : (respond v s).blk = s.blk := rfl
@[simp] theorem respond_OUT (v : Word) (s : State) : (respond v s).OUT = s.OUT := rfl
@[simp] theorem respond_AUDIO_IN (v : Word) (s : State) : (respond v s).AUDIO_IN = s.AUDIO_IN := rfl
@[simp] theorem respond_CONTROL_IN (v : Word) (s : State) : (respond v s).CONTROL_IN = s.CONTROL_IN := rfl
@[simp] theorem respond_AUDIO_RESP (v : Word) (s : State) : (respond v s).AUDIO_RESP = s.AUDIO_RESP := rfl
@[simp] theorem respond_CONTROL_RESP (v : Word) (s : State) : (respond v s).CONTROL_RESP = s.CONTROL_RESP := rfl
@[simp] theorem respond_PORT (v : Word) (s : State) : (respond v s).PORT = s.PORT := rfl
@[simp] theorem respond_DRAWS (v : Word) (s : State) : (respond v s).DRAWS = s.DRAWS := rfl
@[simp] theorem respond_MERGES (v : Word) (s : State) : (respond v s).MERGES = s.MERGES := rfl

/-! ### `raiseFault cw code s` -/

@[simp] theorem raiseFault_READY (cw : CmdWord) (code : FaultCode) (s : State) : (raiseFault cw code s).READY = s.READY := rfl
@[simp] theorem raiseFault_SR (cw : CmdWord) (code : FaultCode) (s : State) : (raiseFault cw code s).SR = s.SR := rfl
@[simp] theorem raiseFault_DT (cw : CmdWord) (code : FaultCode) (s : State) : (raiseFault cw code s).DT = s.DT := rfl
@[simp] theorem raiseFault_BLOCK_SIZE (cw : CmdWord) (code : FaultCode) (s : State) : (raiseFault cw code s).BLOCK_SIZE = s.BLOCK_SIZE := rfl
@[simp] theorem raiseFault_FAULTS (cw : CmdWord) (code : FaultCode) (s : State) : (raiseFault cw code s).FAULTS = s.FAULTS ||| faultBit code := rfl
@[simp] theorem raiseFault_FAULT_INFO (cw : CmdWord) (code : FaultCode) (s : State) : (raiseFault cw code s).FAULT_INFO = if s.FAULTS = 0#16 then faultWord code cw else s.FAULT_INFO := rfl
@[simp] theorem raiseFault_RESP (cw : CmdWord) (code : FaultCode) (s : State) : (raiseFault cw code s).RESP = s.RESP := rfl
@[simp] theorem raiseFault_par (cw : CmdWord) (code : FaultCode) (s : State) : (raiseFault cw code s).par = s.par := rfl
@[simp] theorem raiseFault_RMP_MOD (cw : CmdWord) (code : FaultCode) (s : State) : (raiseFault cw code s).RMP_MOD = s.RMP_MOD := rfl
@[simp] theorem raiseFault_RMP_RATE (cw : CmdWord) (code : FaultCode) (s : State) : (raiseFault cw code s).RMP_RATE = s.RMP_RATE := rfl
@[simp] theorem raiseFault_RMP_RANGE (cw : CmdWord) (code : FaultCode) (s : State) : (raiseFault cw code s).RMP_RANGE = s.RMP_RANGE := rfl
@[simp] theorem raiseFault_RMP_SHAPE (cw : CmdWord) (code : FaultCode) (s : State) : (raiseFault cw code s).RMP_SHAPE = s.RMP_SHAPE := rfl
@[simp] theorem raiseFault_env (cw : CmdWord) (code : FaultCode) (s : State) : (raiseFault cw code s).env = s.env := rfl
@[simp] theorem raiseFault_OSC_PHASE (cw : CmdWord) (code : FaultCode) (s : State) : (raiseFault cw code s).OSC_PHASE = s.OSC_PHASE := rfl
@[simp] theorem raiseFault_NOISE_ST (cw : CmdWord) (code : FaultCode) (s : State) : (raiseFault cw code s).NOISE_ST = s.NOISE_ST := rfl
@[simp] theorem raiseFault_WT_N (cw : CmdWord) (code : FaultCode) (s : State) : (raiseFault cw code s).WT_N = s.WT_N := rfl
@[simp] theorem raiseFault_WT_L (cw : CmdWord) (code : FaultCode) (s : State) : (raiseFault cw code s).WT_L = s.WT_L := rfl
@[simp] theorem raiseFault_WT_R (cw : CmdWord) (code : FaultCode) (s : State) : (raiseFault cw code s).WT_R = s.WT_R := rfl
@[simp] theorem raiseFault_SHP_LAST_L (cw : CmdWord) (code : FaultCode) (s : State) : (raiseFault cw code s).SHP_LAST_L = s.SHP_LAST_L := rfl
@[simp] theorem raiseFault_SHP_LAST_R (cw : CmdWord) (code : FaultCode) (s : State) : (raiseFault cw code s).SHP_LAST_R = s.SHP_LAST_R := rfl
@[simp] theorem raiseFault_SHAPER_MAP (cw : CmdWord) (code : FaultCode) (s : State) : (raiseFault cw code s).SHAPER_MAP = s.SHAPER_MAP := rfl
@[simp] theorem raiseFault_stg (cw : CmdWord) (code : FaultCode) (s : State) : (raiseFault cw code s).stg = s.stg := rfl
@[simp] theorem raiseFault_MQ (cw : CmdWord) (code : FaultCode) (s : State) : (raiseFault cw code s).MQ = s.MQ := rfl
@[simp] theorem raiseFault_NS (cw : CmdWord) (code : FaultCode) (s : State) : (raiseFault cw code s).NS = s.NS := rfl
@[simp] theorem raiseFault_SNAP (cw : CmdWord) (code : FaultCode) (s : State) : (raiseFault cw code s).SNAP = s.SNAP := rfl
@[simp] theorem raiseFault_blk (cw : CmdWord) (code : FaultCode) (s : State) : (raiseFault cw code s).blk = s.blk := rfl
@[simp] theorem raiseFault_OUT (cw : CmdWord) (code : FaultCode) (s : State) : (raiseFault cw code s).OUT = s.OUT := rfl
@[simp] theorem raiseFault_AUDIO_IN (cw : CmdWord) (code : FaultCode) (s : State) : (raiseFault cw code s).AUDIO_IN = s.AUDIO_IN := rfl
@[simp] theorem raiseFault_CONTROL_IN (cw : CmdWord) (code : FaultCode) (s : State) : (raiseFault cw code s).CONTROL_IN = s.CONTROL_IN := rfl
@[simp] theorem raiseFault_AUDIO_RESP (cw : CmdWord) (code : FaultCode) (s : State) : (raiseFault cw code s).AUDIO_RESP = s.AUDIO_RESP := rfl
@[simp] theorem raiseFault_CONTROL_RESP (cw : CmdWord) (code : FaultCode) (s : State) : (raiseFault cw code s).CONTROL_RESP = s.CONTROL_RESP := rfl
@[simp] theorem raiseFault_PORT (cw : CmdWord) (code : FaultCode) (s : State) : (raiseFault cw code s).PORT = s.PORT := rfl
@[simp] theorem raiseFault_DRAWS (cw : CmdWord) (code : FaultCode) (s : State) : (raiseFault cw code s).DRAWS = s.DRAWS := rfl
@[simp] theorem raiseFault_MERGES (cw : CmdWord) (code : FaultCode) (s : State) : (raiseFault cw code s).MERGES = s.MERGES := rfl

/-! ### `refuse cw code s` -/

@[simp] theorem refuse_READY (cw : CmdWord) (code : FaultCode) (s : State) : (refuse cw code s).READY = s.READY := rfl
@[simp] theorem refuse_SR (cw : CmdWord) (code : FaultCode) (s : State) : (refuse cw code s).SR = s.SR := rfl
@[simp] theorem refuse_DT (cw : CmdWord) (code : FaultCode) (s : State) : (refuse cw code s).DT = s.DT := rfl
@[simp] theorem refuse_BLOCK_SIZE (cw : CmdWord) (code : FaultCode) (s : State) : (refuse cw code s).BLOCK_SIZE = s.BLOCK_SIZE := rfl
@[simp] theorem refuse_FAULTS (cw : CmdWord) (code : FaultCode) (s : State) : (refuse cw code s).FAULTS = s.FAULTS ||| faultBit code := rfl
@[simp] theorem refuse_FAULT_INFO (cw : CmdWord) (code : FaultCode) (s : State) : (refuse cw code s).FAULT_INFO = if s.FAULTS = 0#16 then faultWord code cw else s.FAULT_INFO := rfl
@[simp] theorem refuse_RESP (cw : CmdWord) (code : FaultCode) (s : State) : (refuse cw code s).RESP = 0#64 := rfl
@[simp] theorem refuse_par (cw : CmdWord) (code : FaultCode) (s : State) : (refuse cw code s).par = s.par := rfl
@[simp] theorem refuse_RMP_MOD (cw : CmdWord) (code : FaultCode) (s : State) : (refuse cw code s).RMP_MOD = s.RMP_MOD := rfl
@[simp] theorem refuse_RMP_RATE (cw : CmdWord) (code : FaultCode) (s : State) : (refuse cw code s).RMP_RATE = s.RMP_RATE := rfl
@[simp] theorem refuse_RMP_RANGE (cw : CmdWord) (code : FaultCode) (s : State) : (refuse cw code s).RMP_RANGE = s.RMP_RANGE := rfl
@[simp] theorem refuse_RMP_SHAPE (cw : CmdWord) (code : FaultCode) (s : State) : (refuse cw code s).RMP_SHAPE = s.RMP_SHAPE := rfl
@[simp] theorem refuse_env (cw : CmdWord) (code : FaultCode) (s : State) : (refuse cw code s).env = s.env := rfl
@[simp] theorem refuse_OSC_PHASE (cw : CmdWord) (code : FaultCode) (s : State) : (refuse cw code s).OSC_PHASE = s.OSC_PHASE := rfl
@[simp] theorem refuse_NOISE_ST (cw : CmdWord) (code : FaultCode) (s : State) : (refuse cw code s).NOISE_ST = s.NOISE_ST := rfl
@[simp] theorem refuse_WT_N (cw : CmdWord) (code : FaultCode) (s : State) : (refuse cw code s).WT_N = s.WT_N := rfl
@[simp] theorem refuse_WT_L (cw : CmdWord) (code : FaultCode) (s : State) : (refuse cw code s).WT_L = s.WT_L := rfl
@[simp] theorem refuse_WT_R (cw : CmdWord) (code : FaultCode) (s : State) : (refuse cw code s).WT_R = s.WT_R := rfl
@[simp] theorem refuse_SHP_LAST_L (cw : CmdWord) (code : FaultCode) (s : State) : (refuse cw code s).SHP_LAST_L = s.SHP_LAST_L := rfl
@[simp] theorem refuse_SHP_LAST_R (cw : CmdWord) (code : FaultCode) (s : State) : (refuse cw code s).SHP_LAST_R = s.SHP_LAST_R := rfl
@[simp] theorem refuse_SHAPER_MAP (cw : CmdWord) (code : FaultCode) (s : State) : (refuse cw code s).SHAPER_MAP = s.SHAPER_MAP := rfl
@[simp] theorem refuse_stg (cw : CmdWord) (code : FaultCode) (s : State) : (refuse cw code s).stg = s.stg := rfl
@[simp] theorem refuse_MQ (cw : CmdWord) (code : FaultCode) (s : State) : (refuse cw code s).MQ = s.MQ := rfl
@[simp] theorem refuse_NS (cw : CmdWord) (code : FaultCode) (s : State) : (refuse cw code s).NS = s.NS := rfl
@[simp] theorem refuse_SNAP (cw : CmdWord) (code : FaultCode) (s : State) : (refuse cw code s).SNAP = s.SNAP := rfl
@[simp] theorem refuse_blk (cw : CmdWord) (code : FaultCode) (s : State) : (refuse cw code s).blk = s.blk := rfl
@[simp] theorem refuse_OUT (cw : CmdWord) (code : FaultCode) (s : State) : (refuse cw code s).OUT = s.OUT := rfl
@[simp] theorem refuse_AUDIO_IN (cw : CmdWord) (code : FaultCode) (s : State) : (refuse cw code s).AUDIO_IN = s.AUDIO_IN := rfl
@[simp] theorem refuse_CONTROL_IN (cw : CmdWord) (code : FaultCode) (s : State) : (refuse cw code s).CONTROL_IN = s.CONTROL_IN := rfl
@[simp] theorem refuse_AUDIO_RESP (cw : CmdWord) (code : FaultCode) (s : State) : (refuse cw code s).AUDIO_RESP = s.AUDIO_RESP := rfl
@[simp] theorem refuse_CONTROL_RESP (cw : CmdWord) (code : FaultCode) (s : State) : (refuse cw code s).CONTROL_RESP = s.CONTROL_RESP := rfl
@[simp] theorem refuse_PORT (cw : CmdWord) (code : FaultCode) (s : State) : (refuse cw code s).PORT = s.PORT := rfl
@[simp] theorem refuse_DRAWS (cw : CmdWord) (code : FaultCode) (s : State) : (refuse cw code s).DRAWS = s.DRAWS := rfl
@[simp] theorem refuse_MERGES (cw : CmdWord) (code : FaultCode) (s : State) : (refuse cw code s).MERGES = s.MERGES := rfl

/-! ### `raiseIf c cw code s` -/

@[simp] theorem raiseIf_READY (c : Bool) (cw : CmdWord) (code : FaultCode) (s : State) : (raiseIf c cw code s).READY = s.READY := by cases c <;> rfl
@[simp] theorem raiseIf_SR (c : Bool) (cw : CmdWord) (code : FaultCode) (s : State) : (raiseIf c cw code s).SR = s.SR := by cases c <;> rfl
@[simp] theorem raiseIf_DT (c : Bool) (cw : CmdWord) (code : FaultCode) (s : State) : (raiseIf c cw code s).DT = s.DT := by cases c <;> rfl
@[simp] theorem raiseIf_BLOCK_SIZE (c : Bool) (cw : CmdWord) (code : FaultCode) (s : State) : (raiseIf c cw code s).BLOCK_SIZE = s.BLOCK_SIZE := by cases c <;> rfl
@[simp] theorem raiseIf_RESP (c : Bool) (cw : CmdWord) (code : FaultCode) (s : State) : (raiseIf c cw code s).RESP = s.RESP := by cases c <;> rfl
@[simp] theorem raiseIf_par (c : Bool) (cw : CmdWord) (code : FaultCode) (s : State) : (raiseIf c cw code s).par = s.par := by cases c <;> rfl
@[simp] theorem raiseIf_RMP_MOD (c : Bool) (cw : CmdWord) (code : FaultCode) (s : State) : (raiseIf c cw code s).RMP_MOD = s.RMP_MOD := by cases c <;> rfl
@[simp] theorem raiseIf_RMP_RATE (c : Bool) (cw : CmdWord) (code : FaultCode) (s : State) : (raiseIf c cw code s).RMP_RATE = s.RMP_RATE := by cases c <;> rfl
@[simp] theorem raiseIf_RMP_RANGE (c : Bool) (cw : CmdWord) (code : FaultCode) (s : State) : (raiseIf c cw code s).RMP_RANGE = s.RMP_RANGE := by cases c <;> rfl
@[simp] theorem raiseIf_RMP_SHAPE (c : Bool) (cw : CmdWord) (code : FaultCode) (s : State) : (raiseIf c cw code s).RMP_SHAPE = s.RMP_SHAPE := by cases c <;> rfl
@[simp] theorem raiseIf_env (c : Bool) (cw : CmdWord) (code : FaultCode) (s : State) : (raiseIf c cw code s).env = s.env := by cases c <;> rfl
@[simp] theorem raiseIf_OSC_PHASE (c : Bool) (cw : CmdWord) (code : FaultCode) (s : State) : (raiseIf c cw code s).OSC_PHASE = s.OSC_PHASE := by cases c <;> rfl
@[simp] theorem raiseIf_NOISE_ST (c : Bool) (cw : CmdWord) (code : FaultCode) (s : State) : (raiseIf c cw code s).NOISE_ST = s.NOISE_ST := by cases c <;> rfl
@[simp] theorem raiseIf_WT_N (c : Bool) (cw : CmdWord) (code : FaultCode) (s : State) : (raiseIf c cw code s).WT_N = s.WT_N := by cases c <;> rfl
@[simp] theorem raiseIf_WT_L (c : Bool) (cw : CmdWord) (code : FaultCode) (s : State) : (raiseIf c cw code s).WT_L = s.WT_L := by cases c <;> rfl
@[simp] theorem raiseIf_WT_R (c : Bool) (cw : CmdWord) (code : FaultCode) (s : State) : (raiseIf c cw code s).WT_R = s.WT_R := by cases c <;> rfl
@[simp] theorem raiseIf_SHP_LAST_L (c : Bool) (cw : CmdWord) (code : FaultCode) (s : State) : (raiseIf c cw code s).SHP_LAST_L = s.SHP_LAST_L := by cases c <;> rfl
@[simp] theorem raiseIf_SHP_LAST_R (c : Bool) (cw : CmdWord) (code : FaultCode) (s : State) : (raiseIf c cw code s).SHP_LAST_R = s.SHP_LAST_R := by cases c <;> rfl
@[simp] theorem raiseIf_SHAPER_MAP (c : Bool) (cw : CmdWord) (code : FaultCode) (s : State) : (raiseIf c cw code s).SHAPER_MAP = s.SHAPER_MAP := by cases c <;> rfl
@[simp] theorem raiseIf_stg (c : Bool) (cw : CmdWord) (code : FaultCode) (s : State) : (raiseIf c cw code s).stg = s.stg := by cases c <;> rfl
@[simp] theorem raiseIf_MQ (c : Bool) (cw : CmdWord) (code : FaultCode) (s : State) : (raiseIf c cw code s).MQ = s.MQ := by cases c <;> rfl
@[simp] theorem raiseIf_NS (c : Bool) (cw : CmdWord) (code : FaultCode) (s : State) : (raiseIf c cw code s).NS = s.NS := by cases c <;> rfl
@[simp] theorem raiseIf_SNAP (c : Bool) (cw : CmdWord) (code : FaultCode) (s : State) : (raiseIf c cw code s).SNAP = s.SNAP := by cases c <;> rfl
@[simp] theorem raiseIf_blk (c : Bool) (cw : CmdWord) (code : FaultCode) (s : State) : (raiseIf c cw code s).blk = s.blk := by cases c <;> rfl
@[simp] theorem raiseIf_OUT (c : Bool) (cw : CmdWord) (code : FaultCode) (s : State) : (raiseIf c cw code s).OUT = s.OUT := by cases c <;> rfl
@[simp] theorem raiseIf_AUDIO_IN (c : Bool) (cw : CmdWord) (code : FaultCode) (s : State) : (raiseIf c cw code s).AUDIO_IN = s.AUDIO_IN := by cases c <;> rfl
@[simp] theorem raiseIf_CONTROL_IN (c : Bool) (cw : CmdWord) (code : FaultCode) (s : State) : (raiseIf c cw code s).CONTROL_IN = s.CONTROL_IN := by cases c <;> rfl
@[simp] theorem raiseIf_AUDIO_RESP (c : Bool) (cw : CmdWord) (code : FaultCode) (s : State) : (raiseIf c cw code s).AUDIO_RESP = s.AUDIO_RESP := by cases c <;> rfl
@[simp] theorem raiseIf_CONTROL_RESP (c : Bool) (cw : CmdWord) (code : FaultCode) (s : State) : (raiseIf c cw code s).CONTROL_RESP = s.CONTROL_RESP := by cases c <;> rfl
@[simp] theorem raiseIf_PORT (c : Bool) (cw : CmdWord) (code : FaultCode) (s : State) : (raiseIf c cw code s).PORT = s.PORT := by cases c <;> rfl
@[simp] theorem raiseIf_DRAWS (c : Bool) (cw : CmdWord) (code : FaultCode) (s : State) : (raiseIf c cw code s).DRAWS = s.DRAWS := by cases c <;> rfl
@[simp] theorem raiseIf_MERGES (c : Bool) (cw : CmdWord) (code : FaultCode) (s : State) : (raiseIf c cw code s).MERGES = s.MERGES := by cases c <;> rfl

/-! ### `noiseStep P tint rate s` -/

@[simp] theorem noiseStep_READY (P : Params) (tint : Tint) (rate : F64) (s : State) : (noiseStep P tint rate s).READY = s.READY := rfl
@[simp] theorem noiseStep_SR (P : Params) (tint : Tint) (rate : F64) (s : State) : (noiseStep P tint rate s).SR = s.SR := rfl
@[simp] theorem noiseStep_DT (P : Params) (tint : Tint) (rate : F64) (s : State) : (noiseStep P tint rate s).DT = s.DT := rfl
@[simp] theorem noiseStep_BLOCK_SIZE (P : Params) (tint : Tint) (rate : F64) (s : State) : (noiseStep P tint rate s).BLOCK_SIZE = s.BLOCK_SIZE := rfl
@[simp] theorem noiseStep_FAULTS (P : Params) (tint : Tint) (rate : F64) (s : State) : (noiseStep P tint rate s).FAULTS = s.FAULTS := rfl
@[simp] theorem noiseStep_FAULT_INFO (P : Params) (tint : Tint) (rate : F64) (s : State) : (noiseStep P tint rate s).FAULT_INFO = s.FAULT_INFO := rfl
@[simp] theorem noiseStep_RESP (P : Params) (tint : Tint) (rate : F64) (s : State) : (noiseStep P tint rate s).RESP = s.RESP := rfl
@[simp] theorem noiseStep_par (P : Params) (tint : Tint) (rate : F64) (s : State) : (noiseStep P tint rate s).par = s.par := rfl
@[simp] theorem noiseStep_RMP_MOD (P : Params) (tint : Tint) (rate : F64) (s : State) : (noiseStep P tint rate s).RMP_MOD = s.RMP_MOD := rfl
@[simp] theorem noiseStep_RMP_RATE (P : Params) (tint : Tint) (rate : F64) (s : State) : (noiseStep P tint rate s).RMP_RATE = s.RMP_RATE := rfl
@[simp] theorem noiseStep_RMP_RANGE (P : Params) (tint : Tint) (rate : F64) (s : State) : (noiseStep P tint rate s).RMP_RANGE = s.RMP_RANGE := rfl
@[simp] theorem noiseStep_RMP_SHAPE (P : Params) (tint : Tint) (rate : F64) (s : State) : (noiseStep P tint rate s).RMP_SHAPE = s.RMP_SHAPE := rfl
@[simp] theorem noiseStep_env (P : Params) (tint : Tint) (rate : F64) (s : State) : (noiseStep P tint rate s).env = s.env := rfl
@[simp] theorem noiseStep_OSC_PHASE (P : Params) (tint : Tint) (rate : F64) (s : State) : (noiseStep P tint rate s).OSC_PHASE = s.OSC_PHASE := rfl
@[simp] theorem noiseStep_NOISE_ST (P : Params) (tint : Tint) (rate : F64) (s : State) : (noiseStep P tint rate s).NOISE_ST = (noiseDraw P tint rate s).1 := rfl
@[simp] theorem noiseStep_WT_N (P : Params) (tint : Tint) (rate : F64) (s : State) : (noiseStep P tint rate s).WT_N = s.WT_N := rfl
@[simp] theorem noiseStep_WT_L (P : Params) (tint : Tint) (rate : F64) (s : State) : (noiseStep P tint rate s).WT_L = s.WT_L := rfl
@[simp] theorem noiseStep_WT_R (P : Params) (tint : Tint) (rate : F64) (s : State) : (noiseStep P tint rate s).WT_R = s.WT_R := rfl
@[simp] theorem noiseStep_SHP_LAST_L (P : Params) (tint : Tint) (rate : F64) (s : State) : (noiseStep P tint rate s).SHP_LAST_L = s.SHP_LAST_L := rfl
@[simp] theorem noiseStep_SHP_LAST_R (P : Params) (tint : Tint) (rate : F64) (s : State) : (noiseStep P tint rate s).SHP_LAST_R = s.SHP_LAST_R := rfl
@[simp] theorem noiseStep_SHAPER_MAP (P : Params) (tint : Tint) (rate : F64) (s : State) : (noiseStep P tint rate s).SHAPER_MAP = s.SHAPER_MAP := rfl
@[simp] theorem noiseStep_stg (P : Params) (tint : Tint) (rate : F64) (s : State) : (noiseStep P tint rate s).stg = s.stg := rfl
@[simp] theorem noiseStep_MQ (P : Params) (tint : Tint) (rate : F64) (s : State) : (noiseStep P tint rate s).MQ = s.MQ := rfl
@[simp] theorem noiseStep_NS (P : Params) (tint : Tint) (rate : F64) (s : State) : (noiseStep P tint rate s).NS = s.NS := rfl
@[simp] theorem noiseStep_SNAP (P : Params) (tint : Tint) (rate : F64) (s : State) : (noiseStep P tint rate s).SNAP = s.SNAP := rfl
@[simp] theorem noiseStep_blk (P : Params) (tint : Tint) (rate : F64) (s : State) : (noiseStep P tint rate s).blk = s.blk := rfl
@[simp] theorem noiseStep_OUT (P : Params) (tint : Tint) (rate : F64) (s : State) : (noiseStep P tint rate s).OUT = s.OUT := rfl
@[simp] theorem noiseStep_AUDIO_IN (P : Params) (tint : Tint) (rate : F64) (s : State) : (noiseStep P tint rate s).AUDIO_IN = s.AUDIO_IN := rfl
@[simp] theorem noiseStep_CONTROL_IN (P : Params) (tint : Tint) (rate : F64) (s : State) : (noiseStep P tint rate s).CONTROL_IN = s.CONTROL_IN := rfl
@[simp] theorem noiseStep_AUDIO_RESP (P : Params) (tint : Tint) (rate : F64) (s : State) : (noiseStep P tint rate s).AUDIO_RESP = s.AUDIO_RESP := rfl
@[simp] theorem noiseStep_CONTROL_RESP (P : Params) (tint : Tint) (rate : F64) (s : State) : (noiseStep P tint rate s).CONTROL_RESP = s.CONTROL_RESP := rfl
@[simp] theorem noiseStep_PORT (P : Params) (tint : Tint) (rate : F64) (s : State) : (noiseStep P tint rate s).PORT = s.PORT := rfl
@[simp] theorem noiseStep_DRAWS (P : Params) (tint : Tint) (rate : F64) (s : State) : (noiseStep P tint rate s).DRAWS = s.DRAWS + 1 := rfl
@[simp] theorem noiseStep_MERGES (P : Params) (tint : Tint) (rate : F64) (s : State) : (noiseStep P tint rate s).MERGES = s.MERGES := rfl

/-! ### `tickEnvelope s` -/

@[simp] theorem tickEnvelope_READY (s : State) : (tickEnvelope s).READY = s.READY := rfl
@[simp] theorem tickEnvelope_SR (s : State) : (tickEnvelope s).SR = s.SR := rfl
@[simp] theorem tickEnvelope_DT (s : State) : (tickEnvelope s).DT = s.DT := rfl
@[simp] theorem tickEnvelope_BLOCK_SIZE (s : State) : (tickEnvelope s).BLOCK_SIZE = s.BLOCK_SIZE := rfl
@[simp] theorem tickEnvelope_FAULTS (s : State) : (tickEnvelope s).FAULTS = s.FAULTS := rfl
@[simp] theorem tickEnvelope_FAULT_INFO (s : State) : (tickEnvelope s).FAULT_INFO = s.FAULT_INFO := rfl
@[simp] theorem tickEnvelope_RESP (s : State) : (tickEnvelope s).RESP = s.RESP := rfl
@[simp] theorem tickEnvelope_par (s : State) : (tickEnvelope s).par = s.par := rfl
@[simp] theorem tickEnvelope_RMP_MOD (s : State) : (tickEnvelope s).RMP_MOD = s.RMP_MOD := rfl
@[simp] theorem tickEnvelope_RMP_RATE (s : State) : (tickEnvelope s).RMP_RATE = s.RMP_RATE := rfl
@[simp] theorem tickEnvelope_RMP_RANGE (s : State) : (tickEnvelope s).RMP_RANGE = s.RMP_RANGE := rfl
@[simp] theorem tickEnvelope_RMP_SHAPE (s : State) : (tickEnvelope s).RMP_SHAPE = s.RMP_SHAPE := rfl
@[simp] theorem tickEnvelope_env (s : State) : (tickEnvelope s).env = envTick s.par s.DT s.env := rfl
@[simp] theorem tickEnvelope_OSC_PHASE (s : State) : (tickEnvelope s).OSC_PHASE = s.OSC_PHASE := rfl
@[simp] theorem tickEnvelope_NOISE_ST (s : State) : (tickEnvelope s).NOISE_ST = s.NOISE_ST := rfl
@[simp] theorem tickEnvelope_WT_N (s : State) : (tickEnvelope s).WT_N = s.WT_N := rfl
@[simp] theorem tickEnvelope_WT_L (s : State) : (tickEnvelope s).WT_L = s.WT_L := rfl
@[simp] theorem tickEnvelope_WT_R (s : State) : (tickEnvelope s).WT_R = s.WT_R := rfl
@[simp] theorem tickEnvelope_SHP_LAST_L (s : State) : (tickEnvelope s).SHP_LAST_L = s.SHP_LAST_L := rfl
@[simp] theorem tickEnvelope_SHP_LAST_R (s : State) : (tickEnvelope s).SHP_LAST_R = s.SHP_LAST_R := rfl
@[simp] theorem tickEnvelope_SHAPER_MAP (s : State) : (tickEnvelope s).SHAPER_MAP = s.SHAPER_MAP := rfl
@[simp] theorem tickEnvelope_stg (s : State) : (tickEnvelope s).stg = s.stg := rfl
@[simp] theorem tickEnvelope_MQ (s : State) : (tickEnvelope s).MQ = s.MQ := rfl
@[simp] theorem tickEnvelope_NS (s : State) : (tickEnvelope s).NS = s.NS := rfl
@[simp] theorem tickEnvelope_SNAP (s : State) : (tickEnvelope s).SNAP = s.SNAP := rfl
@[simp] theorem tickEnvelope_blk (s : State) : (tickEnvelope s).blk = s.blk := rfl
@[simp] theorem tickEnvelope_OUT (s : State) : (tickEnvelope s).OUT = s.OUT := rfl
@[simp] theorem tickEnvelope_AUDIO_IN (s : State) : (tickEnvelope s).AUDIO_IN = s.AUDIO_IN := rfl
@[simp] theorem tickEnvelope_CONTROL_IN (s : State) : (tickEnvelope s).CONTROL_IN = s.CONTROL_IN := rfl
@[simp] theorem tickEnvelope_AUDIO_RESP (s : State) : (tickEnvelope s).AUDIO_RESP = s.AUDIO_RESP := rfl
@[simp] theorem tickEnvelope_CONTROL_RESP (s : State) : (tickEnvelope s).CONTROL_RESP = s.CONTROL_RESP := rfl
@[simp] theorem tickEnvelope_PORT (s : State) : (tickEnvelope s).PORT = s.PORT := rfl
@[simp] theorem tickEnvelope_DRAWS (s : State) : (tickEnvelope s).DRAWS = s.DRAWS := rfl
@[simp] theorem tickEnvelope_MERGES (s : State) : (tickEnvelope s).MERGES = s.MERGES := rfl

/-! ### `applyMod x s` -/

@[simp] theorem applyMod_READY (x : F64) (s : State) : (applyMod x s).READY = s.READY := rfl
@[simp] theorem applyMod_SR (x : F64) (s : State) : (applyMod x s).SR = s.SR := rfl
@[simp] theorem applyMod_DT (x : F64) (s : State) : (applyMod x s).DT = s.DT := rfl
@[simp] theorem applyMod_BLOCK_SIZE (x : F64) (s : State) : (applyMod x s).BLOCK_SIZE = s.BLOCK_SIZE := rfl
@[simp] theorem applyMod_FAULTS (x : F64) (s : State) : (applyMod x s).FAULTS = s.FAULTS := rfl
@[simp] theorem applyMod_FAULT_INFO (x : F64) (s : State) : (applyMod x s).FAULT_INFO = s.FAULT_INFO := rfl
@[simp] theorem applyMod_RESP (x : F64) (s : State) : (applyMod x s).RESP = s.RESP := rfl
@[simp] theorem applyMod_par (x : F64) (s : State) : (applyMod x s).par = { s.par with P_MOD := x } := rfl
@[simp] theorem applyMod_RMP_MOD (x : F64) (s : State) : (applyMod x s).RMP_MOD = rampActivate T_MOD s.RMP_MOD.cur x := rfl
@[simp] theorem applyMod_RMP_RATE (x : F64) (s : State) : (applyMod x s).RMP_RATE = s.RMP_RATE := rfl
@[simp] theorem applyMod_RMP_RANGE (x : F64) (s : State) : (applyMod x s).RMP_RANGE = s.RMP_RANGE := rfl
@[simp] theorem applyMod_RMP_SHAPE (x : F64) (s : State) : (applyMod x s).RMP_SHAPE = s.RMP_SHAPE := rfl
@[simp] theorem applyMod_env (x : F64) (s : State) : (applyMod x s).env = s.env := rfl
@[simp] theorem applyMod_OSC_PHASE (x : F64) (s : State) : (applyMod x s).OSC_PHASE = s.OSC_PHASE := rfl
@[simp] theorem applyMod_NOISE_ST (x : F64) (s : State) : (applyMod x s).NOISE_ST = s.NOISE_ST := rfl
@[simp] theorem applyMod_WT_N (x : F64) (s : State) : (applyMod x s).WT_N = s.WT_N := rfl
@[simp] theorem applyMod_WT_L (x : F64) (s : State) : (applyMod x s).WT_L = s.WT_L := rfl
@[simp] theorem applyMod_WT_R (x : F64) (s : State) : (applyMod x s).WT_R = s.WT_R := rfl
@[simp] theorem applyMod_SHP_LAST_L (x : F64) (s : State) : (applyMod x s).SHP_LAST_L = s.SHP_LAST_L := rfl
@[simp] theorem applyMod_SHP_LAST_R (x : F64) (s : State) : (applyMod x s).SHP_LAST_R = s.SHP_LAST_R := rfl
@[simp] theorem applyMod_SHAPER_MAP (x : F64) (s : State) : (applyMod x s).SHAPER_MAP = s.SHAPER_MAP := rfl
@[simp] theorem applyMod_stg (x : F64) (s : State) : (applyMod x s).stg = s.stg := rfl
@[simp] theorem applyMod_MQ (x : F64) (s : State) : (applyMod x s).MQ = s.MQ := rfl
@[simp] theorem applyMod_NS (x : F64) (s : State) : (applyMod x s).NS = s.NS := rfl
@[simp] theorem applyMod_SNAP (x : F64) (s : State) : (applyMod x s).SNAP = s.SNAP := rfl
@[simp] theorem applyMod_blk (x : F64) (s : State) : (applyMod x s).blk = s.blk := rfl
@[simp] theorem applyMod_OUT (x : F64) (s : State) : (applyMod x s).OUT = s.OUT := rfl
@[simp] theorem applyMod_AUDIO_IN (x : F64) (s : State) : (applyMod x s).AUDIO_IN = s.AUDIO_IN := rfl
@[simp] theorem applyMod_CONTROL_IN (x : F64) (s : State) : (applyMod x s).CONTROL_IN = s.CONTROL_IN := rfl
@[simp] theorem applyMod_AUDIO_RESP (x : F64) (s : State) : (applyMod x s).AUDIO_RESP = s.AUDIO_RESP := rfl
@[simp] theorem applyMod_CONTROL_RESP (x : F64) (s : State) : (applyMod x s).CONTROL_RESP = s.CONTROL_RESP := rfl
@[simp] theorem applyMod_PORT (x : F64) (s : State) : (applyMod x s).PORT = s.PORT := rfl
@[simp] theorem applyMod_DRAWS (x : F64) (s : State) : (applyMod x s).DRAWS = s.DRAWS := rfl
@[simp] theorem applyMod_MERGES (x : F64) (s : State) : (applyMod x s).MERGES = s.MERGES := rfl

/-! ### `applyRate x s` -/

@[simp] theorem applyRate_READY (x : F64) (s : State) : (applyRate x s).READY = s.READY := rfl
@[simp] theorem applyRate_SR (x : F64) (s : State) : (applyRate x s).SR = s.SR := rfl
@[simp] theorem applyRate_DT (x : F64) (s : State) : (applyRate x s).DT = s.DT := rfl
@[simp] theorem applyRate_BLOCK_SIZE (x : F64) (s : State) : (applyRate x s).BLOCK_SIZE = s.BLOCK_SIZE := rfl
@[simp] theorem applyRate_FAULTS (x : F64) (s : State) : (applyRate x s).FAULTS = s.FAULTS := rfl
@[simp] theorem applyRate_FAULT_INFO (x : F64) (s : State) : (applyRate x s).FAULT_INFO = s.FAULT_INFO := rfl
@[simp] theorem applyRate_RESP (x : F64) (s : State) : (applyRate x s).RESP = s.RESP := rfl
@[simp] theorem applyRate_par (x : F64) (s : State) : (applyRate x s).par = { s.par with P_RATE := x } := rfl
@[simp] theorem applyRate_RMP_MOD (x : F64) (s : State) : (applyRate x s).RMP_MOD = s.RMP_MOD := rfl
@[simp] theorem applyRate_RMP_RATE (x : F64) (s : State) : (applyRate x s).RMP_RATE = rampActivate (if s.NS.length > 0 then T_RATE else f0) s.RMP_RATE.cur x := rfl
@[simp] theorem applyRate_RMP_RANGE (x : F64) (s : State) : (applyRate x s).RMP_RANGE = s.RMP_RANGE := rfl
@[simp] theorem applyRate_RMP_SHAPE (x : F64) (s : State) : (applyRate x s).RMP_SHAPE = s.RMP_SHAPE := rfl
@[simp] theorem applyRate_env (x : F64) (s : State) : (applyRate x s).env = s.env := rfl
@[simp] theorem applyRate_OSC_PHASE (x : F64) (s : State) : (applyRate x s).OSC_PHASE = s.OSC_PHASE := rfl
@[simp] theorem applyRate_NOISE_ST (x : F64) (s : State) : (applyRate x s).NOISE_ST = s.NOISE_ST := rfl
@[simp] theorem applyRate_WT_N (x : F64) (s : State) : (applyRate x s).WT_N = s.WT_N := rfl
@[simp] theorem applyRate_WT_L (x : F64) (s : State) : (applyRate x s).WT_L = s.WT_L := rfl
@[simp] theorem applyRate_WT_R (x : F64) (s : State) : (applyRate x s).WT_R = s.WT_R := rfl
@[simp] theorem applyRate_SHP_LAST_L (x : F64) (s : State) : (applyRate x s).SHP_LAST_L = s.SHP_LAST_L := rfl
@[simp] theorem applyRate_SHP_LAST_R (x : F64) (s : State) : (applyRate x s).SHP_LAST_R = s.SHP_LAST_R := rfl
@[simp] theorem applyRate_SHAPER_MAP (x : F64) (s : State) : (applyRate x s).SHAPER_MAP = s.SHAPER_MAP := rfl
@[simp] theorem applyRate_stg (x : F64) (s : State) : (applyRate x s).stg = s.stg := rfl
@[simp] theorem applyRate_MQ (x : F64) (s : State) : (applyRate x s).MQ = s.MQ := rfl
@[simp] theorem applyRate_NS (x : F64) (s : State) : (applyRate x s).NS = s.NS := rfl
@[simp] theorem applyRate_SNAP (x : F64) (s : State) : (applyRate x s).SNAP = s.SNAP := rfl
@[simp] theorem applyRate_blk (x : F64) (s : State) : (applyRate x s).blk = s.blk := rfl
@[simp] theorem applyRate_OUT (x : F64) (s : State) : (applyRate x s).OUT = s.OUT := rfl
@[simp] theorem applyRate_AUDIO_IN (x : F64) (s : State) : (applyRate x s).AUDIO_IN = s.AUDIO_IN := rfl
@[simp] theorem applyRate_CONTROL_IN (x : F64) (s : State) : (applyRate x s).CONTROL_IN = s.CONTROL_IN := rfl
@[simp] theorem applyRate_AUDIO_RESP (x : F64) (s : State) : (applyRate x s).AUDIO_RESP = s.AUDIO_RESP := rfl
@[simp] theorem applyRate_CONTROL_RESP (x : F64) (s : State) : (applyRate x s).CONTROL_RESP = s.CONTROL_RESP := rfl
@[simp] theorem applyRate_PORT (x : F64) (s : State) : (applyRate x s).PORT = s.PORT := rfl
@[simp] theorem applyRate_DRAWS (x : F64) (s : State) : (applyRate x s).DRAWS = s.DRAWS := rfl
@[simp] theorem applyRate_MERGES (x : F64) (s : State) : (applyRate x s).MERGES = s.MERGES := rfl

/-! ### `applyRange x s` -/

@[simp] theorem applyRange_READY (x : F64) (s : State) : (applyRange x s).READY = s.READY := rfl
@[simp] theorem applyRange_SR (x : F64) (s : State) : (applyRange x s).SR = s.SR := rfl
@[simp] theorem applyRange_DT (x : F64) (s : State) : (applyRange x s).DT = s.DT := rfl
@[simp] theorem applyRange_BLOCK_SIZE (x : F64) (s : State) : (applyRange x s).BLOCK_SIZE = s.BLOCK_SIZE := rfl
@[simp] theorem applyRange_FAULTS (x : F64) (s : State) : (applyRange x s).FAULTS = s.FAULTS := rfl
@[simp] theorem applyRange_FAULT_INFO (x : F64) (s : State) : (applyRange x s).FAULT_INFO = s.FAULT_INFO := rfl
@[simp] theorem applyRange_RESP (x : F64) (s : State) : (applyRange x s).RESP = s.RESP := rfl
@[simp] theorem applyRange_par (x : F64) (s : State) : (applyRange x s).par = { s.par with P_RANGE := x } := rfl
@[simp] theorem applyRange_RMP_MOD (x : F64) (s : State) : (applyRange x s).RMP_MOD = s.RMP_MOD := rfl
@[simp] theorem applyRange_RMP_RATE (x : F64) (s : State) : (applyRange x s).RMP_RATE = s.RMP_RATE := rfl
@[simp] theorem applyRange_RMP_RANGE (x : F64) (s : State) : (applyRange x s).RMP_RANGE = rampActivate T_RANGE s.RMP_RANGE.cur x := rfl
@[simp] theorem applyRange_RMP_SHAPE (x : F64) (s : State) : (applyRange x s).RMP_SHAPE = s.RMP_SHAPE := rfl
@[simp] theorem applyRange_env (x : F64) (s : State) : (applyRange x s).env = s.env := rfl
@[simp] theorem applyRange_OSC_PHASE (x : F64) (s : State) : (applyRange x s).OSC_PHASE = s.OSC_PHASE := rfl
@[simp] theorem applyRange_NOISE_ST (x : F64) (s : State) : (applyRange x s).NOISE_ST = s.NOISE_ST := rfl
@[simp] theorem applyRange_WT_N (x : F64) (s : State) : (applyRange x s).WT_N = s.WT_N := rfl
@[simp] theorem applyRange_WT_L (x : F64) (s : State) : (applyRange x s).WT_L = s.WT_L := rfl
@[simp] theorem applyRange_WT_R (x : F64) (s : State) : (applyRange x s).WT_R = s.WT_R := rfl
@[simp] theorem applyRange_SHP_LAST_L (x : F64) (s : State) : (applyRange x s).SHP_LAST_L = s.SHP_LAST_L := rfl
@[simp] theorem applyRange_SHP_LAST_R (x : F64) (s : State) : (applyRange x s).SHP_LAST_R = s.SHP_LAST_R := rfl
@[simp] theorem applyRange_SHAPER_MAP (x : F64) (s : State) : (applyRange x s).SHAPER_MAP = s.SHAPER_MAP := rfl
@[simp] theorem applyRange_stg (x : F64) (s : State) : (applyRange x s).stg = s.stg := rfl
@[simp] theorem applyRange_MQ (x : F64) (s : State) : (applyRange x s).MQ = s.MQ := rfl
@[simp] theorem applyRange_NS (x : F64) (s : State) : (applyRange x s).NS = s.NS := rfl
@[simp] theorem applyRange_SNAP (x : F64) (s : State) : (applyRange x s).SNAP = s.SNAP := rfl
@[simp] theorem applyRange_blk (x : F64) (s : State) : (applyRange x s).blk = s.blk := rfl
@[simp] theorem applyRange_OUT (x : F64) (s : State) : (applyRange x s).OUT = s.OUT := rfl
@[simp] theorem applyRange_AUDIO_IN (x : F64) (s : State) : (applyRange x s).AUDIO_IN = s.AUDIO_IN := rfl
@[simp] theorem applyRange_CONTROL_IN (x : F64) (s : State) : (applyRange x s).CONTROL_IN = s.CONTROL_IN := rfl
@[simp] theorem applyRange_AUDIO_RESP (x : F64) (s : State) : (applyRange x s).AUDIO_RESP = s.AUDIO_RESP := rfl
@[simp] theorem applyRange_CONTROL_RESP (x : F64) (s : State) : (applyRange x s).CONTROL_RESP = s.CONTROL_RESP := rfl
@[simp] theorem applyRange_PORT (x : F64) (s : State) : (applyRange x s).PORT = s.PORT := rfl
@[simp] theorem applyRange_DRAWS (x : F64) (s : State) : (applyRange x s).DRAWS = s.DRAWS := rfl
@[simp] theorem applyRange_MERGES (x : F64) (s : State) : (applyRange x s).MERGES = s.MERGES := rfl

/-! ### `applyShape x s` -/

@[simp] theorem applyShape_READY (x : F64) (s : State) : (applyShape x s).READY = s.READY := rfl
@[simp] theorem applyShape_SR (x : F64) (s : State) : (applyShape x s).SR = s.SR := rfl
@[simp] theorem applyShape_DT (x : F64) (s : State) : (applyShape x s).DT = s.DT := rfl
@[simp] theorem applyShape_BLOCK_SIZE (x : F64) (s : State) : (applyShape x s).BLOCK_SIZE = s.BLOCK_SIZE := rfl
@[simp] theorem applyShape_FAULTS (x : F64) (s : State) : (applyShape x s).FAULTS = s.FAULTS := rfl
@[simp] theorem applyShape_FAULT_INFO (x : F64) (s : State) : (applyShape x s).FAULT_INFO = s.FAULT_INFO := rfl
@[simp] theorem applyShape_RESP (x : F64) (s : State) : (applyShape x s).RESP = s.RESP := rfl
@[simp] theorem applyShape_par (x : F64) (s : State) : (applyShape x s).par = { s.par with P_SHAPE := x } := rfl
@[simp] theorem applyShape_RMP_MOD (x : F64) (s : State) : (applyShape x s).RMP_MOD = s.RMP_MOD := rfl
@[simp] theorem applyShape_RMP_RATE (x : F64) (s : State) : (applyShape x s).RMP_RATE = s.RMP_RATE := rfl
@[simp] theorem applyShape_RMP_RANGE (x : F64) (s : State) : (applyShape x s).RMP_RANGE = s.RMP_RANGE := rfl
@[simp] theorem applyShape_RMP_SHAPE (x : F64) (s : State) : (applyShape x s).RMP_SHAPE = rampActivate T_SHAPE s.RMP_SHAPE.cur x := rfl
@[simp] theorem applyShape_env (x : F64) (s : State) : (applyShape x s).env = s.env := rfl
@[simp] theorem applyShape_OSC_PHASE (x : F64) (s : State) : (applyShape x s).OSC_PHASE = s.OSC_PHASE := rfl
@[simp] theorem applyShape_NOISE_ST (x : F64) (s : State) : (applyShape x s).NOISE_ST = s.NOISE_ST := rfl
@[simp] theorem applyShape_WT_N (x : F64) (s : State) : (applyShape x s).WT_N = s.WT_N := rfl
@[simp] theorem applyShape_WT_L (x : F64) (s : State) : (applyShape x s).WT_L = s.WT_L := rfl
@[simp] theorem applyShape_WT_R (x : F64) (s : State) : (applyShape x s).WT_R = s.WT_R := rfl
@[simp] theorem applyShape_SHP_LAST_L (x : F64) (s : State) : (applyShape x s).SHP_LAST_L = s.SHP_LAST_L := rfl
@[simp] theorem applyShape_SHP_LAST_R (x : F64) (s : State) : (applyShape x s).SHP_LAST_R = s.SHP_LAST_R := rfl
@[simp] theorem applyShape_SHAPER_MAP (x : F64) (s : State) : (applyShape x s).SHAPER_MAP = s.SHAPER_MAP := rfl
@[simp] theorem applyShape_stg (x : F64) (s : State) : (applyShape x s).stg = s.stg := rfl
@[simp] theorem applyShape_MQ (x : F64) (s : State) : (applyShape x s).MQ = s.MQ := rfl
@[simp] theorem applyShape_NS (x : F64) (s : State) : (applyShape x s).NS = s.NS := rfl
@[simp] theorem applyShape_SNAP (x : F64) (s : State) : (applyShape x s).SNAP = s.SNAP := rfl
@[simp] theorem applyShape_blk (x : F64) (s : State) : (applyShape x s).blk = s.blk := rfl
@[simp] theorem applyShape_OUT (x : F64) (s : State) : (applyShape x s).OUT = s.OUT := rfl
@[simp] theorem applyShape_AUDIO_IN (x : F64) (s : State) : (applyShape x s).AUDIO_IN = s.AUDIO_IN := rfl
@[simp] theorem applyShape_CONTROL_IN (x : F64) (s : State) : (applyShape x s).CONTROL_IN = s.CONTROL_IN := rfl
@[simp] theorem applyShape_AUDIO_RESP (x : F64) (s : State) : (applyShape x s).AUDIO_RESP = s.AUDIO_RESP := rfl
@[simp] theorem applyShape_CONTROL_RESP (x : F64) (s : State) : (applyShape x s).CONTROL_RESP = s.CONTROL_RESP := rfl
@[simp] theorem applyShape_PORT (x : F64) (s : State) : (applyShape x s).PORT = s.PORT := rfl
@[simp] theorem applyShape_DRAWS (x : F64) (s : State) : (applyShape x s).DRAWS = s.DRAWS := rfl
@[simp] theorem applyShape_MERGES (x : F64) (s : State) : (applyShape x s).MERGES = s.MERGES := rfl

/-! ### `takeCommand .audio rest s` -/

@[simp] theorem takeAudio_READY (rest : List Byte) (s : State) : (takeCommand .audio rest s).READY = s.READY := rfl
@[simp] theorem takeAudio_SR (rest : List Byte) (s : State) : (takeCommand .audio rest s).SR = s.SR := rfl
@[simp] theorem takeAudio_DT (rest : List Byte) (s : State) : (takeCommand .audio rest s).DT = s.DT := rfl
@[simp] theorem takeAudio_BLOCK_SIZE (rest : List Byte) (s : State) : (takeCommand .audio rest s).BLOCK_SIZE = s.BLOCK_SIZE := rfl
@[simp] theorem takeAudio_FAULTS (rest : List Byte) (s : State) : (takeCommand .audio rest s).FAULTS = s.FAULTS := rfl
@[simp] theorem takeAudio_FAULT_INFO (rest : List Byte) (s : State) : (takeCommand .audio rest s).FAULT_INFO = s.FAULT_INFO := rfl
@[simp] theorem takeAudio_RESP (rest : List Byte) (s : State) : (takeCommand .audio rest s).RESP = s.RESP := rfl
@[simp] theorem takeAudio_par (rest : List Byte) (s : State) : (takeCommand .audio rest s).par = s.par := rfl
@[simp] theorem takeAudio_RMP_MOD (rest : List Byte) (s : State) : (takeCommand .audio rest s).RMP_MOD = s.RMP_MOD := rfl
@[simp] theorem takeAudio_RMP_RATE (rest : List Byte) (s : State) : (takeCommand .audio rest s).RMP_RATE = s.RMP_RATE := rfl
@[simp] theorem takeAudio_RMP_RANGE (rest : List Byte) (s : State) : (takeCommand .audio rest s).RMP_RANGE = s.RMP_RANGE := rfl
@[simp] theorem takeAudio_RMP_SHAPE (rest : List Byte) (s : State) : (takeCommand .audio rest s).RMP_SHAPE = s.RMP_SHAPE := rfl
@[simp] theorem takeAudio_env (rest : List Byte) (s : State) : (takeCommand .audio rest s).env = s.env := rfl
@[simp] theorem takeAudio_OSC_PHASE (rest : List Byte) (s : State) : (takeCommand .audio rest s).OSC_PHASE = s.OSC_PHASE := rfl
@[simp] theorem takeAudio_NOISE_ST (rest : List Byte) (s : State) : (takeCommand .audio rest s).NOISE_ST = s.NOISE_ST := rfl
@[simp] theorem takeAudio_WT_N (rest : List Byte) (s : State) : (takeCommand .audio rest s).WT_N = s.WT_N := rfl
@[simp] theorem takeAudio_WT_L (rest : List Byte) (s : State) : (takeCommand .audio rest s).WT_L = s.WT_L := rfl
@[simp] theorem takeAudio_WT_R (rest : List Byte) (s : State) : (takeCommand .audio rest s).WT_R = s.WT_R := rfl
@[simp] theorem takeAudio_SHP_LAST_L (rest : List Byte) (s : State) : (takeCommand .audio rest s).SHP_LAST_L = s.SHP_LAST_L := rfl
@[simp] theorem takeAudio_SHP_LAST_R (rest : List Byte) (s : State) : (takeCommand .audio rest s).SHP_LAST_R = s.SHP_LAST_R := rfl
@[simp] theorem takeAudio_SHAPER_MAP (rest : List Byte) (s : State) : (takeCommand .audio rest s).SHAPER_MAP = s.SHAPER_MAP := rfl
@[simp] theorem takeAudio_stg (rest : List Byte) (s : State) : (takeCommand .audio rest s).stg = s.stg := rfl
@[simp] theorem takeAudio_MQ (rest : List Byte) (s : State) : (takeCommand .audio rest s).MQ = s.MQ := rfl
@[simp] theorem takeAudio_NS (rest : List Byte) (s : State) : (takeCommand .audio rest s).NS = s.NS := rfl
@[simp] theorem takeAudio_SNAP (rest : List Byte) (s : State) : (takeCommand .audio rest s).SNAP = s.SNAP := rfl
@[simp] theorem takeAudio_blk (rest : List Byte) (s : State) : (takeCommand .audio rest s).blk = s.blk := rfl
@[simp] theorem takeAudio_OUT (rest : List Byte) (s : State) : (takeCommand .audio rest s).OUT = s.OUT := rfl
@[simp] theorem takeAudio_AUDIO_IN (rest : List Byte) (s : State) : (takeCommand .audio rest s).AUDIO_IN = rest := rfl
@[simp] theorem takeAudio_CONTROL_IN (rest : List Byte) (s : State) : (takeCommand .audio rest s).CONTROL_IN = s.CONTROL_IN := rfl
@[simp] theorem takeAudio_AUDIO_RESP (rest : List Byte) (s : State) : (takeCommand .audio rest s).AUDIO_RESP = s.AUDIO_RESP := rfl
@[simp] theorem takeAudio_CONTROL_RESP (rest : List Byte) (s : State) : (takeCommand .audio rest s).CONTROL_RESP = s.CONTROL_RESP := rfl
@[simp] theorem takeAudio_PORT (rest : List Byte) (s : State) : (takeCommand .audio rest s).PORT = .audio := rfl
@[simp] theorem takeAudio_DRAWS (rest : List Byte) (s : State) : (takeCommand .audio rest s).DRAWS = s.DRAWS := rfl
@[simp] theorem takeAudio_MERGES (rest : List Byte) (s : State) : (takeCommand .audio rest s).MERGES = s.MERGES := rfl

/-! ### `takeCommand .control rest s` -/

@[simp] theorem takeControl_READY (rest : List Byte) (s : State) : (takeCommand .control rest s).READY = s.READY := rfl
@[simp] theorem takeControl_SR (rest : List Byte) (s : State) : (takeCommand .control rest s).SR = s.SR := rfl
@[simp] theorem takeControl_DT (rest : List Byte) (s : State) : (takeCommand .control rest s).DT = s.DT := rfl
@[simp] theorem takeControl_BLOCK_SIZE (rest : List Byte) (s : State) : (takeCommand .control rest s).BLOCK_SIZE = s.BLOCK_SIZE := rfl
@[simp] theorem takeControl_FAULTS (rest : List Byte) (s : State) : (takeCommand .control rest s).FAULTS = s.FAULTS := rfl
@[simp] theorem takeControl_FAULT_INFO (rest : List Byte) (s : State) : (takeCommand .control rest s).FAULT_INFO = s.FAULT_INFO := rfl
@[simp] theorem takeControl_RESP (rest : List Byte) (s : State) : (takeCommand .control rest s).RESP = s.RESP := rfl
@[simp] theorem takeControl_par (rest : List Byte) (s : State) : (takeCommand .control rest s).par = s.par := rfl
@[simp] theorem takeControl_RMP_MOD (rest : List Byte) (s : State) : (takeCommand .control rest s).RMP_MOD = s.RMP_MOD := rfl
@[simp] theorem takeControl_RMP_RATE (rest : List Byte) (s : State) : (takeCommand .control rest s).RMP_RATE = s.RMP_RATE := rfl
@[simp] theorem takeControl_RMP_RANGE (rest : List Byte) (s : State) : (takeCommand .control rest s).RMP_RANGE = s.RMP_RANGE := rfl
@[simp] theorem takeControl_RMP_SHAPE (rest : List Byte) (s : State) : (takeCommand .control rest s).RMP_SHAPE = s.RMP_SHAPE := rfl
@[simp] theorem takeControl_env (rest : List Byte) (s : State) : (takeCommand .control rest s).env = s.env := rfl
@[simp] theorem takeControl_OSC_PHASE (rest : List Byte) (s : State) : (takeCommand .control rest s).OSC_PHASE = s.OSC_PHASE := rfl
@[simp] theorem takeControl_NOISE_ST (rest : List Byte) (s : State) : (takeCommand .control rest s).NOISE_ST = s.NOISE_ST := rfl
@[simp] theorem takeControl_WT_N (rest : List Byte) (s : State) : (takeCommand .control rest s).WT_N = s.WT_N := rfl
@[simp] theorem takeControl_WT_L (rest : List Byte) (s : State) : (takeCommand .control rest s).WT_L = s.WT_L := rfl
@[simp] theorem takeControl_WT_R (rest : List Byte) (s : State) : (takeCommand .control rest s).WT_R = s.WT_R := rfl
@[simp] theorem takeControl_SHP_LAST_L (rest : List Byte) (s : State) : (takeCommand .control rest s).SHP_LAST_L = s.SHP_LAST_L := rfl
@[simp] theorem takeControl_SHP_LAST_R (rest : List Byte) (s : State) : (takeCommand .control rest s).SHP_LAST_R = s.SHP_LAST_R := rfl
@[simp] theorem takeControl_SHAPER_MAP (rest : List Byte) (s : State) : (takeCommand .control rest s).SHAPER_MAP = s.SHAPER_MAP := rfl
@[simp] theorem takeControl_stg (rest : List Byte) (s : State) : (takeCommand .control rest s).stg = s.stg := rfl
@[simp] theorem takeControl_MQ (rest : List Byte) (s : State) : (takeCommand .control rest s).MQ = s.MQ := rfl
@[simp] theorem takeControl_NS (rest : List Byte) (s : State) : (takeCommand .control rest s).NS = s.NS := rfl
@[simp] theorem takeControl_SNAP (rest : List Byte) (s : State) : (takeCommand .control rest s).SNAP = s.SNAP := rfl
@[simp] theorem takeControl_blk (rest : List Byte) (s : State) : (takeCommand .control rest s).blk = s.blk := rfl
@[simp] theorem takeControl_OUT (rest : List Byte) (s : State) : (takeCommand .control rest s).OUT = s.OUT := rfl
@[simp] theorem takeControl_AUDIO_IN (rest : List Byte) (s : State) : (takeCommand .control rest s).AUDIO_IN = s.AUDIO_IN := rfl
@[simp] theorem takeControl_CONTROL_IN (rest : List Byte) (s : State) : (takeCommand .control rest s).CONTROL_IN = rest := rfl
@[simp] theorem takeControl_AUDIO_RESP (rest : List Byte) (s : State) : (takeCommand .control rest s).AUDIO_RESP = s.AUDIO_RESP := rfl
@[simp] theorem takeControl_CONTROL_RESP (rest : List Byte) (s : State) : (takeCommand .control rest s).CONTROL_RESP = s.CONTROL_RESP := rfl
@[simp] theorem takeControl_PORT (rest : List Byte) (s : State) : (takeCommand .control rest s).PORT = .control := rfl
@[simp] theorem takeControl_DRAWS (rest : List Byte) (s : State) : (takeCommand .control rest s).DRAWS = s.DRAWS := rfl
@[simp] theorem takeControl_MERGES (rest : List Byte) (s : State) : (takeCommand .control rest s).MERGES = s.MERGES := rfl

/-! ### `deliver .audio s` -/

@[simp] theorem deliverAudio_READY (s : State) : (deliver .audio s).READY = s.READY := rfl
@[simp] theorem deliverAudio_SR (s : State) : (deliver .audio s).SR = s.SR := rfl
@[simp] theorem deliverAudio_DT (s : State) : (deliver .audio s).DT = s.DT := rfl
@[simp] theorem deliverAudio_BLOCK_SIZE (s : State) : (deliver .audio s).BLOCK_SIZE = s.BLOCK_SIZE := rfl
@[simp] theorem deliverAudio_FAULTS (s : State) : (deliver .audio s).FAULTS = s.FAULTS := rfl
@[simp] theorem deliverAudio_FAULT_INFO (s : State) : (deliver .audio s).FAULT_INFO = s.FAULT_INFO := rfl
@[simp] theorem deliverAudio_RESP (s : State) : (deliver .audio s).RESP = s.RESP := rfl
@[simp] theorem deliverAudio_par (s : State) : (deliver .audio s).par = s.par := rfl
@[simp] theorem deliverAudio_RMP_MOD (s : State) : (deliver .audio s).RMP_MOD = s.RMP_MOD := rfl
@[simp] theorem deliverAudio_RMP_RATE (s : State) : (deliver .audio s).RMP_RATE = s.RMP_RATE := rfl
@[simp] theorem deliverAudio_RMP_RANGE (s : State) : (deliver .audio s).RMP_RANGE = s.RMP_RANGE := rfl
@[simp] theorem deliverAudio_RMP_SHAPE (s : State) : (deliver .audio s).RMP_SHAPE = s.RMP_SHAPE := rfl
@[simp] theorem deliverAudio_env (s : State) : (deliver .audio s).env = s.env := rfl
@[simp] theorem deliverAudio_OSC_PHASE (s : State) : (deliver .audio s).OSC_PHASE = s.OSC_PHASE := rfl
@[simp] theorem deliverAudio_NOISE_ST (s : State) : (deliver .audio s).NOISE_ST = s.NOISE_ST := rfl
@[simp] theorem deliverAudio_WT_N (s : State) : (deliver .audio s).WT_N = s.WT_N := rfl
@[simp] theorem deliverAudio_WT_L (s : State) : (deliver .audio s).WT_L = s.WT_L := rfl
@[simp] theorem deliverAudio_WT_R (s : State) : (deliver .audio s).WT_R = s.WT_R := rfl
@[simp] theorem deliverAudio_SHP_LAST_L (s : State) : (deliver .audio s).SHP_LAST_L = s.SHP_LAST_L := rfl
@[simp] theorem deliverAudio_SHP_LAST_R (s : State) : (deliver .audio s).SHP_LAST_R = s.SHP_LAST_R := rfl
@[simp] theorem deliverAudio_SHAPER_MAP (s : State) : (deliver .audio s).SHAPER_MAP = s.SHAPER_MAP := rfl
@[simp] theorem deliverAudio_stg (s : State) : (deliver .audio s).stg = s.stg := rfl
@[simp] theorem deliverAudio_MQ (s : State) : (deliver .audio s).MQ = s.MQ := rfl
@[simp] theorem deliverAudio_NS (s : State) : (deliver .audio s).NS = s.NS := rfl
@[simp] theorem deliverAudio_SNAP (s : State) : (deliver .audio s).SNAP = s.SNAP := rfl
@[simp] theorem deliverAudio_blk (s : State) : (deliver .audio s).blk = s.blk := rfl
@[simp] theorem deliverAudio_OUT (s : State) : (deliver .audio s).OUT = s.OUT := rfl
@[simp] theorem deliverAudio_AUDIO_IN (s : State) : (deliver .audio s).AUDIO_IN = s.AUDIO_IN := rfl
@[simp] theorem deliverAudio_CONTROL_IN (s : State) : (deliver .audio s).CONTROL_IN = s.CONTROL_IN := rfl
@[simp] theorem deliverAudio_AUDIO_RESP (s : State) : (deliver .audio s).AUDIO_RESP = s.AUDIO_RESP ++ [s.RESP] := rfl
@[simp] theorem deliverAudio_CONTROL_RESP (s : State) : (deliver .audio s).CONTROL_RESP = s.CONTROL_RESP := rfl
@[simp] theorem deliverAudio_PORT (s : State) : (deliver .audio s).PORT = s.PORT := rfl
@[simp] theorem deliverAudio_DRAWS (s : State) : (deliver .audio s).DRAWS = s.DRAWS := rfl
@[simp] theorem deliverAudio_MERGES (s : State) : (deliver .audio s).MERGES = s.MERGES := rfl

/-! ### `deliver .control s` -/

@[simp] theorem deliverControl_READY (s : State) : (deliver .control s).READY = s.READY := rfl
@[simp] theorem deliverControl_SR (s : State) : (deliver .control s).SR = s.SR := rfl
@[simp] theorem deliverControl_DT (s : State) : (deliver .control s).DT = s.DT := rfl
@[simp] theorem deliverControl_BLOCK_SIZE (s : State) : (deliver .control s).BLOCK_SIZE = s.BLOCK_SIZE := rfl
@[simp] theorem deliverControl_FAULTS (s : State) : (deliver .control s).FAULTS = s.FAULTS := rfl
@[simp] theorem deliverControl_FAULT_INFO (s : State) : (deliver .control s).FAULT_INFO = s.FAULT_INFO := rfl
@[simp] theorem deliverControl_RESP (s : State) : (deliver .control s).RESP = s.RESP := rfl
@[simp] theorem deliverControl_par (s : State) : (deliver .control s).par = s.par := rfl
@[simp] theorem deliverControl_RMP_MOD (s : State) : (deliver .control s).RMP_MOD = s.RMP_MOD := rfl
@[simp] theorem deliverControl_RMP_RATE (s : State) : (deliver .control s).RMP_RATE = s.RMP_RATE := rfl
@[simp] theorem deliverControl_RMP_RANGE (s : State) : (deliver .control s).RMP_RANGE = s.RMP_RANGE := rfl
@[simp] theorem deliverControl_RMP_SHAPE (s : State) : (deliver .control s).RMP_SHAPE = s.RMP_SHAPE := rfl
@[simp] theorem deliverControl_env (s : State) : (deliver .control s).env = s.env := rfl
@[simp] theorem deliverControl_OSC_PHASE (s : State) : (deliver .control s).OSC_PHASE = s.OSC_PHASE := rfl
@[simp] theorem deliverControl_NOISE_ST (s : State) : (deliver .control s).NOISE_ST = s.NOISE_ST := rfl
@[simp] theorem deliverControl_WT_N (s : State) : (deliver .control s).WT_N = s.WT_N := rfl
@[simp] theorem deliverControl_WT_L (s : State) : (deliver .control s).WT_L = s.WT_L := rfl
@[simp] theorem deliverControl_WT_R (s : State) : (deliver .control s).WT_R = s.WT_R := rfl
@[simp] theorem deliverControl_SHP_LAST_L (s : State) : (deliver .control s).SHP_LAST_L = s.SHP_LAST_L := rfl
@[simp] theorem deliverControl_SHP_LAST_R (s : State) : (deliver .control s).SHP_LAST_R = s.SHP_LAST_R := rfl
@[simp] theorem deliverControl_SHAPER_MAP (s : State) : (deliver .control s).SHAPER_MAP = s.SHAPER_MAP := rfl
@[simp] theorem deliverControl_stg (s : State) : (deliver .control s).stg = s.stg := rfl
@[simp] theorem deliverControl_MQ (s : State) : (deliver .control s).MQ = s.MQ := rfl
@[simp] theorem deliverControl_NS (s : State) : (deliver .control s).NS = s.NS := rfl
@[simp] theorem deliverControl_SNAP (s : State) : (deliver .control s).SNAP = s.SNAP := rfl
@[simp] theorem deliverControl_blk (s : State) : (deliver .control s).blk = s.blk := rfl
@[simp] theorem deliverControl_OUT (s : State) : (deliver .control s).OUT = s.OUT := rfl
@[simp] theorem deliverControl_AUDIO_IN (s : State) : (deliver .control s).AUDIO_IN = s.AUDIO_IN := rfl
@[simp] theorem deliverControl_CONTROL_IN (s : State) : (deliver .control s).CONTROL_IN = s.CONTROL_IN := rfl
@[simp] theorem deliverControl_AUDIO_RESP (s : State) : (deliver .control s).AUDIO_RESP = s.AUDIO_RESP := rfl
@[simp] theorem deliverControl_CONTROL_RESP (s : State) : (deliver .control s).CONTROL_RESP = s.CONTROL_RESP ++ [s.RESP] := rfl
@[simp] theorem deliverControl_PORT (s : State) : (deliver .control s).PORT = s.PORT := rfl
@[simp] theorem deliverControl_DRAWS (s : State) : (deliver .control s).DRAWS = s.DRAWS := rfl
@[simp] theorem deliverControl_MERGES (s : State) : (deliver .control s).MERGES = s.MERGES := rfl

/-! ### `blockEnd s` -/

@[simp] theorem blockEnd_READY (s : State) : (blockEnd s).READY = s.READY := rfl
@[simp] theorem blockEnd_SR (s : State) : (blockEnd s).SR = s.SR := rfl
@[simp] theorem blockEnd_DT (s : State) : (blockEnd s).DT = s.DT := rfl
@[simp] theorem blockEnd_BLOCK_SIZE (s : State) : (blockEnd s).BLOCK_SIZE = s.BLOCK_SIZE := rfl
@[simp] theorem blockEnd_FAULTS (s : State) : (blockEnd s).FAULTS = s.FAULTS := rfl
@[simp] theorem blockEnd_FAULT_INFO (s : State) : (blockEnd s).FAULT_INFO = s.FAULT_INFO := rfl
@[simp] theorem blockEnd_RESP (s : State) : (blockEnd s).RESP = 0#64 := rfl
@[simp] theorem blockEnd_par (s : State) : (blockEnd s).par = s.par := rfl
@[simp] theorem blockEnd_RMP_MOD (s : State) : (blockEnd s).RMP_MOD = s.RMP_MOD := rfl
@[simp] theorem blockEnd_RMP_RATE (s : State) : (blockEnd s).RMP_RATE = s.RMP_RATE := rfl
@[simp] theorem blockEnd_RMP_RANGE (s : State) : (blockEnd s).RMP_RANGE = s.RMP_RANGE := rfl
@[simp] theorem blockEnd_RMP_SHAPE (s : State) : (blockEnd s).RMP_SHAPE = s.RMP_SHAPE := rfl
@[simp] theorem blockEnd_env (s : State) : (blockEnd s).env = s.env := rfl
@[simp] theorem blockEnd_OSC_PHASE (s : State) : (blockEnd s).OSC_PHASE = s.OSC_PHASE := rfl
@[simp] theorem blockEnd_NOISE_ST (s : State) : (blockEnd s).NOISE_ST = s.NOISE_ST := rfl
@[simp] theorem blockEnd_WT_N (s : State) : (blockEnd s).WT_N = s.WT_N := rfl
@[simp] theorem blockEnd_WT_L (s : State) : (blockEnd s).WT_L = s.WT_L := rfl
@[simp] theorem blockEnd_WT_R (s : State) : (blockEnd s).WT_R = s.WT_R := rfl
@[simp] theorem blockEnd_SHP_LAST_L (s : State) : (blockEnd s).SHP_LAST_L = s.SHP_LAST_L := rfl
@[simp] theorem blockEnd_SHP_LAST_R (s : State) : (blockEnd s).SHP_LAST_R = s.SHP_LAST_R := rfl
@[simp] theorem blockEnd_SHAPER_MAP (s : State) : (blockEnd s).SHAPER_MAP = if 1 ≤ s.blk.BLK_N.toNat then s.SHP_LAST_L else s.SHAPER_MAP := rfl
@[simp] theorem blockEnd_stg (s : State) : (blockEnd s).stg = s.stg := rfl
@[simp] theorem blockEnd_MQ (s : State) : (blockEnd s).MQ = offsetCarry s.blk.BLK_N s.MQ := rfl
@[simp] theorem blockEnd_NS (s : State) : (blockEnd s).NS = s.NS := rfl
@[simp] theorem blockEnd_SNAP (s : State) : (blockEnd s).SNAP = s.SNAP := rfl
@[simp] theorem blockEnd_blk (s : State) : (blockEnd s).blk = { s.blk with BLK_ACTIVE := false } := rfl
@[simp] theorem blockEnd_OUT (s : State) : (blockEnd s).OUT = s.OUT := rfl
@[simp] theorem blockEnd_AUDIO_IN (s : State) : (blockEnd s).AUDIO_IN = s.AUDIO_IN := rfl
@[simp] theorem blockEnd_CONTROL_IN (s : State) : (blockEnd s).CONTROL_IN = s.CONTROL_IN := rfl
@[simp] theorem blockEnd_AUDIO_RESP (s : State) : (blockEnd s).AUDIO_RESP = s.AUDIO_RESP := rfl
@[simp] theorem blockEnd_CONTROL_RESP (s : State) : (blockEnd s).CONTROL_RESP = s.CONTROL_RESP := rfl
@[simp] theorem blockEnd_PORT (s : State) : (blockEnd s).PORT = s.PORT := rfl
@[simp] theorem blockEnd_DRAWS (s : State) : (blockEnd s).DRAWS = s.DRAWS := rfl
@[simp] theorem blockEnd_MERGES (s : State) : (blockEnd s).MERGES = s.MERGES := rfl

end Sys2Proof.Machine
end

