-- ==== Sys2Proof/Laws/Ops.lean ====
section
/-! SUPPORT. One lemma for each shared operation, saying once everything it can do; proofs cite these and do not unfold the
operation. -/

namespace Sys2Proof.Machine

/-! ### Outcomes and operand forms -/

/-- A memory operation's answer is a next state exactly where the operation answers. -/
theorem ofExcept_next {r : Except Fault State} {t : State} : ofExcept r = .next t ↔ r = .ok t := by
  cases r <;> simp [ofExcept]

/-- A memory operation is never a refusal. -/
theorem ofExcept_ne_refused {r : Except Fault State} {e : Refusal} : ofExcept r ≠ .refused e := by
  cases r <;> simp [ofExcept]

theorem onAudio_audio {cw : CmdWord} {s : State} {run : State → State} (h : s.PORT = .audio) : onAudio cw s run = run s := by
  simp [onAudio, h]

theorem onAudio_control {cw : CmdWord} {s : State} {run : State → State} (h : s.PORT = .control) :
    onAudio cw s run = refuse cw .illegalOp s := by
  simp [onAudio, h]

/-- A command of both ports' checks is either run or refused: the two outcomes of a domain check. -/
theorem whenValid_cases (valid : Bool) (cw : CmdWord) (s : State) (run : State → State) :
    (valid = true ∧ whenValid valid cw s run = run s) ∨
    (valid = false ∧ whenValid valid cw s run = refuse cw .badArg s) := by
  cases valid <;> simp [whenValid]

/-- The two outcomes of the readiness check. -/
theorem whenReady_cases (cw : CmdWord) (s : State) (run : State → State) :
    (s.READY = true ∧ whenReady cw s run = run s) ∨
    (s.READY = false ∧ whenReady cw s run = refuse cw .notReady s) := by
  cases h : s.READY <;> simp [whenReady, h]

/-- The two outcomes of a setter. -/
theorem withFinite_cases (cw : CmdWord) (v : F64) (s : State) (run : State → State) :
    (isFinite v = true ∧ withFinite cw v s run = respond 0#64 (run s)) ∨
    (isFinite v = false ∧ withFinite cw v s run = refuse cw .badArg s) :=
  whenValid_cases (isFinite v) cw s fun s => respond 0#64 (run s)

/-- `raiseIf` raises or does nothing. -/
theorem raiseIf_cases (c : Bool) (cw : CmdWord) (code : FaultCode) (s : State) :
    (c = true ∧ raiseIf c cw code s = raiseFault cw code s) ∨ (c = false ∧ raiseIf c cw code s = s) := by
  cases c <;> simp [raiseIf]

/-! ### Faults -/

/-- A fault bit is one of the eight used. -/
theorem faultBit_ne_zero (code : FaultCode) : faultBit code ≠ 0#16 := by cases code <;> decide

/-- Raising a fault leaves a record. -/
theorem raiseFault_FAULTS_ne_zero (cw : CmdWord) (code : FaultCode) (s : State) :
    (raiseFault cw code s).FAULTS ≠ 0#16 := by
  rw [raiseFault_FAULTS]
  intro h
  exact faultBit_ne_zero code (BitVec.or_eq_zero_iff.mp h).2

/-- The first-fault word of a raised fault is not 0: its code is not. -/
theorem faultWord_ne_zero (code : FaultCode) (cw : CmdWord) : faultWord code cw ≠ 0#40 := by
  intro h
  have h2 := congrArg (fun w => BitVec.extractLsb' 32 8 w) h
  simp only [faultWord] at h2
  rw [BitVec.extractLsb'_append_eq_of_le (by decide)] at h2
  cases code <;> simp [faultNumber] at h2

/-! ### The MIDI queue and its delivery -/

/-- Inserting adds one event. -/
theorem queueInsert_length (q : List MidiEvent) (ev : MidiEvent) : (queueInsert q ev).length = q.length + 1 := by
  induction q with
  | nil => rfl
  | cons x rest ih => simp only [queueInsert]; split <;> simp [ih]

/-- The events after an insertion are those before it and the inserted one. -/
theorem mem_queueInsert {q : List MidiEvent} {ev x : MidiEvent} : x ∈ queueInsert q ev ↔ x = ev ∨ x ∈ q := by
  induction q with
  | nil => simp [queueInsert]
  | cons y rest ih =>
    simp only [queueInsert]
    split
    · simp only [List.mem_cons, ih]; tauto
    · simp only [List.mem_cons]

/-- What delivering an event can change: the note stack, the envelope, the rate ramp and the fault record. -/
theorem midiEvent_frame (P : Params) (ev : MidiEvent) (s : State) :
    midiEvent P ev s =
      { s with
        NS := (midiEvent P ev s).NS
        env := (midiEvent P ev s).env
        RMP_RATE := (midiEvent P ev s).RMP_RATE
        FAULTS := (midiEvent P ev s).FAULTS
        FAULT_INFO := (midiEvent P ev s).FAULT_INFO } := by
  simp only [midiEvent, noteOnEv, noteOffEv]
  split
  · split
    · rfl
    · split <;> rfl
  · split
    · split <;> rfl
    · rfl

/-- What the drain can change: the queue, and what delivering events changes. -/
theorem drainQueue_frame (P : Params) (k : Nat) (q : List MidiEvent) (s : State) :
    drainQueue P k q s =
      { s with
        MQ := q.dropWhile fun ev => ev.offset.toNat ≤ k
        NS := (drainQueue P k q s).NS
        env := (drainQueue P k q s).env
        RMP_RATE := (drainQueue P k q s).RMP_RATE
        FAULTS := (drainQueue P k q s).FAULTS
        FAULT_INFO := (drainQueue P k q s).FAULT_INFO } := by
  induction q generalizing s with
  | nil => rfl
  | cons ev rest ih =>
    simp only [drainQueue, List.dropWhile_cons, decide_eq_true_eq]
    split
    · have h := ih (midiEvent P ev { s with MQ := rest })
      rw [h, midiEvent_frame]
    · rfl

/-- What the drain of a sample step can change. -/
theorem midiDrain_frame (P : Params) (s : State) :
    midiDrain P s =
      { s with
        MQ := s.MQ.dropWhile fun ev => ev.offset.toNat ≤ s.blk.BLK_S.toNat
        NS := (midiDrain P s).NS
        env := (midiDrain P s).env
        RMP_RATE := (midiDrain P s).RMP_RATE
        FAULTS := (midiDrain P s).FAULTS
        FAULT_INFO := (midiDrain P s).FAULT_INFO } := drainQueue_frame P _ _ s

/-! ### The sample step -/

/-- What the ramp ticks do: each ramp ticks, and a fault may be recorded. -/
theorem tickRamps_frame (s : State) :
    tickRamps s =
      { s with
        RMP_MOD := rampTick s.DT s.RMP_MOD
        RMP_RATE := rampTick s.DT s.RMP_RATE
        RMP_RANGE := rampTick s.DT s.RMP_RANGE
        RMP_SHAPE := rampTick s.DT s.RMP_SHAPE
        FAULTS := (tickRamps s).FAULTS
        FAULT_INFO := (tickRamps s).FAULT_INFO } := by
  unfold tickRamps raiseIf
  simp only
  split <;> split <;> split <;> split <;> rfl

/-- What the phase advance does. -/
theorem phaseAdvance_frame (freq : F64) (s : State) :
    phaseAdvance freq s =
      { s with
        OSC_PHASE :=
          if isFinite (phaseSum freq s.DT s.OSC_PHASE) then phaseWrap (phaseSum freq s.DT s.OSC_PHASE) else s.OSC_PHASE
        FAULTS := (phaseAdvance freq s).FAULTS
        FAULT_INFO := (phaseAdvance freq s).FAULT_INFO } := by
  unfold phaseAdvance
  simp only
  split <;> rfl

/-- What operations 1 to 6 of a sample step leave alone. -/
theorem sampleScrub_frame (P : Params) (s : State) :
    (sampleScrub P s).2 =
      { s with
        MQ := (sampleScrub P s).2.MQ
        NS := (sampleScrub P s).2.NS
        env := (sampleScrub P s).2.env
        RMP_MOD := (sampleScrub P s).2.RMP_MOD
        RMP_RATE := (sampleScrub P s).2.RMP_RATE
        RMP_RANGE := (sampleScrub P s).2.RMP_RANGE
        RMP_SHAPE := (sampleScrub P s).2.RMP_SHAPE
        NOISE_ST := (sampleScrub P s).2.NOISE_ST
        DRAWS := (sampleScrub P s).2.DRAWS
        OSC_PHASE := (sampleScrub P s).2.OSC_PHASE
        FAULTS := (sampleScrub P s).2.FAULTS
        FAULT_INFO := (sampleScrub P s).2.FAULT_INFO } := by
  unfold sampleScrub noiseStep
  simp only
  rw [phaseAdvance_frame, tickRamps_frame, midiDrain_frame]

/-- What a shaper step changes: its last map value, and a fault may be recorded. -/
theorem shaperStep_left (P : Params) (p : F64) (s : State) :
    shaperStep P .left p s =
      { s with
        SHP_LAST_L := shaperPosition P.edgeMode p
        FAULTS := (shaperStep P .left p s).FAULTS
        FAULT_INFO := (shaperStep P .left p s).FAULT_INFO } := by
  unfold shaperStep raiseIf
  simp only
  split <;> rfl

theorem shaperStep_right (P : Params) (p : F64) (s : State) :
    shaperStep P .right p s =
      { s with
        SHP_LAST_R := shaperPosition P.edgeMode p
        FAULTS := (shaperStep P .right p s).FAULTS
        FAULT_INFO := (shaperStep P .right p s).FAULT_INFO } := by
  unfold shaperStep raiseIf
  simp only
  split <;> rfl

/-- What writing the frame changes: `OUT`, and a fault may be recorded. -/
theorem writeFrame_frame (left right : F64) (s : State) :
    writeFrame left right s =
      { s with
        OUT := (writeFrame left right s).OUT
        FAULTS := (writeFrame left right s).FAULTS
        FAULT_INFO := (writeFrame left right s).FAULT_INFO } := by
  unfold writeFrame
  generalize List.range s.blk.BLK_C.toNat = l
  induction l generalizing s with
  | nil => rfl
  | cons c l ih =>
    rw [List.foldl_cons, ih (writeChannel left right s c)]
    unfold writeChannel raiseIf
    simp only
    split <;> rfl

/-- A sample step answers exactly where both lookups answer, with the state its operations give. -/
theorem sampleStep_ok {P : Params} {s t : State} :
    sampleStep P s = .ok t ↔
      ∃ yL yR, shaperOutput P .left (sampleScrub P s).1 (sampleScrub P s).2 = .ok yL ∧
        shaperOutput P .right (sampleScrub P s).1 (shaperStep P .left (sampleScrub P s).1 (sampleScrub P s).2) = .ok yR ∧
        t = sampleOutput yL yR
          (shaperStep P .right (sampleScrub P s).1 (shaperStep P .left (sampleScrub P s).1 (sampleScrub P s).2)) := by
  unfold sampleStep
  generalize sampleScrub P s = u
  obtain ⟨p, s1⟩ := u
  dsimp only
  generalize shaperStep P .left p s1 = s2
  generalize shaperStep P .right p s2 = s3
  cases shaperOutput P .left p s1 with
  | error e => simp only [reduceCtorEq, false_and, exists_false]
  | ok yL =>
    cases shaperOutput P .right p s2 with
    | error e => simp only [reduceCtorEq, false_and, and_false, exists_false]
    | ok yR =>
      simp only [Except.ok.injEq]
      constructor
      · exact fun h => ⟨yL, yR, rfl, rfl, h.symm⟩
      · rintro ⟨_, _, rfl, rfl, rfl⟩; rfl

/-- A sample event is the sample step and the advance of the sample index. -/
theorem sampleEvent_ok {P : Params} {s t : State} :
    sampleEvent P s = .ok t ↔
      ∃ u, sampleStep P s = .ok u ∧ t = { u with blk := { u.blk with BLK_S := u.blk.BLK_S + 1#20 } } := by
  unfold sampleEvent
  cases sampleStep P s with
  | error e => simp
  | ok u => simp [eq_comm]

/-! ### Wavetable loads -/

/-- What a push can do: a refusal, or the sample staged. -/
theorem wtPush_ok {P : Params} {v : F64} {s t : State} (h : wtPush P v s = .ok t) :
    (isFinite v = false ∧ t = refuse (Instr.wtPush v).commandWord .badArg s) ∨
    (isFinite v = true ∧ (s.stg.STG_ACTIVE = false ∨ loadSize s.stg ≤ s.stg.STG_COUNT) ∧
      t = refuse (Instr.wtPush v).commandWord .wtSequence s) ∨
    (isFinite v = true ∧ s.stg.STG_ACTIVE = true ∧ s.stg.STG_COUNT < loadSize s.stg ∧
      ∃ g, pushSample P.wtCap v s.stg = .ok g ∧ t = respond 0#64 { s with stg := g }) := by
  simp only [wtPush] at h
  split at h
  · rename_i hf
    split at h
    · rename_i hs
      refine .inr (.inl ⟨hf, ?_, (Except.ok.inj h).symm⟩)
      simpa using hs
    · rename_i hs
      split at h
      · rename_i g hg
        simp only [Bool.or_eq_true, Bool.not_eq_true', decide_eq_true_eq, not_or, Bool.not_eq_false, Nat.not_le] at hs
        exact .inr (.inr ⟨hf, hs.1, hs.2, g, hg, (Except.ok.inj h).symm⟩)
      · cases h
  · rename_i hf
    exact .inl ⟨by simpa using hf, (Except.ok.inj h).symm⟩

/-- What a commit can do: a refusal, a discarded load, or the publication. -/
theorem wtCommit_ok {P : Params} {s t : State} (h : wtCommit P s = .ok t) :
    (s.stg.STG_ACTIVE = false ∧ t = refuse Instr.wtCommit.commandWord .wtSequence s) ∨
    (s.stg.STG_ACTIVE = true ∧ s.stg.STG_COUNT ≠ loadSize s.stg ∧
      t = refuse Instr.wtCommit.commandWord .wtSequence { s with stg := { s.stg with STG_ACTIVE := false } }) ∨
    (s.stg.STG_ACTIVE = true ∧ s.stg.STG_COUNT = loadSize s.stg ∧
      ∃ l r, publish P.wtCap .stg0 .wtL s.stg.STG0 s.stg.STG_N s.WT_L = .ok l ∧
        publish P.wtCap (rightSource s.stg).1 .wtR (rightSource s.stg).2 s.stg.STG_N s.WT_R = .ok r ∧
        t = respond 0#64
          { s with WT_L := l, WT_R := r, WT_N := s.stg.STG_N, stg := { s.stg with STG_ACTIVE := false } }) := by
  simp only [wtCommit] at h
  split at h
  · rename_i ha
    exact .inl ⟨by simpa using ha, (Except.ok.inj h).symm⟩
  · rename_i ha
    have ha : s.stg.STG_ACTIVE = true := by simpa using ha
    split at h
    · rename_i hc
      exact .inr (.inl ⟨ha, hc, (Except.ok.inj h).symm⟩)
    · rename_i hc
      split at h
      · rename_i l r hl hr
        exact .inr (.inr ⟨ha, by simpa using hc, l, r, hl, hr, (Except.ok.inj h).symm⟩)
      · cases h
      · cases h

/-! ### Events -/

/-- What a command event can do. -/
theorem commandEvent_next {port : Port} {s t : State} (h : commandEvent port s = .next t) :
    (decode (portStream port s) = .incomplete ∧ t = s) ∨
    (∃ why cw rest, decode (portStream port s) = .illegal why cw rest ∧
      t = finishCommand port (refuse cw .illegalOp (takeCommand port rest s))) ∨
    (∃ i rest u, decode (portStream port s) = .command i rest ∧ exec i (takeCommand port rest s) = .next u ∧
      t = finishCommand port u) := by
  unfold commandEvent at h
  split at h
  · rename_i hd
    exact .inl ⟨hd, (Host.Outcome.next.inj h).symm⟩
  · rename_i why cw rest hd
    exact .inr (.inl ⟨why, cw, rest, hd, (Host.Outcome.next.inj h).symm⟩)
  · rename_i i rest hd
    split at h
    · rename_i u hu
      exact .inr (.inr ⟨i, rest, u, hd, hu, (Host.Outcome.next.inj h).symm⟩)
    · cases h
    · cases h

/-- What an event of a running block can do: the next sample step, or the end event with its response. -/
theorem blockEvent_next {P : Params} {s t : State} (h : blockEvent P s = .next t) :
    (s.blk.BLK_S.toNat < s.blk.BLK_N.toNat ∧ sampleEvent P s = .ok t) ∨
    (s.blk.BLK_N.toNat ≤ s.blk.BLK_S.toNat ∧ t = deliver .audio (blockEnd s)) := by
  unfold blockEvent at h
  split at h
  · rename_i hs
    exact .inl ⟨hs, ofExcept_next.mp h⟩
  · rename_i hs
    exact .inr ⟨Nat.le_of_not_lt hs, (Host.Outcome.next.inj h).symm⟩

/-- What a step can do: nothing, a CONTROL command, an event of the running block, or an AUDIO command. -/
theorem step_next {s t : State} (h : step s = .next t) :
    (nextPort Config.params s = none ∧ t = s) ∨
    (nextPort Config.params s = some .control ∧ commandEvent .control (countMerge s) = .next t) ∨
    (nextPort Config.params s = some .audio ∧ s.blk.BLK_ACTIVE = true ∧ blockEvent Config.params (countMerge s) = .next t) ∨
    (nextPort Config.params s = some .audio ∧ s.blk.BLK_ACTIVE = false ∧ commandEvent .audio (countMerge s) = .next t) := by
  unfold step event at h
  split at h
  · rename_i hp
    exact .inl ⟨hp, (Host.Outcome.next.inj h).symm⟩
  · rename_i hp
    exact .inr (.inl ⟨hp, h⟩)
  · rename_i hp
    split at h
    · rename_i hb
      exact .inr (.inr (.inl ⟨hp, hb, h⟩))
    · rename_i hb
      exact .inr (.inr (.inr ⟨hp, by simpa using hb, h⟩))

end Sys2Proof.Machine
end

