-- ==== Sys2Proof/Laws/PerInstr.lean ====
section
/-! SUPPORT. Statements made per instruction: one lemma for each constructor of `Instr`. -/

namespace Sys2Proof.Laws

/-- A command's bytes are as many as its opcode says (R86, R97): 12 where the opcode has a data word, else 4, and the opcode
is the top byte of the command word it sends. -/
def EncodedLength.Statement (i : Instr) : Prop :=
  (encode i).length = (if opHasData (opOf i.commandWord) then 12 else 4) ∧
  i.dataWord.isSome = opHasData (opOf i.commandWord)

/-- Appending associates. -/
theorem append_append {a b c : Nat} (x : BitVec a) (y : BitVec b) (z : BitVec c) :
    (x ++ y ++ z).cast (Nat.add_assoc a b c) = x ++ (y ++ z) := by
  rw [BitVec.append_assoc]; simp

/-- The opcode of a command word is its top byte, whatever stands below (R87). -/
theorem opOf_append (op : BitVec 8) (imm : BitVec 24) : opOf ((op ++ imm : BitVec 32)) = op := by
  unfold opOf
  rw [BitVec.extractLsb'_append_eq_of_le (by decide)]
  simp

/-- The bytes sent for a command whose command word has this opcode. -/
theorem encodedLength_of (i : Instr) (op : BitVec 8) (imm : BitVec 24) (word : i.commandWord = op ++ imm)
    (data : i.dataWord.isSome = opHasData op) : EncodedLength.Statement i := by
  unfold EncodedLength.Statement
  rw [word, opOf_append, ← data]
  unfold encode
  cases i.dataWord <;> exact ⟨rfl, rfl⟩

/-- Appending four vectors associates to the right of the first. -/
theorem append4 {a b c d : Nat} (w : BitVec a) (x : BitVec b) (y : BitVec c) (z : BitVec d) :
    (w ++ x ++ y ++ z).cast (by omega : a + b + c + d = a + (b + c + d)) = w ++ (x ++ y ++ z) := by
  have h := append_append w (x ++ y) z
  rw [← h, ← append_append w x y]
  rfl

theorem EncodedLength.nop : EncodedLength.Statement .nop :=
  encodedLength_of _ 0x00#8 0#24 rfl rfl

theorem EncodedLength.reset (blockSize : BitVec 24) (sampleRate : F64) : EncodedLength.Statement (.reset blockSize sampleRate) :=
  encodedLength_of _ 0x01#8 blockSize rfl rfl

theorem EncodedLength.processBlock (frameCount : BitVec 20) (channelCount : BitVec 4) : EncodedLength.Statement (.processBlock frameCount channelCount) :=
  encodedLength_of _ 0x02#8 (frameCount ++ channelCount) (append_append _ _ _) rfl

theorem EncodedLength.midiMsg (status : Byte) (d1 : Byte) (d2 : Byte) (offset : Word) : EncodedLength.Statement (.midiMsg status d1 d2 offset) :=
  encodedLength_of _ 0x03#8 (status ++ d1 ++ d2) (append4 0x03#8 status d1 d2) rfl

theorem EncodedLength.envStop : EncodedLength.Statement .envStop :=
  encodedLength_of _ 0x04#8 0#24 rfl rfl

theorem EncodedLength.setVolume (v : F64) : EncodedLength.Statement (.setVolume v) :=
  encodedLength_of _ 0x10#8 0#24 rfl rfl

theorem EncodedLength.setAttack (v : F64) : EncodedLength.Statement (.setAttack v) :=
  encodedLength_of _ 0x11#8 0#24 rfl rfl

theorem EncodedLength.setDecay (v : F64) : EncodedLength.Statement (.setDecay v) :=
  encodedLength_of _ 0x12#8 0#24 rfl rfl

theorem EncodedLength.setSustain (v : F64) : EncodedLength.Statement (.setSustain v) :=
  encodedLength_of _ 0x13#8 0#24 rfl rfl

theorem EncodedLength.setRelease (v : F64) : EncodedLength.Statement (.setRelease v) :=
  encodedLength_of _ 0x14#8 0#24 rfl rfl

theorem EncodedLength.setNoiseTint (v : F64) : EncodedLength.Statement (.setNoiseTint v) :=
  encodedLength_of _ 0x15#8 0#24 rfl rfl

theorem EncodedLength.setNoiseMod (v : F64) : EncodedLength.Statement (.setNoiseMod v) :=
  encodedLength_of _ 0x16#8 0#24 rfl rfl

theorem EncodedLength.setNoiseRate (v : F64) : EncodedLength.Statement (.setNoiseRate v) :=
  encodedLength_of _ 0x17#8 0#24 rfl rfl

theorem EncodedLength.setNoiseRange (v : F64) : EncodedLength.Statement (.setNoiseRange v) :=
  encodedLength_of _ 0x18#8 0#24 rfl rfl

theorem EncodedLength.setNoiseShape (v : F64) : EncodedLength.Statement (.setNoiseShape v) :=
  encodedLength_of _ 0x19#8 0#24 rfl rfl

theorem EncodedLength.setNoiseSnapshot (v : F64) : EncodedLength.Statement (.setNoiseSnapshot v) :=
  encodedLength_of _ 0x1A#8 0#24 rfl rfl

theorem EncodedLength.wtBegin (channels : BitVec 4) (frames : Word) : EncodedLength.Statement (.wtBegin channels frames) :=
  encodedLength_of _ 0x20#8 (0#20 ++ channels) (append_append _ _ _) rfl

theorem EncodedLength.wtPush (v : F64) : EncodedLength.Statement (.wtPush v) :=
  encodedLength_of _ 0x21#8 0#24 rfl rfl

theorem EncodedLength.wtCommit : EncodedLength.Statement .wtCommit :=
  encodedLength_of _ 0x22#8 0#24 rfl rfl

theorem EncodedLength.getNoiseOffset : EncodedLength.Statement .getNoiseOffset :=
  encodedLength_of _ 0x30#8 0#24 rfl rfl

theorem EncodedLength.getNoiseRate : EncodedLength.Statement .getNoiseRate :=
  encodedLength_of _ 0x31#8 0#24 rfl rfl

theorem EncodedLength.getShape : EncodedLength.Statement .getShape :=
  encodedLength_of _ 0x32#8 0#24 rfl rfl

theorem EncodedLength.getShaperSize : EncodedLength.Statement .getShaperSize :=
  encodedLength_of _ 0x33#8 0#24 rfl rfl

theorem EncodedLength.getShaperMapValue : EncodedLength.Statement .getShaperMapValue :=
  encodedLength_of _ 0x34#8 0#24 rfl rfl

theorem EncodedLength.getStatus : EncodedLength.Statement .getStatus :=
  encodedLength_of _ 0x35#8 0#24 rfl rfl

theorem EncodedLength.getFaultInfo : EncodedLength.Statement .getFaultInfo :=
  encodedLength_of _ 0x36#8 0#24 rfl rfl

theorem EncodedLength.updateNoiseSnapshot (idx : BitVec 4) : EncodedLength.Statement (.updateNoiseSnapshot idx) :=
  encodedLength_of _ 0x40#8 (0#20 ++ idx) (append_append _ _ _) rfl

theorem EncodedLength.getNoiseSnapshot (field : SnapField) (idx : BitVec 4) : EncodedLength.Statement (.getNoiseSnapshot field idx) :=
  encodedLength_of _ 0x41#8 (0#18 ++ field.code ++ idx) (append4 0x41#8 0#18 field.code idx) rfl

theorem EncodedLength.getNoiseSnapshotNormalized (field : SnapField) (idx : BitVec 4) : EncodedLength.Statement (.getNoiseSnapshotNormalized field idx) :=
  encodedLength_of _ 0x42#8 (0#18 ++ field.code ++ idx) (append4 0x42#8 0#18 field.code idx) rfl

end Sys2Proof.Laws
end

