-- ==== Sys2Proof/Tests/Slice0.lean ====
section
/-! SUPPORT. Tests of one step or one operation each, with expected values from the spec's examples (R106 and the worked
examples of the rules) and its test vectors (95_test_vectors.md, ids C, S, Q, R, E, N, O, X, W, P, B), and a witness for
each obligation that has hypotheses. -/

namespace Sys2Proof.Tests

open Sys2Proof.Machine Sys2Proof.Claim

-- Each theorem's kernel evaluation is waited for: side by side they would need a thread each.
set_option Elab.async false

/-! ### Well-formedness: one ill-formed term for each check -/

theorem test_wf_reset_blockSize : (Instr.reset 0#24 f1).wellFormed = false := by decide +kernel
theorem test_wf_reset_rate : (Instr.reset 4#24 0x8000000000000001#64).wellFormed = false := by decide +kernel
theorem test_wf_reset_nan : (Instr.reset 4#24 0x7FF8000000000000#64).wellFormed = false := by decide +kernel
theorem test_wf_midi_status : (Instr.midiMsg 0x10#8 60#8 100#8 0#64).wellFormed = false := by decide +kernel
theorem test_wf_midi_d1 : (Instr.midiMsg 0x90#8 0x80#8 1#8 0#64).wellFormed = false := by decide +kernel
theorem test_wf_midi_d2 : (Instr.midiMsg 0x90#8 60#8 0x80#8 0#64).wellFormed = false := by decide +kernel
theorem test_wf_real_operands :
    ([Instr.setVolume, .setAttack, .setDecay, .setSustain, .setRelease, .setNoiseMod, .setNoiseRate, .setNoiseRange,
      .setNoiseShape, .setNoiseSnapshot, .wtPush].all fun c =>
        !(c 0x7FF0000000000000#64).wellFormed && (c 0x7FEFFFFFFFFFFFFF#64).wellFormed) = true := by decide +kernel
theorem test_wf_tint : (Instr.setNoiseTint 0x3FE0000000000000#64).wellFormed = false := by decide +kernel
theorem test_wf_wtBegin : (Instr.wtBegin 0#4 4#64).wellFormed = false := by decide +kernel
theorem test_wf_slots : ((Instr.updateNoiseSnapshot 8#4).wellFormed || (Instr.getNoiseSnapshot .mod 8#4).wellFormed
    || (Instr.getNoiseSnapshotNormalized .mod 8#4).wellFormed) = false := by decide +kernel
theorem test_wf_ports : ([Instr.reset 4#24 f1, .processBlock 4#20 2#4, .midiMsg 0x90#8 60#8 100#8 0#64, .envStop].any
    fun i => i.acceptedOn .control) = false := by decide +kernel

/-! ### The assembler's text (R103 to R105) -/

theorem test_line_load :
    assembleLine "C: LOAD_WAVETABLE 2, [0.5, -1.0, f64:0x3FF0000000000000, 25e-2] ; two channels".toList =
      some (.control, [.wtBegin 2#4 2#64, .wtPush 0x3FE0000000000000#64, .wtPush 0xBFF0000000000000#64,
        .wtPush 0x3FF0000000000000#64, .wtPush 0x3FD0000000000000#64, .wtCommit]) := by decide +kernel
theorem test_text_lines :
    assembleText "; a note\nNOTE_ON 60, 0x64, 0\nGET_NOISE_SNAPSHOT_NORMALIZED 3, 1\n".toList =
      some [(.audio, .midiMsg 0x90#8 60#8 100#8 0#64), (.audio, .getNoiseSnapshotNormalized .rate 3#4)] := by
  decide +kernel
theorem test_line_refused :
    (["SET_NOISE_MOD 3", "MIDI_MSG 256, 0, 0, 0", "NOP 1", "LOAD_WAVETABLE 2, [0.0]"].all fun l =>
      (assembleLine l.toList).isNone) = true := by decide +kernel

/-! ### Decoding: words written out from R89 to R96, R106 and vectors C-1 to C-14 -/

/-- The instruction a command word, and a data word after it, decode to. -/
def words (cw : Nat) (dw : Nat) : Option Instr := decodeTableWord 96 (cw + dw * 2 ^ 32)

theorem test_decode_nop : words 0x00000000 0 = some .nop := by decide +kernel
theorem test_decode_reset : words 0x01000200 0x40E5888000000000 = some (.reset 512#24 0x40E5888000000000#64) := by
  decide +kernel
theorem test_decode_reset_max : words 0x01FFFFFF 0x3FF0000000000000 = some (.reset 16777215#24 f1) := by decide +kernel
theorem test_decode_processBlock : words 0x02002002 0 = some (.processBlock 512#20 2#4) := by decide +kernel
theorem test_decode_processBlock_max : words 0x02FFFFFF 0 = some (.processBlock 1048575#20 15#4) := by decide +kernel
theorem test_decode_midiMsg : words 0x03903C64 7 = some (.midiMsg 0x90#8 60#8 100#8 7#64) := by decide +kernel
theorem test_decode_envStop : words 0x04000000 0 = some .envStop := by decide +kernel
theorem test_decode_format_D :
    ((List.range 11).map fun k => words (0x10000000 + k * 2 ^ 24) 0x3FF8000000000000) =
      ([Instr.setVolume, .setAttack, .setDecay, .setSustain, .setRelease, .setNoiseTint, .setNoiseMod, .setNoiseRate,
        .setNoiseRange, .setNoiseShape, .setNoiseSnapshot].map fun c => some (c 0x3FF8000000000000#64)) := by
  decide +kernel
theorem test_decode_wtBegin : words 0x20000001 4 = some (.wtBegin 1#4 4#64) := by decide +kernel
theorem test_decode_wtPush : words 0x21000000 0xBFD0000000000000 = some (.wtPush 0xBFD0000000000000#64) := by
  decide +kernel
theorem test_decode_wtCommit : words 0x22000000 0 = some .wtCommit := by decide +kernel
theorem test_decode_getters :
    ((List.range 7).map fun k => words (0x30000000 + k * 2 ^ 24) 0) =
      [some .getNoiseOffset, some .getNoiseRate, some .getShape, some .getShaperSize, some .getShaperMapValue,
        some .getStatus, some .getFaultInfo] := by decide +kernel
theorem test_decode_updateNoiseSnapshot : words 0x40000003 0 = some (.updateNoiseSnapshot 3#4) := by decide +kernel
theorem test_decode_getNoiseSnapshot : words 0x41000037 0 = some (.getNoiseSnapshot .shape 7#4) := by decide +kernel
theorem test_decode_getNoiseSnapshot_rate : words 0x41000013 0 = some (.getNoiseSnapshot .rate 3#4) := by
  decide +kernel
theorem test_decode_normalized : words 0x42000023 0 = some (.getNoiseSnapshotNormalized .range 3#4) := by
  decide +kernel

/-- C-10: the reserved opcodes. -/
theorem test_decode_reserved : ([0x05#8, 0x0F#8, 0x1B#8, 0x1F#8, 0x23#8, 0x2F#8, 0x37#8, 0x3F#8, 0x43#8, 0xFF#8].all
    fun op => decodeWords (cwPlain op) 0#64 == .error .reservedOp && !opHasData op) = true := by decide +kernel

/-- C-10: a reserved command is one word long, so that the next word is a command. -/
theorem test_decode_reserved_length :
    decode (CmdWord.bytes 0x05000000#32 ++ CmdWord.bytes 0x35000000#32) =
      .illegal .reservedOp 0x05000000#32 (CmdWord.bytes 0x35000000#32) := by decide +kernel

/-- C-11, C-12, W-18, Q-6, S-10: a reserved bit, the data word consumed where there is one. -/
theorem test_decode_reserved_bits :
    decode (CmdWord.bytes 0x10000001#32 ++ Word.bytes 5#64 ++ [0xAA#8]) = .illegal .reservedBits 0x10000001#32 [0xAA#8] ∧
    decode (CmdWord.bytes 0x20000011#32 ++ Word.bytes 4#64) = .illegal .reservedBits 0x20000011#32 [] ∧
    ([0x41000040#32, 0x40000010#32, 0x35000001#32, 0x00800000#32].all fun cw =>
      decodeWords cw 0#64 == .error .reservedBits) = true := by decide +kernel

/-- R106's bytes on a byte-wide transport (R68, R69). -/
theorem test_encode_reset : encode (.reset 512#24 0x40E5888000000000#64) =
    [0x00#8, 0x02#8, 0x00#8, 0x01#8, 0x00#8, 0x00#8, 0x00#8, 0x00#8, 0x80#8, 0x88#8, 0xE5#8, 0x40#8] := by
  decide +kernel

/-! ### Values: the constants of R6 and binary64 arithmetic -/

/-- The decimal values of R6 and the examples of C3, V-8.1 and W-11. -/
theorem test_constants : ofRatio 1 100 = T_MOD ∧ ofRatio 1 100 = T_RATE ∧ ofRatio 1 10 = T_RANGE ∧
    ofRatio 1 10 = T_SHAPE ∧ ofRatio 1 100 = T_RETRIG ∧ ofRatio 1 4 = OSC_PHASE0 ∧ toF64 1 = ENV_PEAK ∧ toF64 7 = f7 ∧
    toF64 10 = f10 ∧ toF64 20 = f20 ∧ ofRatio 1 2 = fHalf ∧ toF64 2 = f2 := by decide +kernel

/-- C3's counterexample: a + (b - a) need not be b. -/
theorem test_rounding : (let a := ofRatio 48538300015128616 (10 ^ 17); let b := ofRatio 22282103522166686 (10 ^ 19)
    fadd a (fsub b a) == ofRatio 2228210352216653 (10 ^ 18)) = true := by decide +kernel

/-- fl(1 / 44100) of V-8.1. -/
theorem test_sample_period : fdiv f1 0x40E5888000000000#64 = 0x3EF7C6F8C751F177#64 := by decide +kernel

/-! ### States to test on -/

/-- Parameters for tests: capacity 16, wrapping edges, bounded range parameter, white noise from the reference instance. -/
def testParams : Params :=
  { (default : Params) with
    wtCapRaw := 16#53
    noteCapRaw := 128#8
    edgeMode := .wrap
    rangeSpan := (finOfBits 0xBFF0000000000000#64, finOfBits f1)
    modSpan := (finOfBits 0xFFEFFFFFFFFFFFFF#64, finOfBits 0x7FEFFFFFFFFFFFFF#64)
    noiseInit := refNoiseWords refNoiseInit
    noiseRel := refNoiseRel
    sinRaw := fun x => finOfBits (if x = 0x3FF921FB54442D18#64 then f1 else f0)
    silentRaw := finOfBits 0xC0B9500000000000#64
    powRaw := fun _ y => if y = f0 then f1 else if y = f1 then f10 else 0x7FF0000000000000#64 }

/-- A ready machine: 4 Hz, a one-frame mono table, a complete one-frame load, one note held, one event queued. -/
def demo : State :=
  { State.powerOn testParams with
    READY := true
    SR := 0x4010000000000000#64
    DT := 0x3FD0000000000000#64
    BLOCK_SIZE := 4#24
    par := { (State.powerOn testParams).par with
      P_ATTACK := f1, P_DECAY := fHalf, P_SUSTAIN := fHalf, P_RELEASE := f1, P_RATE := 0x4020000000000000#64
      VOL_GAIN := f1 }
    env := { ENV_STATE := .sustain, ENV_OUT := fHalf, ENV_ELAPSED := f0, ENV_AUTOREL := false }
    WT_N := 1
    WT_L := [(0, fHalf)]
    WT_R := [(0, fHalf)]
    stg := { STG_ACTIVE := true, STG_CH := 1#4, STG_N := 1, STG_COUNT := 1, STG0 := [(0, f1)], STG1 := [] }
    MQ := [{ offset := 3#64, status := 0x80#8, d1 := 60#8, d2 := 0#8 }]
    NS := [60#8] }

/-- The same in a block of 2 channels and n frames, at step k. -/
def demoBlock (k n : BitVec 20) : State :=
  { demo with blk := { BLK_ACTIVE := true, BLK_S := k, BLK_N := n, BLK_C := 2#4, BLK_CW := 0x02000042#32 } }

/-- Commands waiting on a port. -/
def waiting (port : Port) (i : Instr) (s : State) : State := issue port i s

/-! ### Commands -/

/-- V-8 NOP and R101. -/
theorem test_nop : execNop { demo with RESP := 5#64 } = .next { demo with RESP := 0#64 } := rfl

/-- R192's example and B-16. -/
theorem test_reset : let t := resetCommand 512#24 0x40E5888000000000#64 demo
    t.SR = 0x40E5888000000000#64 ∧ t.DT = 0x3EF7C6F8C751F177#64 ∧ t.BLOCK_SIZE = 512#24 ∧ t.MQ = [] ∧ t.NS = [] ∧
    t.env.ENV_STATE = .off ∧ t.RMP_RATE = demo.RMP_RATE ∧ t.FAULTS = 0#16 := by decide +kernel

/-- B-3: the rates RESET refuses. -/
theorem test_reset_refused : ([f0, 0xBFF0000000000000#64, 0x7FF8000000000000#64, 0x0000000000000001#64].all fun sr =>
    (resetCommand 4#24 sr demo).FAULTS == 4#16 && (resetCommand 4#24 sr demo).SR == demo.SR) = true ∧
    (resetCommand 0#24 0x40E5888000000000#64 demo).FAULTS = 4#16 := by decide +kernel

/-- B-1 and S-13: PROCESS_BLOCK before RESET. -/
theorem test_processBlock_notReady : let t := processBlock 512#20 2#4 { demo with READY := false }
    t.FAULTS = 2#16 ∧ t.FAULT_INFO = 0x0202002002#40 ∧ t.blk.BLK_ACTIVE = false := by decide +kernel

/-- R193's start event. -/
theorem test_processBlock : (processBlock 512#20 2#4 demo).blk =
    { BLK_ACTIVE := true, BLK_S := 0#20, BLK_N := 512#20, BLK_C := 2#4, BLK_CW := 0x02002002#32 } := by decide +kernel

/-- B-4: stable insertion in offset order. -/
theorem test_midi_order :
    ((midiMsg 0x90#8 64#8 100#8 2#64 (midiMsg 0x90#8 62#8 100#8 0#64 (midiMsg 0x90#8 60#8 100#8 2#64
      { demo with MQ := [] }))).MQ.map fun ev => (ev.offset, ev.d1)) =
      [(0#64, 62#8), (2#64, 60#8), (2#64, 64#8)] := by decide +kernel

/-- B-5, B-6, B-7: overflow, ignored messages, refused bytes. -/
theorem test_midi_refused : let s := { demo with BLOCK_SIZE := 1#24 }
    (midiMsg 0x90#8 60#8 100#8 0#64 s).FAULTS = 8#16 ∧ (midiMsg 0xB0#8 7#8 100#8 0#64 s) = respond 0#64 s ∧
    (midiMsg 0x10#8 60#8 100#8 0#64 s).FAULTS = 4#16 ∧ (midiMsg 0x90#8 0x80#8 1#8 0#64 s).FAULTS = 4#16 := by
  decide +kernel

/-- V-8.3: ENV_STOP on AUDIO, and refused on CONTROL. -/
theorem test_envStop : (onAudio 0x04000000#32 demo fun s => { s with env := envStopped }).env.ENV_STATE = .off ∧
    (match execEnvStop { demo with PORT := .control } with
      | .next t => t.FAULTS == 1#16 && t.env == demo.env
      | _ => false) = true := by decide +kernel

/-- S-1, S-3, R224's example and its very negative volume (-10000 dB). -/
theorem test_setVolume : (setVolume testParams f0 demo).par.VOL_GAIN = f1 ∧
    (setVolume testParams f20 demo).par.VOL_GAIN = f10 ∧
    (setVolume testParams 0xC0C3880000000000#64 demo).par.VOL_GAIN = f0 ∧
    (setVolume testParams 0x412E848000000000#64 demo).FAULTS = 4#16 ∧
    (setVolume testParams 0x412E848000000000#64 demo).par = demo.par := by decide +kernel

/-- The next state of a command, or the state itself. -/
def after (i : Instr) (s : State) : State :=
  match exec i s with
  | .next t => t
  | _ => s

/-- R225, R226, R228: the examples, and S-6. -/
theorem test_setTimes : (after (.setAttack f2) demo).par.P_ATTACK = f2 ∧ (after (.setDecay f2) demo).par.P_DECAY = f2 ∧
    (after (.setRelease f2) demo).par.P_RELEASE = f2 ∧ (after (.setAttack 0x7FF8000000000000#64) demo).FAULTS = 4#16 ∧
    (after (.setDecay f2) demo).par.P_ATTACK = f1 := by decide +kernel

/-- S-5. -/
theorem test_setSustain : (after (.setSustain 0x3FF8000000000000#64) demo).par.P_SUSTAIN = f1 ∧
    (after (.setSustain 0x3FD3333333333333#64) demo).par.P_SUSTAIN = 0x3FD3333333333333#64 ∧
    (after (.setSustain 0xBFD0000000000000#64) demo).par.P_SUSTAIN = f0 ∧
    (after (.setSustain 0x8000000000000000#64) demo).par.P_SUSTAIN = f0 := by decide +kernel

/-- N-3. -/
theorem test_setNoiseTint : (after (.setNoiseTint f1) demo).par.P_TINT = .pink ∧
    (after (.setNoiseTint f2) demo).par.P_TINT = .brown ∧
    (after (.setNoiseTint 0x8000000000000000#64) (after (.setNoiseTint f1) demo)).par.P_TINT = .white ∧
    ([fHalf, 0x4008000000000000#64, 0x7FF8000000000000#64, 0xBFF0000000000000#64].all fun v =>
      (after (.setNoiseTint v) demo).FAULTS == 4#16) = true := by decide +kernel

/-- R229's example: SET_NOISE_MOD 2.0 from 0.0. -/
theorem test_setNoiseMod : (after (.setNoiseMod f2) demo).RMP_MOD =
    { cur := f0, start := f0, endVal := f2, dur := 0x3F847AE147AE147B#64, elapsed := f0 } := by decide +kernel

/-- S-7 and S-8: the rate with no note held, and with one. -/
theorem test_setNoiseRate : (after (.setNoiseRate 0x4020000000000000#64) { demo with NS := [] }).RMP_RATE.cur =
      0x4020000000000000#64 ∧
    (after (.setNoiseRate f2) demo).RMP_RATE.cur = demo.RMP_RATE.cur ∧
    (after (.setNoiseRate f2) demo).RMP_RATE.endVal = f2 := by decide +kernel

/-- R231's example. -/
theorem test_setNoiseRange : (after (.setNoiseRange fHalf) demo).RMP_RANGE =
    { cur := f0, start := f0, endVal := fHalf, dur := 0x3FB999999999999A#64, elapsed := f0 } := by decide +kernel

/-- S-9: GET_SHAPE right after SET_NOISE_SHAPE. -/
theorem test_setNoiseShape : let t := after (.setNoiseShape fHalf) demo
    t.par.P_SHAPE = fHalf ∧ t.RMP_SHAPE.endVal = fHalf ∧ (after .getShape t).RESP = demo.RMP_SHAPE.cur := by
  decide +kernel

/-- A state whose slots 2 and 3 have ranges 0.0 and 1.0, and slots 0 and 1 mods -1.7e308 and 1.7e308. -/
def slots : State :=
  { demo with SNAP := #v[
      { mod := 0xFFEE42D130773B76#64, rate := f1, range := f2, shape := f7 },
      { mod := 0x7FEE42D130773B76#64, rate := f1, range := f2, shape := f7 },
      { mod := f0, rate := f0, range := f0, shape := f0 }, { mod := f0, rate := f0, range := f1, shape := f0 },
      { mod := f0, rate := f0, range := f0, shape := f0 }, { mod := f0, rate := f0, range := f0, shape := f0 },
      { mod := f0, rate := f0, range := f0, shape := f0 }, { mod := f1, rate := f10, range := fHalf, shape := f2 }] }

/-- Q-1 and V-8.4. -/
theorem test_setNoiseSnapshot : (setNoiseSnapshot 0x4002000000000000#64 slots).par.P_RANGE = 0x3FD0000000000000#64 ∧
    ([0x401C000000000000#64, 0x401C000000000001#64, 0x4059000000000000#64].all fun v =>
      let p := (setNoiseSnapshot v slots).par
      p.P_MOD == f1 && p.P_RATE == f10 && p.P_RANGE == fHalf && p.P_SHAPE == f2 && p.P_SNAPSHOT == f7) = true := by
  decide +kernel

/-- Q-4: the mod blend overflows and is skipped, the others are applied. -/
theorem test_setNoiseSnapshot_numeric : let t := setNoiseSnapshot fHalf slots
    t.FAULTS = 0x80#16 ∧ t.par.P_MOD = demo.par.P_MOD ∧ t.RMP_MOD = demo.RMP_MOD ∧ t.par.P_RATE = f1 ∧
    t.par.P_RANGE = f2 ∧ t.par.P_SHAPE = f7 := by decide +kernel

/-- R173, W-15 and the capacity check. -/
theorem test_wtBegin : (wtBegin testParams 2#4 3#64 demo).stg =
      { STG_ACTIVE := true, STG_CH := 2#4, STG_N := 3, STG_COUNT := 0, STG0 := [(0, f1)], STG1 := [] } ∧
    (wtBegin testParams 0#4 4#64 demo).FAULTS = 4#16 ∧ (wtBegin testParams 1#4 17#64 demo).FAULTS = 0x40#16 ∧
    (wtBegin testParams 1#4 17#64 demo).stg = demo.stg := by decide +kernel

/-- A two-frame load with one sample taken. -/
def loading : State :=
  { demo with stg := { STG_ACTIVE := true, STG_CH := 2#4, STG_N := 2, STG_COUNT := 1, STG0 := [(0, f1)], STG1 := [] } }

/-- The state a table command answers. -/
def tableState (r : Except Machine.Fault State) : Option State := r.toOption

/-- R174's example (the second push writes STG0[1]) and the third, of channel 1; W-16, W-17. -/
theorem test_wtPush :
    ((tableState (wtPush testParams f2 loading)).map fun t => (t.stg.STG0, t.stg.STG1, t.stg.STG_COUNT)) =
      some ([(0, f1), (1, f2)], [], 2) ∧
    ((tableState (wtPush testParams f2 { loading with stg := { loading.stg with STG_COUNT := 2 } })).map
      fun t => (t.stg.STG0, t.stg.STG1, t.stg.STG_COUNT)) = some ([(0, f1)], [(0, f2)], 3) := by decide +kernel

theorem test_wtPush_refused :
    ((tableState (wtPush testParams f2 demo)).map fun t => (t.FAULTS, t.stg)) = some (0x20#16, demo.stg) ∧
    ((tableState (wtPush testParams 0x7FF8000000000000#64 loading)).map fun t => (t.FAULTS, t.stg)) =
      some (4#16, loading.stg) := by decide +kernel

/-- W-12 in one commit: a stereo load gives each table its channel; R176: a mono load gives both the same. -/
theorem test_wtCommit :
    ((tableState (wtCommit testParams { demo with stg :=
        { STG_ACTIVE := true, STG_CH := 2#4, STG_N := 2, STG_COUNT := 4, STG0 := [(0, f1), (1, f2)],
          STG1 := [(0, f7), (1, f10)] } })).map fun t => (t.WT_L, t.WT_R, t.WT_N, t.stg.STG_ACTIVE)) =
      some ([(0, f1), (1, f2)], [(0, f7), (1, f10)], 2, false) ∧
    ((tableState (wtCommit testParams demo)).map fun t => (t.WT_L, t.WT_R)) = some ([(0, f1)], [(0, f1)]) := by
  decide +kernel

/-- V-8.8: a short load is discarded and the old table stays. -/
theorem test_wtCommit_short :
    ((tableState (wtCommit testParams loading)).map fun t => (t.FAULTS, t.stg.STG_ACTIVE, t.WT_N, t.WT_L)) =
      some (0x20#16, false, 1, demo.WT_L) := by decide +kernel

/-- R234, R235, R177, R178. -/
theorem test_getters : (after .getNoiseOffset { demo with RMP_RANGE := settledRamp fHalf }).RESP = fHalf ∧
    (after .getNoiseRate { demo with RMP_RATE := settledRamp f2 }).RESP = f2 ∧ (after .getShaperSize demo).RESP = 1#64 ∧
    (after .getShaperMapValue { demo with SHAPER_MAP := fHalf }).RESP = 0x3FE0000000000000#64 := by decide +kernel

/-- S-11 and S-12. -/
theorem test_getStatus : (after .getStatus (State.powerOn testParams)).RESP = 0#64 ∧
    (after .getStatus { demo with
      MQ := [], stg := { demo.stg with STG_ACTIVE := false }, env := { demo.env with ENV_STATE := .attack } }).RESP =
      0x0000000000000103#64 := by decide +kernel

/-- The high fields of STATUS (R44): FAULTS at 40, the queue length at 16, the tint at 6, BLK_ACTIVE at 63. -/
theorem test_getStatus_fields : (after .getStatus { demoBlock 0#20 4#20 with
    FAULTS := 0x81#16, par := { demo.par with P_TINT := .brown } }).RESP = 0x80008100000101A7#64 := by decide +kernel

/-- S-13. -/
theorem test_getFaultInfo : (after .getFaultInfo (processBlock 512#20 2#4 (State.powerOn testParams))).RESP =
    0x0000000202002002#64 := by decide +kernel

/-- R253's example, and Q-5. -/
theorem test_updateNoiseSnapshot :
    (updateNoiseSnapshot 3#4 { demo with par := { demo.par with P_MOD := f1, P_RANGE := f2, P_SHAPE := fHalf } }).SNAP[3] =
      { mod := f1, rate := 0x4020000000000000#64, range := f2, shape := fHalf } ∧
    (updateNoiseSnapshot 8#4 demo).FAULTS = 4#16 := by decide +kernel

/-- R254: a field of a slot. -/
theorem test_getNoiseSnapshot : (getNoiseSnapshot .rate 7#4 slots).RESP = f10 ∧
    (getNoiseSnapshot .shape 7#4 slots).RESP = f2 ∧ (getNoiseSnapshot .mod 8#4 slots).FAULTS = 4#16 := by decide +kernel

/-- Q-8: normalized range of -2.0, 0.25, 0.75, 3.0 over [-1, 1]. -/
theorem test_normalized : (([0xC000000000000000#64, 0x3FD0000000000000#64, 0x3FE8000000000000#64, 0x4008000000000000#64].map
    fun x => (getNoiseSnapshotNormalized testParams .range 0#4
      { demo with SNAP := Vector.replicate 8 { mod := f0, rate := f0, range := x, shape := f0 } }).RESP)) =
      [f0, 0x3FE4000000000000#64, 0x3FEC000000000000#64, f1] := by decide +kernel

/-- Q-9: an overflow of the denominator alone reads 0.0 with no fault. -/
theorem test_normalized_wide :
    let t := getNoiseSnapshotNormalized testParams .mod 0#4
      { demo with SNAP := Vector.replicate 8 { mod := fHalf, rate := f0, range := f0, shape := f0 } };
    t.RESP = 0#64 ∧ t.FAULTS = 0#16 := by decide +kernel

/-! ### Units inside the sample step -/

/-- R-5 and R-2: a stage re-armed from the middle, and a jump. -/
theorem test_ramp : (((List.range 4).map fun k =>
      ((rampTick 0x3FD0000000000000#64)^[k + 1] (rampActivate f1 fHalf f0)).cur)) =
      [0x3FD8000000000000#64, 0x3FD0000000000000#64, 0x3FC0000000000000#64, f0] ∧
    rampActivate 0x8000000000000000#64 f2 f10 = settledRamp f10 := by decide +kernel

/-- R-7: the value overflows, is kept, and is a NUMERIC fault. -/
theorem test_ramp_overflow : let r : Ramp :=
      { cur := f0, start := 0xFFEE42D130773B76#64, endVal := 0x7FEE42D130773B76#64, dur := f1, elapsed := f0 }
    (rampTick 0x3FD0000000000000#64 r).cur = 0x7FF0000000000000#64 ∧ rampTickFaults 0x3FD0000000000000#64 r = true := by
  decide +kernel

/-- E-1: Attack, Decay, Sustain at DT 0.25. -/
theorem test_envelope : (((List.range 7).map fun k =>
      ((envTick demo.par demo.DT)^[k + 1] (envNoteOn demo.par envStopped)).ENV_OUT)) =
      [0x3FD0000000000000#64, fHalf, 0x3FE8000000000000#64, f1, 0x3FE8000000000000#64, fHalf, fHalf] := by decide +kernel

/-- E-6: a note-off in Attack with no decay and no release cuts to Off at the end of the attack. -/
theorem test_envelope_cut : let p := { demo.par with P_ATTACK := fHalf, P_DECAY := f0, P_SUSTAIN := f1, P_RELEASE := f0 }
    let e := envNoteOff p (envNoteOn p envStopped)
    (envTick p demo.DT e).ENV_OUT = fHalf ∧ (envTick p demo.DT (envTick p demo.DT e)) = envStopped := by decide +kernel

/-- N-8: the reference instance's first value with u = 0.75. -/
theorem test_noise_reference :
    let σ := refNoiseStep 0x4020000000000000#64 0x3FD0000000000000#64 0x4010000000000000#64
      refNoiseInit 0x3FE8000000000000#64;
    σ.held_w = fHalf ∧ σ.held_p = 0x3FB6FE4F34E04B49#64 ∧ σ.held_b = 0x3FA1919191919192#64 := by decide +kernel

/-- O-3, O-6, O-12 and O-11: wraps at both ends, and an advance that overflows. -/
theorem test_phase : (phaseAdvance f1 { demo with OSC_PHASE := 0x3FE8000000000000#64 }).OSC_PHASE = f0 ∧
    (phaseAdvance 0xC000000000000000#64 demo).OSC_PHASE = 0x3FE8000000000000#64 ∧
    phaseWrap 0xBBC79CA10C924223#64 = f0 ∧
    (phaseAdvance 0x7FE1CCF385EBC8A0#64 { demo with DT := 0x4010000000000000#64 }).FAULTS = 0x80#16 := by decide +kernel

/-- X-1, X-4. -/
theorem test_mixer : mixStep fHalf fHalf 0x3FD0000000000000#64 = fHalf ∧
    mixStep 0xBFE0000000000000#64 f0 0x8000000000000000#64 = 0x8000000000000000#64 := by decide +kernel

/-- The table T4 of the vectors. -/
def table4 : Memory := [(0, f0), (1, fHalf), (2, f1), (3, fHalf)]

/-- W-1 to W-7, wrapping. -/
theorem test_shaper_wrap : (([f0, 0x3FD0000000000000#64, 0x3FE8000000000000#64, f1, 0x3FF8000000000000#64,
      0xBFF8000000000000#64, 0xBFF0000000000000#64].map fun p =>
        (shaperLookup 16 .wrap .wtL table4 4 (shaperPosition .wrap p)).toOption)) =
      [some f1, some 0x3FE8000000000000#64, some 0x3FD0000000000000#64, some f0, some fHalf, some fHalf, some f0] := by
  decide +kernel

/-- W-1 to W-7, clamping. -/
theorem test_shaper_clamp : (([f0, 0x3FD0000000000000#64, 0x3FE8000000000000#64, f1, 0x3FF8000000000000#64,
      0xBFF8000000000000#64].map fun p => (shaperLookup 16 .clamp .wtL table4 4 (shaperPosition .clamp p)).toOption)) =
      [some f1, some 0x3FE8000000000000#64, some fHalf, some fHalf, some fHalf, some f0] := by decide +kernel

/-- W-8: a position that is not finite. -/
theorem test_shaper_nonfinite : shaperPosition .wrap 0x7FF0000000000000#64 = f0 ∧
    (shaperStep testParams .left 0x7FF0000000000000#64 demo).FAULTS = 0x80#16 := by decide +kernel

/-- P-3 and P-7: three channels, and an output that is not finite. -/
theorem test_output : let s := { demoBlock 5#20 9#20 with
      blk := { (demoBlock 5#20 9#20).blk with BLK_C := 3#4 }, par := { demo.par with P_SUSTAIN := f1 } }
    (sampleOutput 0x3FE8000000000000#64 0x3FD0000000000000#64 s).OUT =
      [(5, 0x3FE8000000000000#64), (2 ^ 20 + 5, 0x3FD0000000000000#64), (2 ^ 21 + 5, f0)] ∧
    (sampleOutput 0x7FF0000000000000#64 fHalf s).FAULTS = 0x80#16 ∧
    hostRead (sampleOutput 0x7FF0000000000000#64 fHalf s) 0#4 5#20 = some f0 := by decide +kernel

/-- B-8, B-9, B-11, V-8.6: note-offs. -/
theorem test_noteOff : (noteOffEv 60#8 { demo with NS := [60#8, 60#8] }).NS = [60#8] ∧
    (noteOffEv 60#8 { demo with NS := [60#8, 64#8] }).env = demo.env ∧
    (midiEvent testParams { offset := 0#64, status := 0x9F#8, d1 := 60#8, d2 := 0#8 } demo).NS = [] ∧
    (noteOffEv 60#8 demo).env.ENV_STATE = .release := by decide +kernel

/-- B-10 and B-14: a full note stack, and the retrigger of the first note. -/
theorem test_noteOn : (noteOnEv { testParams with noteCapRaw := 1#8 } 62#8 demo).FAULTS = 0x10#16 ∧
    (noteOnEv testParams 62#8 demo).NS = [60#8, 62#8] ∧
    (noteOnEv testParams 62#8 { demo with NS := [] }).RMP_RATE =
      { cur := f0, start := f0, endVal := 0x4020000000000000#64, dur := 0x3F847AE147AE147B#64, elapsed := f0 } ∧
    (noteOnEv testParams 62#8 { demo with NS := [] }).env.ENV_STATE = .attack := by decide +kernel

/-- B-12: the carry, and B-13: an empty block's end. -/
theorem test_blockEnd : ((blockEnd (demoBlock 2#20 2#20)).MQ.map fun ev => ev.offset) = [1#64] ∧
    (blockEnd { demoBlock 2#20 2#20 with SHP_LAST_L := fHalf }).SHAPER_MAP = fHalf ∧
    (blockEnd { demoBlock 0#20 0#20 with SHP_LAST_L := fHalf }).SHAPER_MAP = f0 := by decide +kernel

/-! ### Fetching and stepping -/

/-- `step` runs the command placed where it takes its next one, and answers a next state. -/
def runs (nbits w : Nat) : Bool :=
  match step (State.reset.withFetchWord nbits w) with
  | .next _ => true
  | _ => false

theorem test_fetch : (runs 32 0x00000000 && runs 96 0x40E588800000000001000200 && runs 32 0x35000000 && runs 32 0x04000000 &&
    runs 32 0x02002002 && runs 32 0x22000000 && runs 96 0x420000001 && runs 32 0x41000037) = true := by decide +kernel

/-- The response of a placed GET_STATUS is delivered on AUDIO. -/
theorem test_step_delivers : (match step ({ demo with MQ := [] }.withFetchWord 32 0x33000000) with
    | .next t => t.AUDIO_RESP == [1#64]
    | _ => false) = true := by decide +kernel


/-! ### Witnesses: states and operands that meet each obligation's hypotheses -/

/-- An outcome or a memory operation's answer is a next state. -/
def isNext (o : Host.Outcome State Machine.Fault Refusal) : Bool :=
  match o with
  | .next _ => true
  | _ => false

theorem next_of_isNext {o : Host.Outcome State Machine.Fault Refusal} (h : isNext o = true) : ∃ t, o = .next t := by
  cases o with
  | next t => exact ⟨t, rfl⟩
  | fault f => exact nomatch h
  | refused r => exact nomatch h

theorem ok_of_isSome {r : Except Machine.Fault State} (h : r.toOption.isSome = true) : ∃ t, r = .ok t := by
  cases r with
  | ok t => exact ⟨t, rfl⟩
  | error f => exact nomatch h

/-- Every capacity holds one. -/
theorem one_le_caps : 1 ≤ Config.params.wtCap ∧ 1 ≤ Config.params.noteCap := ⟨Nat.le_max_left _ _, Nat.le_max_left _ _⟩

theorem live_half {a : Nat} (h : a < 1) : LiveWord [(0, fHalf)] a := by
  obtain rfl : a = 0 := by omega
  exact ⟨fHalf, rfl, by decide +kernel⟩

theorem live_one {a : Nat} (h : a < 1) : LiveWord [(0, f1)] a := by
  obtain rfl : a = 0 := by omega
  exact ⟨f1, rfl, by decide +kernel⟩

/-- The demo machine with another sequencer, open load and streams. -/
def variant (blk : Sequencer) (active : Bool) (count : Nat) (a c : List Byte) : State :=
  { demo with
    blk := blk, stg := { demo.stg with STG_ACTIVE := active, STG_COUNT := count }, AUDIO_IN := a, CONTROL_IN := c }

/-- It has the invariant where its block runs no further than its end and its queue, and its load has at most its sample. -/
theorem variant_inv (blk : Sequencer) (active : Bool) (count : Nat) (a c : List Byte) (hc : count ≤ 1)
    (h : blk.BLK_ACTIVE = true → blk.BLK_S.toNat ≤ blk.BLK_N.toNat ∧ blk.BLK_S.toNat ≤ 3) :
    Inv Config.params (variant blk active count a c) where
  outWf := rfl
  wtLWf := rfl
  wtRWf := rfl
  stg0Wf := rfl
  stg1Wf := rfl
  outFinite := fun c hc => nomatch hc
  tableFits := one_le_caps.1
  leftLive := fun _ ha => live_half ha
  rightLive := fun _ ha => live_half ha
  loadShape := fun _ => ⟨Nat.le_refl 1, one_le_caps.1, hc⟩
  stagedLeft := fun _ _ hf _ => live_one hf
  stagedRight := fun _ f _ hf => absurd hf (by show ¬ (1 + f < count); omega)
  queueOrder := List.pairwise_singleton _ _
  queueBound := (by decide : demo.MQ.length ≤ demo.BLOCK_SIZE.toNat)
  notesBound := one_le_caps.2
  faultBits := (by decide : demo.FAULTS >>> 8 = 0#16)
  firstFault := ⟨fun _ => rfl, fun _ => rfl⟩
  running := fun ha => ⟨rfl, (h ha).1, fun ev hev => by
    obtain rfl := List.mem_singleton.mp hev
    exact (h ha).2⟩
  period := fun _ => (by decide +kernel : isFinite demo.DT = true ∧ flt f0 demo.DT = true)

theorem demo_inv : Inv Config.params demo := variant_inv demo.blk true 1 [] [] (Nat.le_refl 1) fun h => nomatch h

/-- The demo machine in a block, at step k of n. -/
theorem demoBlock_inv (k n : BitVec 20) (h : k.toNat ≤ n.toNat ∧ k.toNat ≤ 3) : Inv Config.params (demoBlock k n) :=
  variant_inv (demoBlock k n).blk true 1 [] [] (Nat.le_refl 1) fun _ => h

/-- The demo machine with a command waiting on AUDIO. -/
theorem waiting_inv (i : Instr) : Inv Config.params (waiting .audio i demo) :=
  variant_inv demo.blk true 1 (demo.AUDIO_IN ++ encode i) [] (Nat.le_refl 1) fun h => nomatch h

/-- The demo machine has the signal invariant. -/
theorem demo_signalInv : SignalInv demo where
  gain := by constructor <;> decide +kernel
  sustain := by constructor <;> decide +kernel
  attackFinite := by decide +kernel
  decayFinite := by decide +kernel
  releaseFinite := by decide +kernel
  envelope := by constructor <;> decide +kernel
  elapsed := by constructor <;> decide +kernel
  phase := by constructor <;> decide +kernel
  mapLeft := by constructor <;> decide +kernel
  mapRight := by constructor <;> decide +kernel
  mapShown := by constructor <;> decide +kernel

/-- A command waiting changes none of the signals. -/
theorem waiting_signalInv (i : Instr) : SignalInv (waiting .audio i demo) :=
  have h := demo_signalInv
  ⟨h.gain, h.sustain, h.attackFinite, h.decayFinite, h.releaseFinite, h.envelope, h.elapsed, h.phase, h.mapLeft, h.mapRight,
    h.mapShown⟩

theorem witness_EncodeUnique : decodeWords 0x41000037#32 0#64 = .ok (.getNoiseSnapshot .shape 7#4) := by decide +kernel

theorem witness_ReservedOpIllegal : (0x05000000#32 : CmdWord).toNat / 2 ^ 24 ∉ opcodes ∧
    (0xFFFFFFFF#32 : CmdWord).toNat / 2 ^ 24 ∉ opcodes := by decide +kernel

/-- Both clauses, at the lowest and the highest reserved bit of a format and the highest bit of its operand. -/
theorem witness_ReservedBitsIllegal : (([0x41000040#32, 0x41800000#32, 0x20000010#32, 0x10000001#32].all fun cw : CmdWord =>
      cw.toNat / 2 ^ 24 ∈ opcodes ∧ cw &&& reservedMask (cw.toNat / 2 ^ 24) ≠ 0#32)) = true ∧
    (([0x4100003F#32, 0x2000000F#32, 0x01FFFFFF#32, 0x10000000#32].all fun cw : CmdWord =>
      cw.toNat / 2 ^ 24 ∈ opcodes ∧ cw &&& reservedMask (cw.toNat / 2 ^ 24) = 0#32)) = true := by decide +kernel

theorem witness_PortCheck : ∃ s : State, s.PORT = .control ∧
    ∃ i : Instr, (∃ bs sr, i = .reset bs sr) ∨ (∃ n c, i = .processBlock n c) ∨ (∃ a b c o, i = .midiMsg a b c o) ∨
      i = .envStop :=
  ⟨{ demo with PORT := .control }, rfl, .envStop, .inr (.inr (.inr rfl))⟩

/-- Both clauses: a command, a reserved opcode, and a reserved bit with a data word. -/
theorem witness_StepRunsAudioCommand : (let s := waiting .audio .getStatus demo
    s.blk.BLK_ACTIVE = false ∧ decode s.AUDIO_IN = .command .getStatus [] ∧ hasCommand s.CONTROL_IN = false) ∧
    decode (CmdWord.bytes 0x05000000#32) = .illegal .reservedOp 0x05000000#32 [] ∧
    decode (CmdWord.bytes 0x10000001#32 ++ Word.bytes f1) = .illegal .reservedBits 0x10000001#32 [] := by
  decide +kernel

/-- Both clauses: a command, and an illegal word. -/
theorem witness_StepRunsControlCommand : (let s := waiting .control (.setAttack f2) demo
    decode s.CONTROL_IN = .command (.setAttack f2) [] ∧ s.blk.BLK_ACTIVE = false ∧ hasCommand s.AUDIO_IN = false) ∧
    (let s := { demo with CONTROL_IN := CmdWord.bytes 0xFF000000#32 };
      decode s.CONTROL_IN = .illegal .reservedOp 0xFF000000#32 [] ∧ s.blk.BLK_ACTIVE = false ∧
      hasCommand s.AUDIO_IN = false) := by
  decide +kernel

/-- Both clauses: a sample step of a running block that answers, and the end. -/
theorem witness_StepRunsBlock : let s := { demoBlock 0#20 4#20 with WT_N := 0 }
    s.blk.BLK_ACTIVE = true ∧ hasCommand s.CONTROL_IN = false ∧ s.blk.BLK_S.toNat < s.blk.BLK_N.toNat ∧
    (sampleStep testParams s).toOption.isSome = true ∧
    (demoBlock 4#20 4#20).blk.BLK_N.toNat ≤ (demoBlock 4#20 4#20).blk.BLK_S.toNat := by decide +kernel

theorem witness_IdleChangesNothing : demo.blk.BLK_ACTIVE = false ∧ hasCommand demo.AUDIO_IN = false ∧
    hasCommand demo.CONTROL_IN = false := by decide +kernel

/-- A step that records a second fault. -/
theorem witness_FaultsSticky : let s := { waiting .audio (.setAttack 0x7FF8000000000000#64) demo with FAULTS := 2#16 }
    ∃ t, step s = .next t := next_of_isNext (by decide +kernel)

theorem witness_CommandWriters : ∃ t, exec (.setNoiseMod f2) demo = .next t := next_of_isNext (by decide +kernel)

theorem witness_QueueInsertStable : demo.MQ.Pairwise fun a b => a.offset.toNat ≤ b.offset.toNat :=
  List.pairwise_singleton _ _

/-- The three clauses of WT_PUSH: not finite, out of sequence, and the last sample of a load. -/
theorem witness_WtPushEffect :
    (demo.stg.STG_ACTIVE = true ∧ demo.stg.STG_N ≤ Config.params.wtCap) ∧
    isFinite 0x7FF0000000000000#64 = false ∧
    (isFinite f1 = true ∧ demo.stg.STG_CH.toNat * demo.stg.STG_N ≤ demo.stg.STG_COUNT) ∧
    (let s := { demo with stg := { demo.stg with STG_COUNT := 0 } };
      s.stg.STG_N ≤ Config.params.wtCap ∧ s.stg.STG_ACTIVE = true ∧ s.stg.STG_COUNT < s.stg.STG_CH.toNat * s.stg.STG_N) :=
  ⟨⟨rfl, one_le_caps.1⟩, by decide +kernel, ⟨by decide +kernel, by decide⟩, one_le_caps.1, rfl, by decide⟩

/-- The invariant without an open load, with a short one and with a whole one. -/
theorem witness_WtCommitEffect :
    (let s := variant demo.blk false 0 [] [];
      Inv Config.params s ∧ s.stg.STG_ACTIVE = false) ∧
    (let s := variant demo.blk true 0 [] [];
      Inv Config.params s ∧ s.stg.STG_ACTIVE = true ∧ s.stg.STG_COUNT ≠ s.stg.STG_CH.toNat * s.stg.STG_N) ∧
    (Inv Config.params demo ∧ demo.stg.STG_ACTIVE = true ∧
      demo.stg.STG_COUNT = demo.stg.STG_CH.toNat * demo.stg.STG_N) :=
  ⟨⟨variant_inv _ _ _ _ _ (Nat.zero_le 1) (fun h => nomatch h), rfl⟩,
    ⟨variant_inv _ _ _ _ _ (Nat.zero_le 1) (fun h => nomatch h), rfl, by decide⟩, demo_inv, rfl, by decide⟩

theorem witness_LoadPublishesTable : (1#4 : BitVec 4) ≠ 0#4 ∧ 1 ≤ Config.params.wtCap ∧ [f1].length = (1#4).toNat * 1 ∧
    (∀ x ∈ [f1], isFinite x = true) ∧ (2#4 : BitVec 4) ≠ 0#4 ∧ [f1, f2].length = (2#4).toNat * 1 ∧
    (∀ x ∈ [f1, f2], isFinite x = true) :=
  have h1 : isFinite f1 = true := by decide +kernel
  have h2 : isFinite f2 = true := by decide +kernel
  ⟨by decide, one_le_caps.1, rfl, by simp [h1], by decide, rfl, by simp [h1, h2]⟩

/-- A volume whose gain is finite, and one negative enough. -/
theorem witness_SetVolumeEffect :
    isFinite (pow64 Config.params f10 (fdiv Config.params.defVolume.bits f20)) = true ∧
    isFinite (silentVolume Config.params) = true ∧ fle (silentVolume Config.params) (silentVolume Config.params) = true :=
  have h := silentVolume_spec Config.params
  ⟨isFinite_powerOn_gain _, h.1, fle_iff.mpr ⟨(flt_iff.mp h.2).1, (flt_iff.mp h.2).1, le_refl _⟩⟩

theorem witness_StatusFields : demo.MQ.length < 2 ^ 24 ∧ demo.NS.length < 2 ^ 8 := by decide

/-- The two clauses at 8 and at 7. -/
theorem witness_SnapshotSlots : 7 < (8#4 : BitVec 4).toNat ∧ ((7 : Fin 8).val = (7#4 : BitVec 4).toNat) := by decide

theorem witness_NormalizedSnapshot : 7 < (15#4 : BitVec 4).toNat ∧ ((0 : Fin 8).val = (0#4 : BitVec 4).toNat) := by decide

/-- Both clauses, the second in the middle of the dial and at its top. -/
theorem witness_SetNoiseSnapshotEffect : isFinite 0x7FF0000000000000#64 = false ∧
    (isFinite 0x4002000000000000#64 = true ∧
      (2 : Fin 8).val = toInt (ffloor (fmin (fmax 0x4002000000000000#64 f0) f7)) ∧ (3 : Fin 8).val = min (2 + 1) 7) ∧
    (isFinite 0x4059000000000000#64 = true ∧
      (7 : Fin 8).val = toInt (ffloor (fmin (fmax 0x4059000000000000#64 f0) f7)) ∧ (7 : Fin 8).val = min (7 + 1) 7) := by
  decide +kernel

theorem witness_SnapshotTopEdge : isFinite f7 = true ∧ fle f7 f7 = true ∧ isFinite 0xC008000000000000#64 = true := by
  decide +kernel

theorem witness_SnapshotRoundTrip : (7#4 : BitVec 4).toNat ≤ 7 ∧ isFinite demo.par.P_MOD = true ∧
    isFinite demo.par.P_RATE = true ∧ isFinite demo.par.P_RANGE = true ∧ isFinite demo.par.P_SHAPE = true := by
  decide +kernel

/-- A ramp just at the end of its stage. -/
theorem witness_RampSettles : let r : Ramp := { cur := f1, start := f0, endVal := f1, dur := f1, elapsed := f1 }
    fle r.dur r.elapsed = true ∧ isFinite 0x3FD0000000000000#64 = true ∧ flt f0 0x3FD0000000000000#64 = true := by
  decide +kernel

/-- A rising and a falling stage. -/
theorem witness_RampMonotone : (([(f0, f1), (f1, f0)].all fun p =>
    let r : Ramp := { cur := p.1, start := p.1, endVal := p.2, dur := f1, elapsed := f0 }
    isFinite r.start && isFinite r.endVal && isFinite (fsub r.endVal r.start) && isFinite r.dur && isFinite r.elapsed &&
      fle f0 r.elapsed && isFinite 0x3FD0000000000000#64 && flt f0 0x3FD0000000000000#64 &&
      flt (fadd (fadd r.elapsed 0x3FD0000000000000#64) 0x3FD0000000000000#64) r.dur)) = true ∧
    fle f0 f1 = true := by decide +kernel

theorem witness_EnvelopeBounds : InUnit demo.par.P_SUSTAIN ∧ isFinite demo.par.P_ATTACK = true ∧
    isFinite demo.par.P_DECAY = true ∧ isFinite demo.par.P_RELEASE = true ∧ isFinite demo.DT = true ∧
    flt f0 demo.DT = true ∧ isFinite demo.env.ENV_ELAPSED = true ∧ fle f0 demo.env.ENV_ELAPSED = true ∧
    InUnit demo.env.ENV_OUT := by unfold InUnit; decide +kernel

theorem witness_PhaseStaysInCycle : fle f0 demo.OSC_PHASE = true ∧ flt demo.OSC_PHASE f1 = true := by decide +kernel

/-- A sine beyond 1.0 is the 1.0 of its sign, and one within is itself (R180). -/
theorem test_sine_bound :
    (let P := { testParams with sinRaw := fun x => finOfBits (if x = f0 then f2 else if x = f1 then fneg f2 else fneg fHalf) }
    sin64 P f0 = f1 ∧ sin64 P f1 = fneg f1 ∧ sin64 P f2 = fneg fHalf) := by decide +kernel

/-- Both clauses: the quarter cycle, and bounded noise with finite ramps, which the reference instance has. -/
theorem witness_ZeroModulation : (isFinite demo.DT = true ∧ demo.OSC_PHASE = 0x3FD0000000000000#64 ∧
      sin64 testParams 0x3FF921FB54442D18#64 = f1 ∧ isFinite fHalf = true) ∧
    NoiseBounded testParams ∧ NoiseReached testParams demo.NOISE_ST ∧
    isFinite (sampleScrub testParams demo).2.RMP_RANGE.cur = true ∧
    isFinite (sampleScrub testParams demo).2.RMP_SHAPE.cur = true :=
  ⟨by decide +kernel, refNoise_bounded rfl rfl, .init, by decide +kernel, by decide +kernel⟩

/-- Both clauses: a table on either side, and none. -/
theorem witness_EmptyTableSilence : (1 ≤ demo.WT_N ∧ demo.WT_N ≤ testParams.wtCap ∧
      (∀ a < demo.WT_N, memRead demo.WT_L a = some ((fun _ => fHalf) a)) ∧
      ∀ a < demo.WT_N, memRead demo.WT_R a = some ((fun _ => fHalf) a)) ∧
    (State.powerOn testParams).WT_N = 0 := by decide +kernel

/-- A commit of the whole mono load of the demo machine answers. -/
theorem demo_commit : ∃ t, exec .wtCommit demo = .next t := by
  have written : ∀ a < 1, memRead demo.stg.STG0 a ≠ none := by decide
  obtain ⟨l, hl⟩ := publish_answers .stg0 .wtL demo.WT_L one_le_caps.1 written
  obtain ⟨r, hr⟩ := publish_answers .stg0 .wtR demo.WT_R one_le_caps.1 written
  have hl : publish Config.params.wtCap .stg0 .wtL demo.stg.STG0 demo.stg.STG_N demo.WT_L = .ok l := hl
  have hr : publish Config.params.wtCap (rightSource demo.stg).1 .wtR (rightSource demo.stg).2 demo.stg.STG_N demo.WT_R =
    .ok r := hr
  have hc : ¬ (demo.stg.STG_COUNT ≠ loadSize demo.stg) := by decide
  have ha : ¬ ((!demo.stg.STG_ACTIVE) = true) := by decide
  refine ⟨respond 0#64
    { demo with WT_L := l, WT_R := r, WT_N := demo.stg.STG_N, stg := { demo.stg with STG_ACTIVE := false } }, ?_⟩
  show ofExcept (wtCommit Config.params demo) = _
  simp only [wtCommit, hl, hr, if_neg ha, if_neg hc]
  rfl

/-- The clauses: a step that answers, tables that agree in their frames but not past them, and a whole mono load. -/
theorem witness_MonoChannelsEqual : (let s := { demoBlock 0#20 4#20 with WT_R := [(0, fHalf), (1, f2)] };
      (∃ t, sampleStep testParams s = .ok t) ∧ (∀ a < s.WT_N, memRead s.WT_L a = memRead s.WT_R a) ∧
      2 ≤ s.blk.BLK_C.toNat) ∧
    demo.stg.STG_ACTIVE = true ∧ demo.stg.STG_CH = 1#4 ∧ demo.stg.STG_COUNT = demo.stg.STG_N ∧
    ∃ t, exec .wtCommit demo = .next t :=
  ⟨⟨ok_of_isSome (by decide +kernel), by decide, by decide⟩, rfl, rfl, rfl, demo_commit⟩

theorem witness_StereoSeparation : (∃ t, sampleStep testParams (demoBlock 0#20 4#20) = .ok t) ∧
    (∃ t, sampleStep testParams { demoBlock 0#20 4#20 with WT_R := [(0, f2)] } = .ok t) ∧
    (∃ t, sampleStep testParams { demoBlock 0#20 4#20 with WT_L := [(0, f2)] } = .ok t) :=
  ⟨ok_of_isSome (by decide +kernel), ok_of_isSome (by decide +kernel), ok_of_isSome (by decide +kernel)⟩

theorem witness_SampleStepSignals : ∃ t, sampleStep testParams (demoBlock 3#20 4#20) = .ok t :=
  ok_of_isSome (by decide +kernel)

/-- A pitch not held, the last note held, and one of two. -/
theorem witness_NoteOffEffect : 64#8 ∉ demo.NS ∧ (demo.NS = [] ++ 60#8 :: [] ∧ 60#8 ∉ ([] : List Byte)) ∧
    ([60#8, 60#8, 64#8] = [60#8] ++ 60#8 :: [64#8] ∧ 60#8 ∉ [64#8]) := by decide

theorem witness_OffsetsCarried : let s := demoBlock 3#20 3#20
    Inv Config.params s ∧ s.blk.BLK_ACTIVE = true ∧ s.blk.BLK_S = s.blk.BLK_N :=
  ⟨demoBlock_inv _ _ (by decide), rfl, rfl⟩

theorem witness_StepKeepsInv : let s := waiting .audio (.setAttack f2) demo
    Inv Config.params s ∧ ∃ t, step s = .next t :=
  ⟨waiting_inv _, next_of_isNext (by decide +kernel)⟩

/-- Both clauses: the demo machine, and the machine at power-on. -/
theorem witness_StepKeepsSignalInv : (let s := waiting .audio (.setSustain f2) demo
      Inv Config.params s ∧ SignalInv s ∧ ∃ t, step s = .next t) ∧
    (let s := waiting .audio .nop State.reset;
      (∃ t, step s = .next t) ∧ NoiseReached Config.params s.NOISE_ST) :=
  ⟨⟨waiting_inv _, waiting_signalInv _, next_of_isNext (by decide +kernel)⟩, next_of_isNext (by decide +kernel), .init⟩

theorem witness_EveryStepCompletesUnderInvariants : Inv Config.params (demoBlock 2#20 4#20) :=
  demoBlock_inv _ _ (by decide)

theorem witness_BlockRenders : let s := waiting .audio (.processBlock 2#20 2#4) demo
    Inv Config.params s ∧ s.READY = true ∧ s.blk.BLK_ACTIVE = false ∧
    decode s.AUDIO_IN = .command (.processBlock 2#20 2#4) [] ∧ hasCommand s.CONTROL_IN = false :=
  ⟨waiting_inv _, rfl, rfl, by decide +kernel, by decide +kernel⟩

end Sys2Proof.Tests
end

/-! What the words of a command do: the command's meaning where its format's reserved bits are 0, and the refusal of
R99 where they are not. -/

namespace Sys2Proof.Proofs

open Sys2Proof.Machine Sys2Proof.Claim Sys2Proof.Laws

/-- `IMM` is what stands below the opcode (R87). -/
theorem immOf_append (op : BitVec 8) (imm : BitVec 24) : immOf ((op ++ imm : BitVec 32)) = imm :=
  BitVec.extractLsb'_append_eq_right

/-- A refusal is the record of R262 with a response of 0, by the number of its code. -/
theorem refuse_eq_refused (cw : CmdWord) (code : FaultCode) (s : State) :
    refuse cw code s = refused cw (faultNumber code) s := rfl

/-- Words that decode behind a check of reserved bits run their command if those bits are 0, and else are ILLEGAL_OP (R99). -/
theorem issued_of_ifClear {w : Nat} {cw : CmdWord} {dw : Word} {reserved : BitVec w} {i : Instr}
    (decoded : decodeWords cw dw = ifClear reserved i) (s : State) :
    issued cw dw s = if reserved = 0#w then exec i s else .next (refused cw 1 s) := by
  unfold issued
  rw [decoded, ifClear]
  by_cases clear : reserved = 0#w
  · simp only [if_pos clear]
  · simp only [if_neg clear, illegalCommand, refuse_eq_refused, faultNumber]

/-- An opcode whose row of R96 reserves all of `IMM` is of format N or D. -/
theorem plainWords_of_decode {op : BitVec 8} {ctor : Word → Instr}
    (decoded : ∀ (imm : BitVec 24) dw, decodeWords (op ++ imm : BitVec 32) dw = ifClear imm (ctor dw)) :
    PlainWords op ctor :=
  fun imm dw s => issued_of_ifClear (decoded imm dw) s

/-- The row of GET_STATUS in the opcode map (R96). -/
theorem decodeWords_getStatus (imm : BitVec 24) (dw : Word) :
    decodeWords (0x35#8 ++ imm : BitVec 32) dw = ifClear imm .getStatus := by
  simp only [decodeWords, opOf_append, immOf_append, BitVec.toNat_ofNat, Nat.reducePow, Nat.reduceMod]

end Sys2Proof.Proofs

/-! The fields of the status word (R44), and what GET_STATUS answers (R237). A field is read by dropping the fields
below it, one append each. -/

namespace Sys2Proof.Proofs

open Sys2Proof.Machine Sys2Proof.Claim

/-- A bit above the lower part of an append is a bit of the upper part. -/
theorem getLsbD_append_of_le {v w i : Nat} {hi : BitVec v} {lo : BitVec w} (above : w ≤ i) :
    (hi ++ lo).getLsbD i = hi.getLsbD (i - w) := by
  rw [BitVec.getLsbD_append, if_neg (Nat.not_lt.mpr above)]

/-- The lowest bit of an append to one flag is the flag. -/
theorem getLsbD_append_ofBool {v : Nat} (hi : BitVec v) (b : Bool) : (hi ++ BitVec.ofBool b).getLsbD 0 = b := by
  rw [BitVec.getLsbD_append]
  simp

theorem statusWord_READY (s : State) : (statusWord s).getLsbD 0 = s.READY :=
  getLsbD_append_ofBool _ _

theorem statusWord_ENV_STATE (s : State) : (statusWord s).extractLsb' 1 3 = envCode s.env.ENV_STATE := by
  unfold statusWord
  rw [BitVec.extractLsb'_append_eq_of_le (by decide)]
  exact BitVec.extractLsb'_append_eq_right

theorem statusWord_ENV_AUTOREL (s : State) : (statusWord s).getLsbD 4 = s.env.ENV_AUTOREL := by
  unfold statusWord
  iterate 2 rw [getLsbD_append_of_le (by decide)]
  exact getLsbD_append_ofBool _ _

theorem statusWord_STG_ACTIVE (s : State) : (statusWord s).getLsbD 5 = s.stg.STG_ACTIVE := by
  unfold statusWord
  iterate 3 rw [getLsbD_append_of_le (by decide)]
  exact getLsbD_append_ofBool _ _

theorem statusWord_P_TINT (s : State) : (statusWord s).extractLsb' 6 2 = tintCode s.par.P_TINT := by
  unfold statusWord
  iterate 4 rw [BitVec.extractLsb'_append_eq_of_le (by decide)]
  exact BitVec.extractLsb'_append_eq_right

theorem statusWord_NS {s : State} (notesBound : s.NS.length < 2 ^ 8) :
    ((statusWord s).extractLsb' 8 8).toNat = s.NS.length := by
  have field : (statusWord s).extractLsb' 8 8 = BitVec.ofNat 8 s.NS.length := by
    unfold statusWord
    iterate 5 rw [BitVec.extractLsb'_append_eq_of_le (by decide)]
    exact BitVec.extractLsb'_append_eq_right
  rw [field, BitVec.toNat_ofNat, Nat.mod_eq_of_lt notesBound]

theorem statusWord_MQ {s : State} (queueBound : s.MQ.length < 2 ^ 24) :
    ((statusWord s).extractLsb' 16 24).toNat = s.MQ.length := by
  have field : (statusWord s).extractLsb' 16 24 = BitVec.ofNat 24 s.MQ.length := by
    unfold statusWord
    iterate 6 rw [BitVec.extractLsb'_append_eq_of_le (by decide)]
    exact BitVec.extractLsb'_append_eq_right
  rw [field, BitVec.toNat_ofNat, Nat.mod_eq_of_lt queueBound]

theorem statusWord_FAULTS (s : State) : (statusWord s).extractLsb' 40 16 = s.FAULTS := by
  unfold statusWord
  iterate 7 rw [BitVec.extractLsb'_append_eq_of_le (by decide)]
  exact BitVec.extractLsb'_append_eq_right

theorem statusWord_reserved (s : State) : (statusWord s).extractLsb' 56 7 = 0#7 := by
  unfold statusWord
  iterate 8 rw [BitVec.extractLsb'_append_eq_of_le (by decide)]
  exact BitVec.extractLsb'_append_eq_right

theorem statusWord_BLK_ACTIVE (s : State) : (statusWord s).getLsbD 63 = s.blk.BLK_ACTIVE := by
  unfold statusWord
  iterate 9 rw [getLsbD_append_of_le (by decide)]
  simp

/-- The numbers of the envelope states (R34). -/
theorem envCode_toNat (e : EnvState) : (envCode e).toNat = (match e with
    | .off => 0 | .attack => 1 | .decay => 2 | .sustain => 3 | .release => 4) := by
  cases e <;> rfl

/-- The numbers of the tints (R31). -/
theorem tintCode_toNat (t : Tint) : (tintCode t).toNat = (match t with | .white => 0 | .pink => 1 | .brown => 2) := by
  cases t <;> rfl

/-- GET_STATUS answers the status word and changes nothing else (R237). -/
theorem exec_getStatus (s : State) : exec .getStatus s = .next (answered (statusWord s) s) := rfl

/-- Settles O31: the fields of the status word, the two lengths by the bounds of the queue and the note stack. -/
theorem statusFields : Obligations.StatusFields := by
  refine ⟨plainWords_of_decode decodeWords_getStatus, fun s queueBound notesBound => ?_⟩
  have envState := (congrArg BitVec.toNat (statusWord_ENV_STATE s)).trans (envCode_toNat _)
  have tint := (congrArg BitVec.toNat (statusWord_P_TINT s)).trans (tintCode_toNat _)
  exact ⟨statusWord s, exec_getStatus s, statusWord_READY s, envState, statusWord_ENV_AUTOREL s, statusWord_STG_ACTIVE s,
    tint, statusWord_NS notesBound, statusWord_MQ queueBound, statusWord_FAULTS s, statusWord_reserved s,
    statusWord_BLK_ACTIVE s⟩

end Sys2Proof.Proofs

/-! The power-on values (R47). -/

namespace Sys2Proof.Proofs

open Sys2Proof.Machine

/-- Every snapshot slot holds the defaults of the four noise parameters at power-on (R47, R248). -/
theorem powerOn_SNAP (P : Params) (k : Fin 8) : (State.powerOn P).SNAP[k] =
    { mod := P.defMod.bits, rate := P.defRate.bits, range := P.defRange.bits, shape := P.defShape.bits } :=
  Vector.getElem_replicate _

/-- Settles O55: each register's value is its field of `State.powerOn`; a slot is one of the eight equal ones. -/
theorem powerOnValues : Obligations.PowerOnValues :=
  ⟨rfl, rfl, rfl, rfl, rfl, rfl, rfl, rfl, rfl, rfl, rfl, rfl, rfl, rfl, rfl, rfl, rfl, rfl, rfl, rfl, rfl, rfl, rfl,
    powerOn_SNAP Config.params, rfl⟩

end Sys2Proof.Proofs

/-! What the decoder reads at the head of a stream: the words back from their bytes (R68, R69), the length from the opcode
(R97), and the bits an opcode's format reserves (R98, R99). -/

namespace Sys2Proof.Proofs

open Sys2Proof.Machine Sys2Proof.Claim Sys2Proof.Laws

/-- The opcode is what stands above `IMM` (R87). -/
theorem opOf_toNat (cw : CmdWord) : (opOf cw).toNat = cw.toNat / 2 ^ 24 := by
  unfold opOf
  rw [BitVec.extractLsb'_toNat, Nat.shiftRight_eq_div_pow]
  omega

/-- The opcodes with a data word are those R97 lists. -/
theorem opHasData_iff (op : BitVec 8) : opHasData op = true ↔ op.toNat ∈ dataOpcodes := by
  revert op
  decide

/-- An opcode with a data word is in the opcode map (R96, R97). -/
theorem dataOpcodes_subset : dataOpcodes ⊆ opcodes := by decide

/-- A command word is read back from its bytes (R68). -/
theorem cmdWordOf_bytes (cw : CmdWord) :
    cmdWordOf (cw.extractLsb' 0 8) (cw.extractLsb' 8 8) (cw.extractLsb' 16 8) (cw.extractLsb' 24 8) = cw := by
  unfold cmdWordOf
  iterate 3 rw [BitVec.extractLsb'_append_extractLsb'_eq_extractLsb' (by decide)]
  exact BitVec.extractLsb'_eq_self

/-- A data word is read back from its bytes (R68). -/
theorem wordOf_bytes (dw : Word) :
    wordOf (dw.extractLsb' 0 8) (dw.extractLsb' 8 8) (dw.extractLsb' 16 8) (dw.extractLsb' 24 8)
      (dw.extractLsb' 32 8) (dw.extractLsb' 40 8) (dw.extractLsb' 48 8) (dw.extractLsb' 56 8) = dw := by
  unfold wordOf
  iterate 7 rw [BitVec.extractLsb'_append_extractLsb'_eq_extractLsb' (by decide)]
  exact BitVec.extractLsb'_eq_self

/-- Where the opcode has no data word, the command is its command word alone (R97). -/
theorem decode_bytes_of_no_data {cw : CmdWord} (alone : opHasData (opOf cw) = false) (rest : List Byte) :
    decode (CmdWord.bytes cw ++ rest) = decodeWhole cw 0#64 rest := by
  simp only [CmdWord.bytes, List.cons_append, List.nil_append, decode, cmdWordOf_bytes, alone, Bool.false_eq_true, if_false]

/-- Where the opcode has a data word, the command is its two words (R97). -/
theorem decode_bytes_of_data {cw : CmdWord} (paired : opHasData (opOf cw) = true) (dw : Word) (rest : List Byte) :
    decode (CmdWord.bytes cw ++ (Word.bytes dw ++ rest)) = decodeWhole cw dw rest := by
  simp only [CmdWord.bytes, Word.bytes, List.cons_append, List.nil_append, decode, cmdWordOf_bytes, wordOf_bytes, paired,
    if_true]

/-- A whole command's stream decodes to what its words mean, and nothing of what follows is taken: the data word counts only
where the opcode has one. -/
theorem decode_streamOf (cw : CmdWord) (dw : Word) (rest : List Byte) :
    decode (streamOf cw dw rest) = decodeWhole cw (if opHasData (opOf cw) then dw else 0#64) rest := by
  unfold streamOf
  rw [← opOf_toNat, List.append_assoc]
  by_cases hasData : opHasData (opOf cw) = true
  · rw [if_pos ((opHasData_iff _).mp hasData), if_pos hasData]
    exact decode_bytes_of_data hasData dw rest
  · rw [if_neg (hasData ∘ (opHasData_iff _).mpr), if_neg hasData, List.nil_append]
    exact decode_bytes_of_no_data (Bool.eq_false_iff.mpr hasData) rest

/-- Words that are no command are refused with ILLEGAL_OP, whichever check failed (R264). -/
theorem issued_of_error {cw : CmdWord} {dw : Word} {why : Illegal} (rejected : decodeWords cw dw = .error why) (s : State) :
    issued cw dw s = .next (refused cw 1 s) := by
  unfold issued
  rw [rejected]
  exact congrArg _ (refuse_eq_refused cw .illegalOp s)

/-- An opcode in no row of the opcode map is reserved (R98). -/
theorem decodeWords_of_notMem_opcodes {cw : CmdWord} (reserved : (opOf cw).toNat ∉ opcodes) (dw : Word) :
    decodeWords cw dw = .error .reservedOp := by
  unfold decodeWords
  split
  case h_30 => rfl
  all_goals
    rename_i opIs
    exact absurd (opIs ▸ by decide) reserved

/-- The lowest bit and the number of the bits of a command word that its opcode's format reserves (R89 to R95). -/
def reservedField (op : Nat) : Nat × Nat :=
  if op ∈ [0x01, 0x02, 0x03] then (0, 0)
  else if op ∈ [0x20, 0x40] then (4, 20)
  else if op ∈ [0x41, 0x42] then (6, 18)
  else (0, 24)

/-- The command word with ones in a field and zeros elsewhere. -/
def fieldMask (field : Nat × Nat) : CmdWord := (BitVec.allOnes field.2).setWidth 32 <<< field.1

/-- R99's masks are the masks of the formats' reserved fields. -/
theorem reservedMask_eq (op : Nat) : reservedMask op = fieldMask (reservedField op) := by
  unfold reservedMask reservedField
  split_ifs <;> rfl

/-- A word has no bit of a field's mask set exactly where the field is 0. -/
theorem and_fieldMask_eq_zero_iff (cw : CmdWord) (field : Nat × Nat) :
    cw &&& fieldMask field = 0#32 ↔ cw.extractLsb' field.1 field.2 = 0#field.2 := by
  obtain ⟨start, len⟩ := field
  have maskBit (k : Nat) (inWord : k < 32) : (fieldMask (start, len)).getLsbD k = decide (start ≤ k ∧ k < start + len) := by
    simp only [fieldMask, BitVec.getLsbD_shiftLeft, BitVec.getLsbD_setWidth, BitVec.getLsbD_allOnes]
    grind
  constructor <;> intro clear
  · refine BitVec.eq_of_getLsbD_eq fun j inField => ?_
    have bit := congrArg (BitVec.getLsbD · (start + j)) clear
    by_cases inWord : start + j < 32
    · simpa [BitVec.getLsbD_extractLsb', inField, maskBit _ inWord] using bit
    · simp [BitVec.getLsbD_extractLsb', BitVec.getLsbD_of_ge cw _ (Nat.not_lt.mp inWord)]
  · refine BitVec.eq_of_getLsbD_eq fun k inWord => ?_
    rw [BitVec.getLsbD_and, maskBit k inWord, BitVec.getLsbD_zero, Bool.and_eq_false_imp]
    intro bitSet
    by_contra inMask
    obtain ⟨above, below⟩ : start ≤ k ∧ k < start + len := by simpa using inMask
    have inField : k - start < len := by omega
    have bitClear : cw.getLsbD k = false := by
      simpa [BitVec.getLsbD_extractLsb', Nat.add_sub_cancel' above, inField] using
        congrArg (BitVec.getLsbD · (k - start)) clear
    exact Bool.noConfusion (bitSet.symm.trans bitClear)

/-- A format that reserves no bit rejects no word. -/
theorem ifClear_no_bits (reserved : BitVec 0) (i : Instr) : ifClear reserved i = .ok i :=
  if_pos (Subsingleton.elim _ _)

/-- An opcode of the opcode map decodes to its command behind the check of its format's reserved bits (R96, R99). -/
theorem decodeWords_of_mem_opcodes {cw : CmdWord} (mapped : (opOf cw).toNat ∈ opcodes) (dw : Word) :
    ∃ i, decodeWords cw dw =
      ifClear (cw.extractLsb' (reservedField (opOf cw).toNat).1 (reservedField (opOf cw).toNat).2) i := by
  unfold decodeWords
  split
  case h_30 => simp_all [opcodes]
  all_goals
    rename_i opIs
    rw [opIs]
  case h_2 | h_3 | h_4 => exact ⟨_, (ifClear_no_bits _ _).symm⟩
  all_goals exact ⟨_, rfl⟩

/-- A word of the opcode map with a reserved bit set is rejected for it (R99). -/
theorem decodeWords_of_reserved_set {cw : CmdWord} (mapped : (opOf cw).toNat ∈ opcodes)
    (marked : cw &&& reservedMask (opOf cw).toNat ≠ 0#32) (dw : Word) : decodeWords cw dw = .error .reservedBits := by
  obtain ⟨i, decoded⟩ := decodeWords_of_mem_opcodes mapped dw
  rw [reservedMask_eq, Ne, and_fieldMask_eq_zero_iff] at marked
  rw [decoded]
  exact if_neg marked

/-- A word of the opcode map with no reserved bit set is a command (R99). -/
theorem decodeWords_of_reserved_clear {cw : CmdWord} (mapped : (opOf cw).toNat ∈ opcodes)
    (clear : cw &&& reservedMask (opOf cw).toNat = 0#32) (dw : Word) : ∃ i, decodeWords cw dw = .ok i := by
  obtain ⟨i, decoded⟩ := decodeWords_of_mem_opcodes mapped dw
  rw [reservedMask_eq, and_fieldMask_eq_zero_iff] at clear
  rw [decoded]
  exact ⟨i, if_pos clear⟩

/-- Settles O4: no opcode with a data word is reserved, so a reserved one is its command word alone. -/
theorem reservedOpIllegal : Obligations.ReservedOpIllegal := by
  intro cw dw rest s reserved
  rw [← opOf_toNat] at reserved
  have alone : opHasData (opOf cw) = false := by
    rw [Bool.eq_false_iff, Ne, opHasData_iff]
    exact fun hasData => reserved (dataOpcodes_subset hasData)
  refine ⟨?_, issued_of_error (decodeWords_of_notMem_opcodes reserved dw) s⟩
  rw [decode_bytes_of_no_data alone, decodeWhole, decodeWords_of_notMem_opcodes reserved]

/-- Settles O5: the length is read from the opcode before the reserved bits are checked, so the data word is consumed in
both cases. -/
theorem reservedBitsIllegal : Obligations.ReservedBitsIllegal := by
  intro cw dw rest s mapped
  rw [← opOf_toNat] at mapped ⊢
  rw [decode_streamOf, decodeWhole]
  constructor
  · intro marked
    refine ⟨?_, issued_of_error (decodeWords_of_reserved_set mapped marked dw) s⟩
    rw [decodeWords_of_reserved_set mapped marked]
  · intro clear
    obtain ⟨i, decoded⟩ := decodeWords_of_reserved_clear mapped clear (if opHasData (opOf cw) then dw else 0#64)
    exact ⟨i, by rw [decoded]⟩

end Sys2Proof.Proofs

/-! The encoding examples of R106. -/

namespace Sys2Proof.Proofs

open Sys2Proof.Machine

theorem assembleLine_reset :
    assembleLine "RESET 44100.0, 512".toList = some (.audio, [.reset 512#24 0x40E5888000000000#64]) := by decide +kernel

theorem assembleLine_processBlock :
    assembleLine "PROCESS_BLOCK 512, 2".toList = some (.audio, [.processBlock 512#20 2#4]) := by decide +kernel

theorem assembleLine_noteOn :
    assembleLine "NOTE_ON 60, 100, 0".toList = some (.audio, [.midiMsg 0x90#8 60#8 100#8 0#64]) := by decide +kernel

theorem assembleLine_setNoiseMod :
    assembleLine "SET_NOISE_MOD 0.0".toList = some (.audio, [.setNoiseMod 0#64]) := by decide +kernel

theorem assembleLine_getNoiseSnapshot :
    assembleLine "GET_NOISE_SNAPSHOT 7, SHAPE".toList = some (.audio, [.getNoiseSnapshot .shape 7#4]) := by decide +kernel

theorem assembleLine_wtBegin :
    assembleLine "WT_BEGIN 1, 4".toList = some (.audio, [.wtBegin 1#4 4#64]) := by decide +kernel

/-- Settles O1: each line's commands are evaluated above; its words, and what they decode to, are evaluated here. -/
theorem decodesSpecExamples : Obligations.DecodesSpecExamples :=
  ⟨⟨assembleLine_reset, rfl, rfl⟩, ⟨assembleLine_processBlock, rfl, rfl⟩, ⟨assembleLine_noteOn, rfl, rfl⟩,
    ⟨assembleLine_setNoiseMod, rfl, rfl⟩, ⟨assembleLine_getNoiseSnapshot, rfl, rfl⟩, ⟨assembleLine_wtBegin, rfl, rfl⟩⟩

end Sys2Proof.Proofs

/-! The port check of the four AUDIO-only commands (R100). -/

namespace Sys2Proof.Proofs

open Sys2Proof.Machine Sys2Proof.Claim

/-- On CONTROL the port check refuses with ILLEGAL_OP, whatever it guards (R100). -/
theorem onAudio_eq_refused {s : State} (onControl : s.PORT = .control) (cw : CmdWord) (run : State → State) :
    onAudio cw s run = refused cw 1 s :=
  (onAudio_control onControl).trans (refuse_eq_refused cw .illegalOp s)

/-- Settles O7: the port check is the outermost check of each of the four commands (R272). -/
theorem portCheck : Obligations.PortCheck := by
  rintro i s (⟨blockSize, sampleRate, rfl⟩ | ⟨frameCount, channelCount, rfl⟩ | ⟨status, d1, d2, offset, rfl⟩ | rfl) onControl
  · simp only [exec, execReset, resetCommand, onAudio_eq_refused onControl]
  · simp only [exec, execProcessBlock, processBlock, onAudio_eq_refused onControl]
  · simp only [exec, execMidiMsg, midiMsg, onAudio_eq_refused onControl]
  · simp only [exec, execEnvStop, onAudio_eq_refused onControl]

end Sys2Proof.Proofs

/-! The ramp: how it is armed (R112), and a tick at or past the end of its stage and inside it (R113). -/

namespace Sys2Proof.Proofs

open Sys2Proof.Machine

/-- A duration above zero starts a stage from the old value (R112). -/
theorem rampActivate_of_pos {d : F64} (positive : flt f0 d = true) (start target : F64) :
    rampActivate d start target = { cur := start, start := start, endVal := target, dur := d, elapsed := f0 } :=
  if_pos positive

/-- Any other duration, -0.0 included, jumps to the target (R112). -/
theorem rampActivate_of_not_pos {d : F64} (immediate : ¬ flt f0 d = true) (start target : F64) :
    rampActivate d start target = { cur := target, start := target, endVal := target, dur := f0, elapsed := f0 } :=
  if_neg immediate

/-- At or past the end of the stage the value is the end value itself, not an interpolation (R113). -/
theorem rampTick_of_ended {dt : F64} {r : Ramp} (ended : fle r.dur (fadd r.elapsed dt) = true) :
    rampTick dt r = { r with elapsed := fadd r.elapsed dt, cur := r.endVal } := by
  simp only [rampTick, if_pos ended]

/-- Inside the stage the value is interpolated (R113). -/
theorem rampTick_of_inside {dt : F64} {r : Ramp} (inside : ¬ fle r.dur (fadd r.elapsed dt) = true) :
    rampTick dt r = { r with elapsed := fadd r.elapsed dt, cur := rampInterpolate r (fadd r.elapsed dt) } := by
  simp only [rampTick, if_neg inside]

/-- A tick records NUMERIC exactly where it is inside the stage and the interpolated value is not finite (R113). -/
theorem rampTickFaults_iff (dt : F64) (r : Ramp) : rampTickFaults dt r = true ↔
    ¬ fle r.dur (fadd r.elapsed dt) = true ∧ ¬ isFinite (rampInterpolate r (fadd r.elapsed dt)) = true := by
  simp [rampTickFaults]

/-- Settles O38, by the two ways to arm a ramp and the two places of a tick. -/
theorem rampOperations : Obligations.RampOperations := by
  refine ⟨fun d start target => ?_, fun dt r => ⟨?_, ?_⟩⟩
  · split_ifs with positive
    · exact rampActivate_of_pos positive start target
    · exact rampActivate_of_not_pos positive start target
  · split_ifs with ended
    · exact rampTick_of_ended ended
    · exact rampTick_of_inside ended
  · rw [Bool.eq_iff_iff, rampTickFaults_iff]
    simp [rampInterpolate]

end Sys2Proof.Proofs

/-! ENV_STOP (R131, R133): its row of the opcode map, its port check, and what it sets. -/

namespace Sys2Proof.Proofs

open Sys2Proof.Machine Sys2Proof.Claim Sys2Proof.Laws

/-- The row of ENV_STOP in the opcode map (R96). -/
theorem decodeWords_envStop (imm : BitVec 24) (dw : Word) :
    decodeWords (0x04#8 ++ imm : BitVec 32) dw = ifClear imm .envStop := by
  simp only [decodeWords, opOf_append, immOf_append, BitVec.toNat_ofNat, Nat.reducePow, Nat.reduceMod]

/-- A command that is not on CONTROL passes the port check (R100). -/
theorem onAudio_of_ne_control {s : State} (notControl : s.PORT ≠ .control) (cw : CmdWord) (run : State → State) :
    onAudio cw s run = run s :=
  if_neg notControl

/-- A stopped envelope is Off, silent, at the start of its stage, with no note-off deferred (R131). -/
theorem envStopped_eq :
    envStopped = { ENV_STATE := .off, ENV_OUT := 0#64, ENV_ELAPSED := 0#64, ENV_AUTOREL := false } := rfl

/-- Settles O16, by the two outcomes of the port check. -/
theorem envStopEffect : Obligations.EnvStopEffect := by
  refine ⟨plainWords_of_decode decodeWords_envStop, fun s => congrArg Host.Outcome.next ?_⟩
  split_ifs with onControl
  · exact onAudio_eq_refused onControl _ _
  · rw [onAudio_of_ne_control onControl, envStopped_eq]
    rfl

end Sys2Proof.Proofs

/-! The envelope's events: the entries of Release and Sustain (R122, R123), note-on (R124) and note-off (R125). -/

namespace Sys2Proof.Proofs

open Sys2Proof.Machine

/-- A release of some length starts from its beginning (R123). -/
theorem enterRelease_of_pos {p : ParamRegs} (positive : flt f0 p.P_RELEASE = true) (e : Envelope) :
    enterRelease p e = { e with ENV_ELAPSED := f0, ENV_STATE := .release } :=
  if_pos positive

/-- A release of no length cuts to Off (R123). -/
theorem enterRelease_of_not_pos {p : ParamRegs} (noLength : ¬ flt f0 p.P_RELEASE = true) (e : Envelope) :
    enterRelease p e = { e with ENV_ELAPSED := f0, ENV_STATE := .off, ENV_OUT := f0 } :=
  if_neg noLength

/-- Both ways into Release start the elapsed time anew, so it does not matter what it was (R123). -/
theorem enterRelease_elapsed (p : ParamRegs) (e : Envelope) (x : F64) :
    enterRelease p { e with ENV_ELAPSED := x } = enterRelease p e := by
  by_cases positive : flt f0 p.P_RELEASE = true
  · rw [enterRelease_of_pos positive, enterRelease_of_pos positive]
  · rw [enterRelease_of_not_pos positive, enterRelease_of_not_pos positive]

/-- A deferred note-off is consumed at the entry of Sustain and releases there (R122). -/
theorem enterSustain_of_deferred {p : ParamRegs} {e : Envelope} (deferred : e.ENV_AUTOREL = true) :
    enterSustain p e = enterRelease p { e with ENV_AUTOREL := false } :=
  (if_pos deferred).trans (enterRelease_elapsed p { e with ENV_AUTOREL := false } f0)

/-- With no note-off deferred the envelope is in Sustain (R122). -/
theorem enterSustain_of_held {p : ParamRegs} {e : Envelope} (held : ¬ e.ENV_AUTOREL = true) :
    enterSustain p e = { e with ENV_ELAPSED := f0, ENV_STATE := .sustain } :=
  if_neg held

/-- A note-on with an attack of some length enters Attack (R124). -/
theorem envNoteOn_of_attack {p : ParamRegs} (attack : flt f0 p.P_ATTACK = true) (e : Envelope) :
    envNoteOn p e = { e with ENV_ELAPSED := f0, ENV_AUTOREL := false, ENV_STATE := .attack } :=
  if_pos attack

/-- A note-on with a decay alone enters Decay (R124). -/
theorem envNoteOn_of_decay {p : ParamRegs} (noAttack : ¬ flt f0 p.P_ATTACK = true) (decay : flt f0 p.P_DECAY = true)
    (e : Envelope) : envNoteOn p e = { e with ENV_ELAPSED := f0, ENV_AUTOREL := false, ENV_STATE := .decay } :=
  (if_neg noAttack).trans (if_pos decay)

/-- A note-on with neither goes to Sustain, and never on to Release: the note-on has just cleared the deferred note-off
(R124, R122). -/
theorem envNoteOn_of_neither {p : ParamRegs} (noAttack : ¬ flt f0 p.P_ATTACK = true) (noDecay : ¬ flt f0 p.P_DECAY = true)
    (e : Envelope) : envNoteOn p e = { e with ENV_ELAPSED := f0, ENV_AUTOREL := false, ENV_STATE := .sustain } :=
  calc
    envNoteOn p e = enterSustain p { e with ENV_ELAPSED := f0, ENV_AUTOREL := false } :=
      (if_neg noAttack).trans (if_neg noDecay)
    _ = _ := enterSustain_of_held Bool.false_ne_true

/-- Settles O41, by the cases of each event; note-off is its table of R125. -/
theorem envelopeEvents : Obligations.EnvelopeEvents := by
  refine fun p e => ⟨?_, ?_, ?_, ?_, envStopped_eq⟩
  · split_ifs with positive
    · exact enterRelease_of_pos positive e
    · exact enterRelease_of_not_pos positive e
  · split_ifs with deferred
    · exact enterSustain_of_deferred deferred
    · exact enterSustain_of_held deferred
  · split_ifs with attack decay
    · exact envNoteOn_of_attack attack e
    · exact envNoteOn_of_decay attack decay e
    · exact envNoteOn_of_neither attack decay e
  · cases state : e.ENV_STATE <;> simp only [envNoteOff, state]

end Sys2Proof.Proofs

/-! The envelope's tick in each stage, inside the stage and at its end (R126 to R130). -/

namespace Sys2Proof.Proofs

open Sys2Proof.Machine

section Stages

variable {p : ParamRegs} {dt : F64} {e : Envelope}

/-- At the end of Attack the output is the peak, and a decay of some length follows (R127). -/
theorem envTickAttack_to_decay (ended : fle p.P_ATTACK (fadd e.ENV_ELAPSED dt) = true) (decay : flt f0 p.P_DECAY = true) :
    envTickAttack p dt e = { e with ENV_OUT := f1, ENV_ELAPSED := f0, ENV_STATE := .decay } :=
  (if_pos ended).trans (if_pos decay)

/-- At the end of Attack the output is the peak, and with no decay Sustain is entered (R127). -/
theorem envTickAttack_to_sustain (ended : fle p.P_ATTACK (fadd e.ENV_ELAPSED dt) = true)
    (noDecay : ¬ flt f0 p.P_DECAY = true) :
    envTickAttack p dt e = enterSustain p { e with ENV_OUT := f1, ENV_ELAPSED := f0 } :=
  (if_pos ended).trans (if_neg noDecay)

/-- Inside Attack the output rises with the elapsed part of the attack (R127). -/
theorem envTickAttack_of_inside (inside : ¬ fle p.P_ATTACK (fadd e.ENV_ELAPSED dt) = true) :
    envTickAttack p dt e =
      { e with
        ENV_ELAPSED := fadd e.ENV_ELAPSED dt
        ENV_OUT := fmul f1 (fdiv (fadd e.ENV_ELAPSED dt) p.P_ATTACK) } :=
  if_neg inside

/-- At the end of Decay the output is the sustain amplitude itself, and Sustain is entered (R128). -/
theorem envTickDecay_of_ended (ended : fle p.P_DECAY (fadd e.ENV_ELAPSED dt) = true) :
    envTickDecay p dt e =
      enterSustain p { e with ENV_ELAPSED := fadd e.ENV_ELAPSED dt, ENV_OUT := sustainLevel p } :=
  if_pos ended

/-- Inside Decay the output goes from the peak towards the sustain amplitude (R128). -/
theorem envTickDecay_of_inside (inside : ¬ fle p.P_DECAY (fadd e.ENV_ELAPSED dt) = true) :
    envTickDecay p dt e =
      { e with
        ENV_ELAPSED := fadd e.ENV_ELAPSED dt
        ENV_OUT := fadd f1 (fmul (fdiv (fadd e.ENV_ELAPSED dt) p.P_DECAY) (fsub (sustainLevel p) f1)) } :=
  if_neg inside

/-- At the end of Release the envelope is Off and silent (R130). -/
theorem envTickRelease_of_ended (ended : fle p.P_RELEASE (fadd e.ENV_ELAPSED dt) = true) :
    envTickRelease p dt e = { e with ENV_OUT := f0, ENV_ELAPSED := f0, ENV_STATE := .off } :=
  if_pos ended

/-- Inside Release the output falls from the sustain amplitude, wherever the envelope was released (R130). -/
theorem envTickRelease_of_inside (inside : ¬ fle p.P_RELEASE (fadd e.ENV_ELAPSED dt) = true) :
    envTickRelease p dt e =
      { e with
        ENV_ELAPSED := fadd e.ENV_ELAPSED dt
        ENV_OUT := fadd (sustainLevel p)
          (fmul (fdiv (fadd e.ENV_ELAPSED dt) p.P_RELEASE) (fsub f0 (sustainLevel p))) } :=
  if_neg inside

end Stages

/-- Settles O42, by the stage at the start of the tick, then by whether the tick ends it. -/
theorem envelopeTicks : Obligations.EnvelopeTicks := by
  rintro p dt ⟨state, out, elapsed, autorel⟩
  cases state <;> dsimp only [envTick]
  case off => rfl
  case attack =>
    split_ifs with ended decay
    · exact envTickAttack_to_decay ended decay
    · exact envTickAttack_to_sustain ended decay
    · exact envTickAttack_of_inside ended
  case decay =>
    split_ifs with ended
    · exact envTickDecay_of_ended ended
    · exact envTickDecay_of_inside ended
  case sustain => rfl
  case release =>
    split_ifs with ended
    · exact envTickRelease_of_ended ended
    · exact envTickRelease_of_inside ended

end Sys2Proof.Proofs

/-! SET_NOISE_TINT (R146): its row of the opcode map, the patterns that equal 0.0, 1.0 and 2.0, and what a tint operand does
to the state. -/

namespace Sys2Proof.Proofs

open Sys2Proof.Machine Sys2Proof.Claim Sys2Proof.Laws

/-- The row of SET_NOISE_TINT in the opcode map (R96). -/
theorem decodeWords_setNoiseTint (imm : BitVec 24) (dw : Word) :
    decodeWords (0x15#8 ++ imm : BitVec 32) dw = ifClear imm (.setNoiseTint dw) := by
  simp only [decodeWords, opOf_append, immOf_append, BitVec.toNat_ofNat, Nat.reducePow, Nat.reduceMod]

/-- A positive key belongs to one pattern only. -/
theorem eq_of_orderKey_eq_of_pos {a b : F64} (sameKey : orderKey a = orderKey b) (positive : 0 < orderKey b) : a = b := by
  have ofKey {x : F64} (aboveZero : 0 < orderKey x) : x = packMag false (orderKey x).toNat := by
    unfold orderKey at aboveZero ⊢
    split_ifs at aboveZero ⊢ with negative
    · omega
    · rw [Int.toNat_natCast, ← Bool.eq_false_iff.mpr negative, packMag_self]
  rw [ofKey positive, ← sameKey, ← ofKey (sameKey ▸ positive)]

/-- Only the zeros have key 0. -/
theorem orderKey_eq_zero_iff {v : F64} : orderKey v = 0 ↔ v = 0x0000000000000000#64 ∨ v = 0x8000000000000000#64 := by
  constructor
  · intro zeroKey
    have zeroMag : magBits v = 0 := by
      unfold orderKey at zeroKey
      split_ifs at zeroKey <;> omega
    rw [← packMag_self v, zeroMag]
    cases v.msb
    · exact .inl rfl
    · exact .inr rfl
  · rintro (rfl | rfl) <;> rfl

/-- A value equals a positive one only by its pattern. -/
theorem feq_iff_eq_of_pos {v c : F64} (notNaN : isNaN c = false) (positive : 0 < orderKey c) : feq v c = true ↔ v = c := by
  rw [feq_iff]
  constructor
  · rintro ⟨-, -, sameKey⟩
    exact eq_of_orderKey_eq_of_pos sameKey positive
  · rintro rfl
    exact ⟨notNaN, notNaN, rfl⟩

/-- A value equals 0.0 if it is a zero of either sign. -/
theorem feq_f0_iff {v : F64} : feq v f0 = true ↔ v = 0x0000000000000000#64 ∨ v = 0x8000000000000000#64 := by
  rw [feq_iff, show orderKey f0 = 0 from rfl, orderKey_eq_zero_iff]
  constructor
  · rintro ⟨-, -, zero⟩
    exact zero
  · intro zero
    refine ⟨?_, rfl, zero⟩
    rcases zero with rfl | rfl <;> rfl

/-- The tint operand by its pattern (R146). -/
theorem tintOperand_eq (v : F64) : tintOperand v =
    if v = 0x0000000000000000#64 ∨ v = 0x8000000000000000#64 then some .white
    else if v = 0x3FF0000000000000#64 then some .pink
    else if v = 0x4000000000000000#64 then some .brown
    else none := by
  have one : feq v f1 = true ↔ v = 0x3FF0000000000000#64 := feq_iff_eq_of_pos (by decide) (by decide)
  have two : feq v f2 = true ↔ v = 0x4000000000000000#64 := feq_iff_eq_of_pos (by decide) (by decide)
  simp only [tintOperand, feq_f0_iff, one, two]

/-- An operand that selects a tint writes it and answers 0 (R146). -/
theorem setNoiseTint_of_some {v : F64} {t : Tint} (selects : tintOperand v = some t) (s : State) :
    setNoiseTint v s = { s with par := { s.par with P_TINT := t }, RESP := 0#64 } := by
  rw [setNoiseTint, selects]
  rfl

/-- An operand that selects no tint is BAD_ARG (R146). -/
theorem setNoiseTint_of_none {v : F64} (selectsNone : tintOperand v = none) (s : State) :
    setNoiseTint v s = refused 0x15000000#32 3 s := by
  rw [setNoiseTint, selectsNone]
  exact refuse_eq_refused 0x15000000#32 .badArg s

/-- Settles O23, by the pattern of the operand. -/
theorem setNoiseTintEffect : Obligations.SetNoiseTintEffect := by
  refine ⟨plainWords_of_decode decodeWords_setNoiseTint, fun v s => congrArg Host.Outcome.next ?_⟩
  have operand := tintOperand_eq v
  split_ifs at operand ⊢
  · exact setNoiseTint_of_some operand s
  · exact setNoiseTint_of_some operand s
  · exact setNoiseTint_of_some operand s
  · exact setNoiseTint_of_none operand s

end Sys2Proof.Proofs

/-! The rows of the opcode map (R96) that reserve all of `IMM`, formats N and D, are read off at `IMM` 0. The five value
getters (R177, R178, R234 to R236) answer a field of the state each. -/

namespace Sys2Proof.Proofs

open Sys2Proof.Machine Sys2Proof.Claim Sys2Proof.Laws

/-- The opcode of a command word whose `IMM` is 0 (R89, R90). -/
theorem opOf_cwPlain (op : BitVec 8) : opOf (cwPlain op) = op := opOf_append op 0#24

/-- The `IMM` of such a command word. -/
theorem immOf_cwPlain (op : BitVec 8) : immOf (cwPlain op) = 0#24 := immOf_append op 0#24

/-- Where a format reserves all of `IMM`, nothing is read of `IMM` but the check that it is 0 (R99). -/
theorem decodeWords_of_plain_format {cw : CmdWord} (format : reservedField (opOf cw).toNat = (0, 24)) (dw : Word) :
    decodeWords cw dw = (decodeWords (cwPlain (opOf cw)) dw).bind (ifClear (immOf cw)) := by
  unfold decodeWords
  rw [opOf_cwPlain, immOf_cwPlain]
  split
  case h_2 | h_3 | h_4 | h_17 | h_27 | h_28 | h_29 =>
    rename_i opIs
    exact absurd (opIs ▸ format) (by decide)
  all_goals rfl

/-- An opcode of format N or D, by the command of its row in the opcode map (R96). -/
theorem plainWords_of_row {op : BitVec 8} {ctor : Word → Instr} (format : reservedField op.toNat = (0, 24))
    (row : ∀ dw, decodeWords (cwPlain op) dw = .ok (ctor dw)) : PlainWords op ctor := by
  refine plainWords_of_decode fun imm dw => ?_
  have decoded := decodeWords_of_plain_format (cw := op ++ imm) (by rwa [opOf_append]) dw
  rw [opOf_append, immOf_append, row] at decoded
  exact decoded

/-- Settles O30: each getter is `respond` of its value, at the words of its row. -/
theorem gettersAnswer : Obligations.GettersAnswer :=
  ⟨plainWords_of_row rfl fun _ => rfl, plainWords_of_row rfl fun _ => rfl, plainWords_of_row rfl fun _ => rfl,
    plainWords_of_row rfl fun _ => rfl, plainWords_of_row rfl fun _ => rfl, fun _ => ⟨rfl, rfl, rfl, rfl, rfl⟩⟩

end Sys2Proof.Proofs

/-! WT_BEGIN (R173): the fields of its command word (R94), and its two checks in order. -/

namespace Sys2Proof.Proofs

open Sys2Proof.Machine Sys2Proof.Claim

/-- The opcode of a command word with a 4-bit operand (R94, R95). -/
theorem opOf_append_index (op : BitVec 8) (above : BitVec 20) (k : BitVec 4) :
    opOf (op ++ above ++ k : BitVec 32) = op := by
  unfold opOf
  iterate 2 rw [BitVec.extractLsb'_append_eq_of_le (by decide)]
  exact BitVec.extractLsb'_eq_self

/-- The bits such a format reserves stand above the operand. -/
theorem extractLsb'_append_above (op : BitVec 8) (above : BitVec 20) (k : BitVec 4) :
    (op ++ above ++ k : BitVec 32).extractLsb' 4 20 = above := by
  rw [BitVec.extractLsb'_append_eq_of_le (by decide)]
  exact BitVec.extractLsb'_append_eq_right

/-- The operand is the lowest four bits. -/
theorem extractLsb'_append_index (op : BitVec 8) (above : BitVec 20) (k : BitVec 4) :
    (op ++ above ++ k : BitVec 32).extractLsb' 0 4 = k :=
  BitVec.extractLsb'_append_eq_right

/-- The row of WT_BEGIN in the opcode map (R96). -/
theorem decodeWords_wtBegin (above : BitVec 20) (ch : BitVec 4) (dw : Word) :
    decodeWords (0x20#8 ++ above ++ ch : BitVec 32) dw = ifClear above (.wtBegin ch dw) := by
  simp only [decodeWords, opOf_append_index, extractLsb'_append_above, extractLsb'_append_index, BitVec.toNat_ofNat,
    Nat.reducePow, Nat.reduceMod]

section Begin

variable {P : Params} {ch : BitVec 4} {n : Word}

/-- A load of no channels is BAD_ARG (R173). -/
theorem wtBegin_of_no_channel (noChannel : ch = 0#4) (s : State) :
    wtBegin P ch n s = refuse (Instr.wtBegin ch n).commandWord .badArg s := by
  subst noChannel
  rfl

/-- A load longer than the tables is WT_CAPACITY (R173). -/
theorem wtBegin_of_too_long (channel : ch ≠ 0#4) (tooLong : P.wtCap < n.toNat) (s : State) :
    wtBegin P ch n s = refuse (Instr.wtBegin ch n).commandWord .wtCapacity s :=
  (if_pos (bne_iff_ne.mpr channel)).trans (if_pos tooLong)

/-- Any other load is opened, with no sample taken (R173). -/
theorem wtBegin_of_fits (channel : ch ≠ 0#4) (fits : ¬ P.wtCap < n.toNat) (s : State) :
    wtBegin P ch n s = respond 0#64
      { s with stg := { s.stg with STG_ACTIVE := true, STG_CH := ch, STG_N := n.toNat, STG_COUNT := 0 } } :=
  (if_pos (bne_iff_ne.mpr channel)).trans (if_neg fits)

end Begin

/-- Settles O26, by the outcome of each check. -/
theorem wtBeginEffect : Obligations.WtBeginEffect := by
  refine ⟨fun above ch dw s => issued_of_ifClear (decodeWords_wtBegin above ch dw) s,
    fun ch n s => congrArg Host.Outcome.next ?_⟩
  split_ifs with noChannel tooLong
  · exact wtBegin_of_no_channel noChannel s
  · exact wtBegin_of_too_long noChannel tooLong s
  · exact wtBegin_of_fits noChannel tooLong s

end Sys2Proof.Proofs

/-! WT_PUSH (R174): its checks in order, and the staging words after a push. -/

namespace Sys2Proof.Proofs

open Sys2Proof.Machine Sys2Proof.Claim

/-- A push answers where its frame fits in the staging memories (R64). -/
theorem pushSample_answers {cap : Nat} (v : F64) {g : Staging} (fits : g.STG_COUNT % g.STG_N < cap) :
    ∃ g', pushSample cap v g = .ok g' := by
  have written (space : Space) (m : Memory) :
      tableWrite cap space m (g.STG_COUNT % g.STG_N) v = .ok (memWrite m (g.STG_COUNT % g.STG_N) v) :=
    tableWrite_ok.mpr ⟨fits, rfl⟩
  simp only [pushSample, written]
  split_ifs
  all_goals exact ⟨_, rfl⟩

/-- A staging memory after a push is as before but for the sample's word, if the sample is of its channel. -/
theorem memRead_pushed (m : Memory) (own : Prop) [Decidable own] (f a : Nat) (v : F64) :
    memRead (if own then memWrite m f v else m) a = if own ∧ a = f then some v else memRead m a := by
  by_cases isOwn : own
  · simp only [isOwn, if_true, true_and, memRead_memWrite]
  · simp only [isOwn, false_and, if_false]

section Push

variable {P : Params} {v : F64} {s : State}

/-- A sample that is not finite is BAD_ARG (R174). -/
theorem wtPush_of_not_finite (notFinite : isFinite v = false) :
    wtPush P v s = .ok (refuse (Instr.wtPush v).commandWord .badArg s) :=
  if_neg (Bool.eq_false_iff.mp notFinite)

/-- With no load open, or a load that has all its samples, a push is WT_SEQUENCE (R174). -/
theorem wtPush_of_out_of_sequence (finite : isFinite v = true)
    (outOfSequence : s.stg.STG_ACTIVE = false ∨ loadSize s.stg ≤ s.stg.STG_COUNT) :
    wtPush P v s = .ok (refuse (Instr.wtPush v).commandWord .wtSequence s) :=
  (if_pos finite).trans (if_pos (by simpa using outOfSequence))

/-- Any other push stages its sample (R174). -/
theorem wtPush_of_open {g : Staging} (finite : isFinite v = true) (active : s.stg.STG_ACTIVE = true)
    (short : s.stg.STG_COUNT < loadSize s.stg) (pushed : pushSample P.wtCap v s.stg = .ok g) :
    wtPush P v s = .ok (respond 0#64 { s with stg := g }) := by
  have inSequence : ¬ (!s.stg.STG_ACTIVE || decide (loadSize s.stg ≤ s.stg.STG_COUNT)) = true := by simp [active, short]
  rw [wtPush, if_pos finite, if_neg inSequence, pushed]

end Push

/-- Settles O27: an open load that is short has frames, so the sample's frame is below `STG_N` and fits. -/
theorem wtPushEffect : Obligations.WtPushEffect := by
  refine ⟨plainWords_of_row rfl fun _ => rfl, fun v s loadFits => ⟨fun notFinite => ?_, fun finite outOfSequence => ?_,
    fun finite active short => ?_⟩⟩
  · exact ofExcept_next.mpr (wtPush_of_not_finite notFinite)
  · exact ofExcept_next.mpr (wtPush_of_out_of_sequence finite outOfSequence)
  · have frames : 0 < s.stg.STG_N := Nat.pos_of_ne_zero fun noFrames => by simp [noFrames] at short
    obtain ⟨g, pushed⟩ := pushSample_answers v (Nat.lt_of_lt_of_le (Nat.mod_lt s.stg.STG_COUNT frames) (loadFits active))
    refine ⟨g.STG0, g.STG1, ?_, fun a => ?_⟩
    · refine (ofExcept_next.mpr (wtPush_of_open finite active short pushed)).trans ?_
      rw [pushSample_ok pushed]
      rfl
    · rw [pushSample_ok pushed]
      exact ⟨memRead_pushed _ _ _ _ _, memRead_pushed _ _ _ _ _⟩

end Sys2Proof.Proofs

/-! WT_COMMIT (R175, R176): its checks in order, and the publication of a whole load. -/

namespace Sys2Proof.Proofs

open Sys2Proof.Machine Sys2Proof.Claim

/-- A word that is written and finite is written. -/
theorem memRead_ne_none_of_liveWord {m : Memory} {a : Nat} : LiveWord m a → memRead m a ≠ none := by
  rintro ⟨v, read, -⟩
  simp [read]

/-- In a whole load every word that either table is published from has been staged (R39, R176). -/
theorem staged_of_whole {P : Params} {s : State} (inv : Inv P s) (active : s.stg.STG_ACTIVE = true)
    (whole : s.stg.STG_COUNT = loadSize s.stg) : ∀ f < s.stg.STG_N,
    memRead s.stg.STG0 f ≠ none ∧ memRead (rightSource s.stg).2 f ≠ none := by
  intro f inFrames
  obtain ⟨channel, -, -⟩ := inv.loadShape active
  have first : f < s.stg.STG_COUNT :=
    whole ▸ Nat.lt_of_lt_of_le inFrames (Nat.le_mul_of_pos_left _ channel)
  have left := memRead_ne_none_of_liveWord (inv.stagedLeft active f inFrames first)
  refine ⟨left, ?_⟩
  unfold rightSource
  split_ifs with stereo
  · have second : s.stg.STG_N + f < s.stg.STG_COUNT :=
      calc
        s.stg.STG_N + f < 2 * s.stg.STG_N := by omega
        _ ≤ s.stg.STG_CH.toNat * s.stg.STG_N := Nat.mul_le_mul_right _ stereo
        _ = s.stg.STG_COUNT := whole.symm
    exact memRead_ne_none_of_liveWord (inv.stagedRight active f inFrames second)
  · exact left

section Commit

variable {P : Params} {s : State}

/-- With no load open a commit is WT_SEQUENCE (R175). -/
theorem wtCommit_of_closed (closed : s.stg.STG_ACTIVE = false) :
    wtCommit P s = .ok (refuse Instr.wtCommit.commandWord .wtSequence s) :=
  if_pos (by simp [closed])

/-- A load that has not its number of samples is discarded, and WT_SEQUENCE (R175). -/
theorem wtCommit_of_short (active : s.stg.STG_ACTIVE = true) (short : s.stg.STG_COUNT ≠ loadSize s.stg) :
    wtCommit P s =
      .ok (refuse Instr.wtCommit.commandWord .wtSequence { s with stg := { s.stg with STG_ACTIVE := false } }) :=
  (if_neg (by simp [active])).trans (if_pos short)

/-- A whole load is published to both tables (R175). -/
theorem wtCommit_of_whole {l r : Memory} (active : s.stg.STG_ACTIVE = true) (whole : s.stg.STG_COUNT = loadSize s.stg)
    (left : publish P.wtCap .stg0 .wtL s.stg.STG0 s.stg.STG_N s.WT_L = .ok l)
    (right : publish P.wtCap (rightSource s.stg).1 .wtR (rightSource s.stg).2 s.stg.STG_N s.WT_R = .ok r) :
    wtCommit P s = .ok (respond 0#64
      { s with WT_L := l, WT_R := r, WT_N := s.stg.STG_N, stg := { s.stg with STG_ACTIVE := false } }) := by
  have opened : ¬ (!s.stg.STG_ACTIVE) = true := by simp [active]
  rw [wtCommit, if_neg opened, if_neg (not_not_intro whole), left, right]

end Commit

/-- Settles O28: the invariant has every word of a whole load staged, so both publications answer. -/
theorem wtCommitEffect : Obligations.WtCommitEffect := by
  refine ⟨plainWords_of_row rfl fun _ => rfl, fun s inv => ⟨fun closed => ?_, fun active short => ?_,
    fun active whole => ?_⟩⟩
  · exact ofExcept_next.mpr (wtCommit_of_closed closed)
  · exact ofExcept_next.mpr (wtCommit_of_short active short)
  · obtain ⟨-, fits, -⟩ := inv.loadShape active
    have staged := staged_of_whole inv active whole
    obtain ⟨l, left⟩ := publish_answers .stg0 .wtL s.WT_L fits fun f inFrames => (staged f inFrames).1
    obtain ⟨r, right⟩ := publish_answers (rightSource s.stg).1 .wtR s.WT_R fits fun f inFrames => (staged f inFrames).2
    refine ⟨l, r, ofExcept_next.mpr (wtCommit_of_whole active whole left right), fun a => ⟨publish_ok left a, ?_⟩⟩
    have published := publish_ok right a
    unfold rightSource at published
    split_ifs at published ⊢ <;> exact published

end Sys2Proof.Proofs

/-! The shapers (R166 to R172): the position and the fault of a shaper step, and the lookup by the words it reads. -/

namespace Sys2Proof.Proofs

open Sys2Proof.Machine Sys2Proof.Claim

/-- A fault raised is the record of R262, by the number of its code. -/
theorem raiseFault_eq_recorded (cw : CmdWord) (code : FaultCode) (s : State) :
    raiseFault cw code s = recorded cw (faultNumber code) s := rfl

/-- NUMERIC is recorded where a value is not finite, and nothing happens where it is (R271). -/
theorem raiseIf_numeric_eq (finite : Bool) (cw : CmdWord) (s : State) :
    raiseIf (!finite) cw .numeric s = if finite then s else recorded cw 8 s := by
  cases finite <;> rfl

/-- The frames a shaper reads at position u of a table of n frames (R170, R171). -/
def lookupFrames (mode : EdgeMode) (n : Nat) (u : F64) : Nat × Nat :=
  shaperFrames mode (toInt (ffloor (fmul u (toF64 n)))) n

/-- How far position u lies past the first of them (R170). -/
def lookupFraction (n : Nat) (u : F64) : F64 := fsub (fmul u (toF64 n)) (ffloor (fmul u (toF64 n)))

/-- Both frames are frames of the table, in either edge mode (R171). -/
theorem lookupFrames_lt {n : Nat} (loaded : n ≠ 0) (mode : EdgeMode) (u : F64) :
    (lookupFrames mode n u).1 < n ∧ (lookupFrames mode n u).2 < n := by
  have pos : 0 < n := Nat.pos_of_ne_zero loaded
  unfold lookupFrames shaperFrames
  cases mode with
  | wrap => exact ⟨Nat.mod_lt _ pos, Nat.mod_lt _ pos⟩
  | clamp => dsimp only; omega

/-- A lookup in an empty table is silence, and reads nothing (R169). -/
theorem shaperLookup_empty (cap : Nat) (mode : EdgeMode) (space : Space) (table : Memory) (u : F64) :
    shaperLookup cap mode space table 0 u = .ok f0 := rfl

/-- A lookup in a table of n frames answers exactly where the frames it reads have been written: the first alone at a whole
position, and else a value between two (R171). -/
theorem shaperLookup_ok {cap n : Nat} {mode : EdgeMode} {space : Space} {table : Memory} {u y : F64} (loaded : n ≠ 0) :
    shaperLookup cap mode space table n u = .ok y ↔
      ∃ a, tableRead cap space table (lookupFrames mode n u).1 = .ok a ∧
        if feq (lookupFraction n u) f0 then y = a
        else ∃ b, tableRead cap space table (lookupFrames mode n u).2 = .ok b ∧
          y = fadd a (fmul (lookupFraction n u) (fsub b a)) := by
  unfold shaperLookup lookupFrames lookupFraction
  rw [if_neg loaded]
  dsimp only
  cases tableRead cap space table (shaperFrames mode (toInt (ffloor (fmul u (toF64 n)))) n).1 with
  | error e => simp
  | ok a =>
    dsimp only
    split_ifs with whole
    · simp [eq_comm]
    · cases tableRead cap space table (shaperFrames mode (toInt (ffloor (fmul u (toF64 n)))) n).2 with
      | error e => simp
      | ok b => simp [eq_comm]

/-- Tables that agree in their frames give the same lookups. -/
theorem shaperLookup_congr {cap n : Nat} {mode : EdgeMode} {space space' : Space} {table table' : Memory}
    (agree : ∀ a < n, memRead table a = memRead table' a) (u y : F64) :
    shaperLookup cap mode space table n u = .ok y ↔ shaperLookup cap mode space' table' n u = .ok y := by
  by_cases empty : n = 0
  · subst empty
    rw [shaperLookup_empty, shaperLookup_empty]
  · obtain ⟨first, second⟩ := lookupFrames_lt empty mode u
    simp only [shaperLookup_ok empty, tableRead_ok, agree _ first, agree _ second]

/-- In a table that fits and is written, a lookup is the interpolation between its two frames (R171). -/
theorem shaperLookup_of_written {cap n : Nat} {mode : EdgeMode} {space : Space} {memory : Memory} {table : Nat → F64}
    (loaded : n ≠ 0) (fits : n ≤ cap) (written : ∀ a < n, memRead memory a = some (table a)) (u : F64) :
    shaperLookup cap mode space memory n u = .ok (
      if feq (lookupFraction n u) f0 then table (lookupFrames mode n u).1
      else fadd (table (lookupFrames mode n u).1) (fmul (lookupFraction n u)
        (fsub (table (lookupFrames mode n u).2) (table (lookupFrames mode n u).1)))) := by
  obtain ⟨first, second⟩ := lookupFrames_lt loaded mode u
  have read {a : Nat} (inTable : a < n) : tableRead cap space memory a = .ok (table a) :=
    tableRead_ok.mpr ⟨Nat.lt_of_lt_of_le inTable fits, written a inTable⟩
  refine (shaperLookup_ok loaded).mpr ⟨_, read first, ?_⟩
  split_ifs with whole
  · rfl
  · exact ⟨_, read second, rfl⟩

/-- With no table a shaper is silent, whatever the table memories hold (R169). -/
theorem shaperOutput_of_empty {s : State} (empty : s.WT_N = 0) (P : Params) (c : Side) (p : F64) :
    shaperOutput P c p s = .ok f0 := by
  rw [shaperOutput, empty, shaperLookup_empty]

/-- A lookup after operations 1 to 6 of a sample step is one of the tables before them (R196). -/
theorem shaperOutput_sampleScrub (P : Params) (c : Side) (p : F64) (s : State) :
    shaperOutput P c p (sampleScrub P s).2 = shaperOutput P c p s := by
  rw [sampleScrub_frame]
  rfl

/-- The left shaper's step does not change what either shaper looks up. -/
theorem shaperOutput_shaperStep_left (P : Params) (c : Side) (p q : F64) (s : State) :
    shaperOutput P c p (shaperStep P .left q s) = shaperOutput P c p s := by
  rw [shaperStep_left]
  rfl

/-- The state of a sample step after both shapers (R196, operation 7). -/
def sampleShaped (P : Params) (s : State) : State :=
  shaperStep P .right (sampleScrub P s).1 (shaperStep P .left (sampleScrub P s).1 (sampleScrub P s).2)

/-- A sample step answers exactly where both lookups in the tables before it answer, and then it has written their results. -/
theorem sampleStep_ok_iff {P : Params} {s t : State} : sampleStep P s = .ok t ↔
    ∃ yL yR, shaperOutput P .left (sampleScrub P s).1 s = .ok yL ∧ shaperOutput P .right (sampleScrub P s).1 s = .ok yR ∧
      t = sampleOutput yL yR (sampleShaped P s) := by
  simp only [sampleStep_ok, shaperOutput_shaperStep_left, shaperOutput_sampleScrub]
  rfl

/-- With no table a sample step completes (R169). -/
theorem sampleStep_of_empty {s : State} (empty : s.WT_N = 0) (P : Params) : ∃ t, sampleStep P s = .ok t :=
  ⟨_, sampleStep_ok_iff.mpr ⟨f0, f0, shaperOutput_of_empty empty P .left _, shaperOutput_of_empty empty P .right _, rfl⟩⟩

/-- Settles O46: the frames and the fraction of the lookup are those the statement names, in each edge mode. -/
theorem emptyTableSilence : Obligations.EmptyTableSilence := by
  refine fun P s => ⟨fun p => ?_, fun empty => ⟨fun c p => shaperOutput_of_empty empty P c p, sampleStep_of_empty empty P⟩⟩
  intro m u s'
  have position : shaperPosition P.edgeMode p = u := rfl
  have fault : raiseIf (!isFinite m) s.blk.BLK_CW .numeric s = s' := raiseIf_numeric_eq _ _ _
  refine ⟨?_, ?_, fun c table nonempty fits written => ?_⟩
  · rw [← position, ← fault]
    rfl
  · rw [← position, ← fault]
    rfl
  · have loaded : s.WT_N ≠ 0 := by omega
    have sideWritten : ∀ a < s.WT_N, memRead (sideTable c s) a = some (table a) := by
      cases c <;> exact written
    refine (shaperLookup_of_written loaded fits sideWritten _).trans ?_
    rw [position]
    unfold lookupFrames lookupFraction shaperFrames
    cases P.edgeMode <;> rfl

end Sys2Proof.Proofs

/-! R181: both shapers of a sample step are at one position, so equal tables give equal channels; and a mono load leaves
equal tables. -/

namespace Sys2Proof.Proofs

open Sys2Proof.Machine Sys2Proof.Claim

/-- What the host reads after a channel is written: the channel's word of the running frame, and else what it read before. -/
theorem hostRead_writeChannel (left right : F64) (s : State) (k : Nat) (c : BitVec 4) (f : BitVec 20) :
    hostRead (writeChannel left right s k) c f =
      if c = BitVec.ofNat 4 k ∧ f = s.blk.BLK_S then some (outWord (channelValue left right k)) else hostRead s c f := by
  unfold hostRead
  rw [writeChannel_OUT, memRead_outWrite]

/-- Writing channels leaves the sequencer. -/
theorem foldl_writeChannel_blk (left right : F64) (channels : List Nat) (s : State) :
    (channels.foldl (writeChannel left right) s).blk = s.blk := by
  induction channels generalizing s with
  | nil => rfl
  | cons c rest ih => rw [List.foldl_cons, ih, writeChannel_blk]

/-- What the host reads after the first n channels are written (R188). -/
theorem hostRead_foldl_writeChannel (left right : F64) (s : State) (c : BitVec 4) (f : BitVec 20) {n : Nat}
    (inWidth : n ≤ 16) :
    hostRead ((List.range n).foldl (writeChannel left right) s) c f =
      if c.toNat < n ∧ f = s.blk.BLK_S then some (outWord (channelValue left right c.toNat)) else hostRead s c f := by
  induction n with
  | zero => simp
  | succ n ih =>
    have last : c = BitVec.ofNat 4 n ↔ c.toNat = n := by
      rw [← BitVec.toNat_inj, BitVec.toNat_ofNat, Nat.mod_eq_of_lt (by omega)]
    rw [List.range_succ, List.foldl_append, List.foldl_cons, List.foldl_nil, hostRead_writeChannel,
      foldl_writeChannel_blk, ih (by omega)]
    by_cases isLast : c.toNat = n
    · simp [last, isLast]
    · have below : c.toNat < n + 1 ↔ c.toNat < n := by omega
      simp [last, isLast, below]

/-- What the host reads after the running frame is written: each selected channel's word of that frame, and no other word
changed (R188). -/
theorem hostRead_writeFrame (left right : F64) (s : State) (c : BitVec 4) (f : BitVec 20) :
    hostRead (writeFrame left right s) c f =
      if c.toNat < s.blk.BLK_C.toNat ∧ f = s.blk.BLK_S then some (outWord (channelValue left right c.toNat))
      else hostRead s c f :=
  hostRead_foldl_writeChannel left right s c f (Nat.le_of_lt s.blk.BLK_C.isLt)

/-- Operations 1 to 7 of a sample step leave the sequencer. -/
theorem sampleShaped_blk (P : Params) (s : State) : (sampleShaped P s).blk = s.blk := by
  rw [sampleShaped, shaperStep_right, shaperStep_left, sampleScrub_frame]

/-- Both shapers keep the map value of the one scrub position (R172). -/
theorem sampleShaped_SHP_LAST (P : Params) (s : State) :
    (sampleShaped P s).SHP_LAST_L = shaperPosition P.edgeMode (sampleScrub P s).1 ∧
    (sampleShaped P s).SHP_LAST_R = shaperPosition P.edgeMode (sampleScrub P s).1 := by
  rw [sampleShaped, shaperStep_right, shaperStep_left]
  exact ⟨rfl, rfl⟩

/-- The output operations leave the map values. -/
theorem sampleOutput_SHP_LAST (yL yR : F64) (s : State) :
    (sampleOutput yL yR s).SHP_LAST_L = s.SHP_LAST_L ∧ (sampleOutput yL yR s).SHP_LAST_R = s.SHP_LAST_R := by
  unfold sampleOutput
  dsimp only
  rw [writeFrame_frame]
  exact ⟨rfl, rfl⟩

/-- After every sample step the two map values are equal (R181). -/
theorem sampleStep_SHP_LAST_eq {P : Params} {s t : State} (stepped : sampleStep P s = .ok t) :
    t.SHP_LAST_L = t.SHP_LAST_R := by
  obtain ⟨yL, yR, -, -, rfl⟩ := sampleStep_ok_iff.mp stepped
  obtain ⟨keptL, keptR⟩ := sampleOutput_SHP_LAST yL yR (sampleShaped P s)
  obtain ⟨left, right⟩ := sampleShaped_SHP_LAST P s
  rw [keptL, keptR, left, right]

/-- Shapers with the same result write the same word to the first two channels (R186, R188). -/
theorem hostRead_sampleOutput_mono (y : F64) {s : State} (stereo : 2 ≤ s.blk.BLK_C.toNat) :
    hostRead (sampleOutput y y s) 0#4 s.blk.BLK_S = hostRead (sampleOutput y y s) 1#4 s.blk.BLK_S := by
  have first : (0#4).toNat < s.blk.BLK_C.toNat := Nat.lt_of_lt_of_le (by decide) stereo
  have second : (1#4).toNat < s.blk.BLK_C.toNat := Nat.lt_of_lt_of_le (by decide) stereo
  unfold sampleOutput
  dsimp only
  rw [hostRead_writeFrame, hostRead_writeFrame, if_pos ⟨first, rfl⟩, if_pos ⟨second, rfl⟩]
  rfl

/-- Tables that agree in their frames make the shapers agree at every position (R181). -/
theorem shaperOutput_left_iff_right {s : State} (agree : ∀ a < s.WT_N, memRead s.WT_L a = memRead s.WT_R a) (P : Params)
    (p y : F64) : shaperOutput P .left p s = .ok y ↔ shaperOutput P .right p s = .ok y :=
  shaperLookup_congr agree _ y

/-- Tables that agree in their frames make the first two channels of a sample step agree (R181). -/
theorem sampleStep_channels_eq {P : Params} {s t : State} (agree : ∀ a < s.WT_N, memRead s.WT_L a = memRead s.WT_R a)
    (stepped : sampleStep P s = .ok t) (stereo : 2 ≤ s.blk.BLK_C.toNat) :
    hostRead t 0#4 s.blk.BLK_S = hostRead t 1#4 s.blk.BLK_S := by
  obtain ⟨yL, yR, left, right, rfl⟩ := sampleStep_ok_iff.mp stepped
  have same : yL = yR := Except.ok.inj (((shaperOutput_left_iff_right agree P _ yL).mp left).symm.trans right)
  subst same
  rw [← sampleShaped_blk P s] at stereo ⊢
  exact hostRead_sampleOutput_mono yL stereo

/-- The commit of a whole load of one channel leaves tables that agree in their frames (R176, R181). -/
theorem wtCommit_mono_tables {P : Params} {s t : State} (active : s.stg.STG_ACTIVE = true) (mono : s.stg.STG_CH = 1#4)
    (whole : s.stg.STG_COUNT = loadSize s.stg) (committed : wtCommit P s = .ok t) :
    ∀ a < t.WT_N, memRead t.WT_L a = memRead t.WT_R a := by
  rcases wtCommit_ok committed with ⟨closed, -⟩ | ⟨-, short, -⟩ | ⟨-, -, l, r, left, right, rfl⟩
  · exact absurd active (Bool.eq_false_iff.mp closed)
  · exact absurd whole short
  · intro a (inFrames : a < s.stg.STG_N)
    have source : rightSource s.stg = (.stg0, s.stg.STG0) := by simp [rightSource, mono]
    have published := publish_ok right a
    rw [source, if_pos inFrames] at published
    exact ((publish_ok left a).trans (if_pos inFrames)).trans published.symm

/-- Settles O47: one scrub position, one lookup, one source of a mono load. -/
theorem monoChannelsEqual : Obligations.MonoChannelsEqual := by
  refine ⟨fun P s t => sampleStep_SHP_LAST_eq,
    fun P s agree => ⟨shaperOutput_left_iff_right agree P, fun t => sampleStep_channels_eq agree⟩,
    fun s t active mono count committed => ?_⟩
  have whole : s.stg.STG_COUNT = loadSize s.stg := by simp [loadSize, mono, count]
  exact wtCommit_mono_tables active mono whole (ofExcept_next.mp committed)

end Sys2Proof.Proofs

/-! The output stage (R186 to R189): every word of `OUT` after the frame is written, and when it records NUMERIC. -/

namespace Sys2Proof.Proofs

open Sys2Proof.Machine Sys2Proof.Claim

/-- What the host reads after operations 8 to 10 of a sample step: each selected channel's word of the running frame, from
its shaper's result, the ticked envelope and the master volume, and no other word changed (R186 to R189). -/
theorem hostRead_sampleOutput (yL yR : F64) (s : State) (c : BitVec 4) (f : BitVec 20) :
    hostRead (sampleOutput yL yR s) c f =
      if c.toNat < s.blk.BLK_C.toNat ∧ f = s.blk.BLK_S then
        some (outWord (channelValue (outStage yL (envTick s.par s.DT s.env).ENV_OUT s.par.VOL_GAIN)
          (outStage yR (envTick s.par s.DT s.env).ENV_OUT s.par.VOL_GAIN) c.toNat))
      else hostRead s c f :=
  hostRead_writeFrame _ _ (tickEnvelope s) c f

/-- The word written to a channel: left or right, +0.0 where it is not finite, and silence above (R188, R189). -/
theorem outWord_channelValue (left right : F64) (c : BitVec 4) :
    outWord (channelValue left right c.toNat) =
      if c = 0#4 then (if isFinite left then left else 0#64)
      else if c = 1#4 then (if isFinite right then right else 0#64) else 0#64 := by
  have first : c.toNat = 0 ↔ c = 0#4 := BitVec.toNat_inj (y := 0#4)
  have second : c.toNat = 1 ↔ c = 1#4 := BitVec.toNat_inj (y := 1#4)
  simp only [channelValue, first, second, apply_ite outWord]
  rfl

/-- A fault recorded twice with one command word is recorded once (R262). -/
theorem raiseIf_raiseIf (a b : Bool) (cw : CmdWord) (code : FaultCode) (s : State) :
    raiseIf b cw code (raiseIf a cw code s) = raiseIf (a || b) cw code s := by
  cases a with
  | false => rfl
  | true =>
    cases b with
    | false => rfl
    | true =>
      have recordedBefore : (raiseFault cw code s).FAULTS ≠ 0#16 := raiseFault_FAULTS_ne_zero cw code s
      have sameBit : s.FAULTS ||| faultBit code ||| faultBit code = s.FAULTS ||| faultBit code := by
        rw [BitVec.or_assoc, BitVec.or_self]
      show raiseFault cw code (raiseFault cw code s) = raiseFault cw code s
      rw [raiseFault, if_neg recordedBefore, raiseFault_FAULTS, sameBit]
      rfl

/-- The fault record does not look at `OUT`. -/
theorem raiseIf_with_OUT (a : Bool) (cw : CmdWord) (code : FaultCode) (s : State) (m : Memory) :
    raiseIf a cw code { s with OUT := m } = { raiseIf a cw code s with OUT := m } := by
  cases a <;> rfl

/-- Writing channels records NUMERIC once, where one of their values is not finite, and else changes `OUT` alone (R189). -/
theorem foldl_writeChannel_eq (left right : F64) (channels : List Nat) (s : State) :
    channels.foldl (writeChannel left right) s =
      { raiseIf (channels.any fun c => !isFinite (channelValue left right c)) s.blk.BLK_CW .numeric s with
        OUT := (channels.foldl (writeChannel left right) s).OUT } := by
  induction channels generalizing s with
  | nil => rfl
  | cons c rest ih =>
    rw [List.foldl_cons, ih, List.any_cons, ← raiseIf_raiseIf, writeChannel_blk, writeChannel, raiseIf_with_OUT]

/-- One of the first n channels' values is not finite exactly where the left or the right one is written and not finite:
silence is finite (R188). -/
theorem any_channelValue_not_finite (left right : F64) (n : Nat) :
    ((List.range n).any fun c => !isFinite (channelValue left right c)) = true ↔
      (1 ≤ n ∧ isFinite left = false) ∨ (2 ≤ n ∧ isFinite right = false) := by
  simp only [List.any_eq_true, List.mem_range, Bool.not_eq_true']
  constructor
  · rintro ⟨c, written, bad⟩
    match c with
    | 0 => exact .inl ⟨written, bad⟩
    | 1 => exact .inr ⟨written, bad⟩
    | c + 2 =>
      have silence : isFinite f0 = true := by decide
      exact absurd silence (Bool.eq_false_iff.mp bad)
  · rintro (⟨written, bad⟩ | ⟨written, bad⟩)
    · exact ⟨0, written, bad⟩
    · exact ⟨1, written, bad⟩

/-- Writing the running frame records NUMERIC exactly where the left or the right value is written and not finite, and
besides that changes `OUT` alone (R189). -/
theorem writeFrame_eq (left right : F64) (s : State) :
    writeFrame left right s =
      { (if (1 ≤ s.blk.BLK_C.toNat ∧ isFinite left = false) ∨ (2 ≤ s.blk.BLK_C.toNat ∧ isFinite right = false) then
          recorded s.blk.BLK_CW 8 s else s) with
        OUT := (writeFrame left right s).OUT } := by
  refine (foldl_writeChannel_eq left right _ s).trans ?_
  simp only [raiseIf, any_channelValue_not_finite, raiseFault_eq_recorded, faultNumber]
  rfl

/-- Settles O49: the written memory word by word, and the record of the frame that writes it. -/
theorem outputStage : Obligations.OutputStage := by
  intro yL yR s e left right bad
  refine ⟨(sampleOutput yL yR s).OUT, ?_, fun c f => ?_⟩
  · refine (writeFrame_eq left right (tickEnvelope s)).trans ?_
    by_cases numeric : bad
    · rw [if_pos numeric]
      exact congrArg (fun u : State => { u with OUT := (sampleOutput yL yR s).OUT }) (if_pos numeric)
    · rw [if_neg numeric]
      exact congrArg (fun u : State => { u with OUT := (sampleOutput yL yR s).OUT }) (if_neg numeric)
  · rw [← outAddress_toNat, ← outWord_channelValue]
    exact hostRead_sampleOutput yL yR s c f

end Sys2Proof.Proofs

/-! R190: nothing but the lookups of a sample step reads the tables, and each reads its own. -/

namespace Sys2Proof.Proofs

open Sys2Proof.Machine Sys2Proof.Claim

/-- The state with other table contents. -/
def withTables (l r : Memory) (s : State) : State := { s with WT_L := l, WT_R := r }

/-- A note-on does not depend on the tables. -/
theorem noteOnEv_withTables (l r : Memory) (P : Params) (pitch : Byte) (s : State) :
    noteOnEv P pitch (withTables l r s) = withTables l r (noteOnEv P pitch s) := by
  simp only [noteOnEv, apply_ite (withTables l r)]
  rfl

/-- A note-off does not depend on the tables. -/
theorem noteOffEv_withTables (l r : Memory) (pitch : Byte) (s : State) :
    noteOffEv pitch (withTables l r s) = withTables l r (noteOffEv pitch s) := by
  simp only [noteOffEv, apply_ite (withTables l r)]
  rfl

/-- Nor does any MIDI event. -/
theorem midiEvent_withTables (l r : Memory) (P : Params) (ev : MidiEvent) (s : State) :
    midiEvent P ev (withTables l r s) = withTables l r (midiEvent P ev s) := by
  simp only [midiEvent, apply_ite (withTables l r), noteOnEv_withTables, noteOffEv_withTables]

/-- The delivery of a queue does not depend on the tables. -/
theorem drainQueue_withTables (l r : Memory) (P : Params) (sample : Nat) (q : List MidiEvent) (s : State) :
    drainQueue P sample q (withTables l r s) = withTables l r (drainQueue P sample q s) := by
  induction q generalizing s with
  | nil => rfl
  | cons ev rest ih =>
    unfold drainQueue
    split_ifs with due
    · rw [← ih, ← midiEvent_withTables]
      rfl
    · rfl

/-- Nor does the drain of a sample step. -/
theorem midiDrain_withTables (l r : Memory) (P : Params) (s : State) :
    midiDrain P (withTables l r s) = withTables l r (midiDrain P s) :=
  drainQueue_withTables l r P s.blk.BLK_S.toNat s.MQ s

/-- The scrub position of a sample step, from the rate ramp that the drain leaves and the state before the step (R196). -/
theorem sampleScrub_position (P : Params) (s : State) :
    (sampleScrub P s).1 =
      mixStep (noiseSample P s.par.P_TINT (rampTick s.DT (midiDrain P s).RMP_RATE).cur s)
        (oscOutput P (rampTick s.DT s.RMP_SHAPE).cur s.OSC_PHASE) (rampTick s.DT s.RMP_RANGE).cur := by
  unfold sampleScrub
  dsimp only
  rw [phaseAdvance_frame, tickRamps_frame, midiDrain_frame]
  rfl

/-- The scrub position does not depend on the tables. -/
theorem sampleScrub_position_withTables (l r : Memory) (P : Params) (s : State) :
    (sampleScrub P (withTables l r s)).1 = (sampleScrub P s).1 := by
  rw [sampleScrub_position, sampleScrub_position, midiDrain_withTables]
  rfl

/-- After the drain, operations 1 to 6 of a sample step leave the envelope. -/
theorem sampleScrub_env (P : Params) (s : State) : (sampleScrub P s).2.env = (midiDrain P s).env := by
  unfold sampleScrub
  dsimp only
  rw [phaseAdvance_frame, tickRamps_frame]
  rfl

/-- Of operations 1 to 7 of a sample step, the output words depend on the MIDI drain alone, besides the two lookups. -/
theorem hostRead_sampleOutput_sampleShaped (yL yR : F64) (P : Params) (s : State) (c : BitVec 4) (f : BitVec 20) :
    hostRead (sampleOutput yL yR (sampleShaped P s)) c f = hostRead (sampleOutput yL yR (midiDrain P s)) c f := by
  rw [hostRead_sampleOutput, hostRead_sampleOutput, sampleShaped, shaperStep_right, shaperStep_left, sampleScrub_frame,
    sampleScrub_env, midiDrain_frame]
  rfl

/-- What the host reads after a sample step with any tables: the tables reach it through the two lookups at the one scrub
position and through nothing else. -/
theorem hostRead_sampleStep_withTables {l r : Memory} {P : Params} {s t : State}
    (stepped : sampleStep P (withTables l r s) = .ok t) :
    ∃ yL yR, shaperOutput P .left (sampleScrub P s).1 (withTables l r s) = .ok yL ∧
      shaperOutput P .right (sampleScrub P s).1 (withTables l r s) = .ok yR ∧
      ∀ c f, hostRead t c f = hostRead (sampleOutput yL yR (midiDrain P s)) c f := by
  obtain ⟨yL, yR, left, right, rfl⟩ := sampleStep_ok_iff.mp stepped
  rw [sampleScrub_position_withTables] at left right
  refine ⟨yL, yR, left, right, fun c f => ?_⟩
  rw [hostRead_sampleOutput_sampleShaped, midiDrain_withTables, hostRead_sampleOutput, hostRead_sampleOutput]
  rfl

/-- The words of channel 0 do not depend on the right shaper's result (R186, R188). -/
theorem hostRead_sampleOutput_left (yL yR yR' : F64) (s : State) (f : BitVec 20) :
    hostRead (sampleOutput yL yR s) 0#4 f = hostRead (sampleOutput yL yR' s) 0#4 f := by
  rw [hostRead_sampleOutput, hostRead_sampleOutput]
  rfl

/-- The words of channel 1 do not depend on the left shaper's result (R186, R188). -/
theorem hostRead_sampleOutput_right (yL yL' yR : F64) (s : State) (f : BitVec 20) :
    hostRead (sampleOutput yL yR s) 1#4 f = hostRead (sampleOutput yL' yR s) 1#4 f := by
  rw [hostRead_sampleOutput, hostRead_sampleOutput]
  rfl

/-- Settles O48: a step with the other table replaced looks up the same in the table that is kept, and the output words
depend on nothing else that the tables reach. -/
theorem stereoSeparation : Obligations.StereoSeparation := by
  intro P s t m stepped
  have ownTables : sampleStep P (withTables s.WT_L s.WT_R s) = .ok t := stepped
  obtain ⟨yL, yR, left, right, words⟩ := hostRead_sampleStep_withTables ownTables
  constructor
  · intro t' (replaced : sampleStep P (withTables s.WT_L m s) = .ok t') f
    obtain ⟨yL', yR', left', -, words'⟩ := hostRead_sampleStep_withTables replaced
    have sameLookup : yL' = yL := Except.ok.inj (left'.symm.trans left)
    rw [words', words, sameLookup]
    exact hostRead_sampleOutput_left yL yR' yR _ f
  · intro t' (replaced : sampleStep P (withTables m s.WT_R s) = .ok t') f
    obtain ⟨yL', yR', -, right', words'⟩ := hostRead_sampleStep_withTables replaced
    have sameLookup : yR' = yR := Except.ok.inj (right'.symm.trans right)
    rw [words', words, sameLookup]
    exact hostRead_sampleOutput_right yL' yL yR _ f

end Sys2Proof.Proofs

/-! The MIDI queue: an insertion keeps the offset order (R203), and the end of a block carries the offsets over (R199). -/

namespace Sys2Proof.Proofs

open Sys2Proof.Machine

/-- The queue order of R40: offsets do not fall from one event to any later one. -/
def InOffsetOrder (q : List MidiEvent) : Prop := q.Pairwise fun a b => a.offset.toNat ≤ b.offset.toNat

/-- An event not after the first one goes past it (R203). -/
theorem queueInsert_cons_of_le {x ev : MidiEvent} (notAfter : x.offset.toNat ≤ ev.offset.toNat) (rest : List MidiEvent) :
    queueInsert (x :: rest) ev = x :: queueInsert rest ev :=
  if_pos notAfter

/-- An event before the first one goes to the front (R203). -/
theorem queueInsert_cons_of_lt {x ev : MidiEvent} (before : ev.offset.toNat < x.offset.toNat) (rest : List MidiEvent) :
    queueInsert (x :: rest) ev = ev :: x :: rest :=
  if_neg (Nat.not_le.mpr before)

/-- In a queue in order an insertion stands between the events of at most its offset and those of a greater one: where it
stops, every event from there on has a greater offset, since the first of them has. -/
theorem queueInsert_eq_filter {q : List MidiEvent} (ordered : InOffsetOrder q) (ev : MidiEvent) :
    queueInsert q ev =
      (q.filter fun x => x.offset.toNat ≤ ev.offset.toNat) ++ [ev] ++ (q.filter fun x => ev.offset.toNat < x.offset.toNat) := by
  induction q with
  | nil => rfl
  | cons x rest ih =>
    obtain ⟨first, ordered⟩ := List.pairwise_cons.mp ordered
    by_cases notAfter : x.offset.toNat ≤ ev.offset.toNat
    · rw [queueInsert_cons_of_le notAfter, ih ordered]
      simp [notAfter, Nat.not_lt.mpr notAfter]
    · have before : ev.offset.toNat < x.offset.toNat := Nat.not_le.mp notAfter
      have allAfter : ∀ y ∈ x :: rest, ev.offset.toNat < y.offset.toNat :=
        List.forall_mem_cons.mpr ⟨before, fun y later => before.trans_le (first y later)⟩
      rw [queueInsert_cons_of_lt before, List.filter_eq_self.mpr fun y queued => decide_eq_true (allAfter y queued),
        List.filter_eq_nil_iff.mpr fun y queued => by simpa using allAfter y queued]
      rfl

/-- An insertion keeps the queue in order (R203). -/
theorem queueInsert_ordered {q : List MidiEvent} (ordered : InOffsetOrder q) (ev : MidiEvent) :
    InOffsetOrder (queueInsert q ev) := by
  induction q with
  | nil => exact List.pairwise_singleton _ _
  | cons x rest ih =>
    obtain ⟨first, restOrdered⟩ := List.pairwise_cons.mp ordered
    by_cases notAfter : x.offset.toNat ≤ ev.offset.toNat
    · rw [queueInsert_cons_of_le notAfter]
      refine List.pairwise_cons.mpr ⟨fun y queued => ?_, ih restOrdered⟩
      obtain rfl | later := mem_queueInsert.mp queued
      · exact notAfter
      · exact first y later
    · have before : ev.offset.toNat < x.offset.toNat := Nat.not_le.mp notAfter
      rw [queueInsert_cons_of_lt before]
      exact List.pairwise_cons.mpr
        ⟨List.forall_mem_cons.mpr ⟨before.le, fun y later => before.le.trans (first y later)⟩, ordered⟩

/-- Settles O19: the place of the event, then the order of the queue. -/
theorem queueInsertStable : Obligations.QueueInsertStable :=
  fun _ ev ordered => ⟨queueInsert_eq_filter ordered ev, queueInsert_ordered ordered ev⟩

/-- Taking a frame count off an offset of at least that count does not wrap (R199). -/
theorem toNat_sub_frames {offset : Word} {n : BitVec 20} (enough : n.toNat ≤ offset.toNat) :
    (offset - n.setWidth 64).toNat + n.toNat = offset.toNat := by
  have frames : (n.setWidth 64).toNat = n.toNat := BitVec.toNat_setWidth_of_le (by decide)
  rw [BitVec.toNat_sub_of_le (BitVec.le_def.mpr (frames.trans_le enough)), frames]
  exact Nat.sub_add_cancel enough

/-- Where no event of a queue is before frame n, the carry takes n off each offset and keeps each message (R199). -/
theorem offsetCarry_map_add {n : BitVec 20} {q : List MidiEvent} (toCome : ∀ ev ∈ q, n.toNat ≤ ev.offset.toNat) :
    (offsetCarry n q).map (fun ev => (ev.offset.toNat + n.toNat, ev.status, ev.d1, ev.d2)) =
      q.map fun ev => (ev.offset.toNat, ev.status, ev.d1, ev.d2) := by
  rw [offsetCarry, List.map_map]
  refine List.map_congr_left fun ev queued => ?_
  simp only [Function.comp_apply, toNat_sub_frames (toCome ev queued)]

/-- Settles O54: at the last frame the invariant of a running block says that no event left is before the frame count. -/
theorem offsetsCarried : Obligations.OffsetsCarried := by
  intro s inv active ended
  obtain ⟨-, -, toCome⟩ := inv.running active
  rw [ended] at toCome
  exact ⟨toCome, offsetCarry_map_add toCome⟩

end Sys2Proof.Proofs

/-! The delivery of queued MIDI events: the drain (R197), the classification of an event (R198), note-on (R200) and note-off
(R201). -/

namespace Sys2Proof.Proofs

open Sys2Proof.Machine Sys2Proof.Claim

/-- The state with another queue. -/
def withQueue (q : List MidiEvent) (s : State) : State := { s with MQ := q }

/-- Of two queues the later one stays. -/
theorem withQueue_withQueue (q q' : List MidiEvent) (s : State) : withQueue q (withQueue q' s) = withQueue q s := rfl

/-- Delivering an event neither reads nor writes the queue. -/
theorem midiEvent_withQueue (q : List MidiEvent) (P : Params) (ev : MidiEvent) (s : State) :
    midiEvent P ev (withQueue q s) = withQueue q (midiEvent P ev s) := by
  simp only [midiEvent, noteOnEv, noteOffEv, apply_ite (withQueue q)]
  rfl

/-- Nor does delivering several. -/
theorem foldl_midiEvent_withQueue (q : List MidiEvent) (P : Params) (events : List MidiEvent) (s : State) :
    events.foldl (fun t ev => midiEvent P ev t) (withQueue q s) =
      withQueue q (events.foldl (fun t ev => midiEvent P ev t) s) := by
  induction events generalizing s with
  | nil => rfl
  | cons ev rest ih => rw [List.foldl_cons, midiEvent_withQueue, ih, List.foldl_cons]

/-- The drain of a queue at a sample delivers the due events at its head and leaves the rest as the queue (R197). -/
theorem drainQueue_eq_foldl (P : Params) (sample : Nat) (q : List MidiEvent) (s : State) :
    drainQueue P sample q s =
      withQueue (q.dropWhile fun ev => ev.offset.toNat ≤ sample)
        ((q.takeWhile fun ev => ev.offset.toNat ≤ sample).foldl (fun t ev => midiEvent P ev t) s) := by
  induction q generalizing s with
  | nil => rfl
  | cons ev rest ih =>
    by_cases due : ev.offset.toNat ≤ sample
    · have deliverFirst : drainQueue P sample (ev :: rest) s = drainQueue P sample rest (withQueue rest (midiEvent P ev s)) := by
        rw [← midiEvent_withQueue]
        exact if_pos due
      rw [deliverFirst, ih, foldl_midiEvent_withQueue, withQueue_withQueue]
      simp only [List.dropWhile_cons, List.takeWhile_cons, decide_eq_true due, if_true, List.foldl_cons]
    · simp only [List.dropWhile_cons, List.takeWhile_cons, decide_eq_false due, Bool.false_eq_true, if_false, List.foldl_nil]
      exact if_neg due

/-- Settles O51: the drain of a sample step is the drain of its queue. -/
theorem drainDelivers : Obligations.DrainDelivers :=
  fun P s => drainQueue_eq_foldl P s.blk.BLK_S.toNat s.MQ s

/-- The high half of a status byte, by its number (R198). -/
theorem statusNibble_eq_iff (status : Byte) (n : BitVec 4) : status.extractLsb' 4 4 = n ↔ status.toNat / 16 = n.toNat := by
  have nibble : (status.extractLsb' 4 4).toNat = status.toNat / 16 := by
    rw [BitVec.extractLsb'_toNat, Nat.shiftRight_eq_div_pow]
    omega
  rw [← BitVec.toNat_inj, nibble]

/-- A velocity above 0 is one that is not 0. -/
theorem toNat_pos_iff (velocity : Byte) : 0 < velocity.toNat ↔ velocity ≠ 0#8 := by
  rw [Nat.pos_iff_ne_zero, Ne, Ne, ← BitVec.toNat_inj]
  rfl

/-- A note-on that finds the stack full is dropped with NOTE_OVERFLOW (R200). -/
theorem noteOnEv_of_full {P : Params} {s : State} (full : P.noteCap ≤ s.NS.length) (pitch : Byte) :
    noteOnEv P pitch s = recorded s.blk.BLK_CW 5 s :=
  (if_pos full).trans (raiseFault_eq_recorded s.blk.BLK_CW .noteOverflow s)

/-- The first note held starts the envelope and retriggers the rate (R200). -/
theorem noteOnEv_of_first {P : Params} {s : State} (room : ¬ P.noteCap ≤ s.NS.length) (first : s.NS = []) (pitch : Byte) :
    noteOnEv P pitch s =
      { s with
        NS := [pitch]
        env := envNoteOn s.par s.env
        RMP_RATE := rampActivate T_RETRIG s.RMP_RATE.cur s.par.P_RATE } := by
  rw [noteOnEv, if_neg room, if_pos (List.length_eq_zero_iff.mpr first), first]
  rfl

/-- A further note held changes the stack alone (R200). -/
theorem noteOnEv_of_further {P : Params} {s : State} (room : ¬ P.noteCap ≤ s.NS.length) (further : s.NS ≠ []) (pitch : Byte) :
    noteOnEv P pitch s = { s with NS := s.NS ++ [pitch] } := by
  rw [noteOnEv, if_neg room, if_neg (further ∘ List.length_eq_zero_iff.mp)]

/-- Settles O52: the two conditions of the classification, then note-on by its three cases. -/
theorem noteOnEffect : Obligations.NoteOnEffect := by
  refine ⟨fun P ev s => ?_, fun P pitch s => ?_⟩
  · simp only [midiEvent, statusNibble_eq_iff, toNat_pos_iff, BitVec.toNat_ofNat, Nat.reducePow, Nat.reduceMod]
  · split_ifs with full first
    · exact noteOnEv_of_full full pitch
    · exact noteOnEv_of_first full first pitch
    · exact noteOnEv_of_further full first pitch

/-- Removing a pitch that is not held leaves the stack (R14). -/
theorem removeLast_of_notMem {l : List Byte} {p : Byte} (notHeld : p ∉ l) : removeLast l p = l := by
  rw [removeLast, List.erase_of_not_mem (notHeld ∘ List.mem_reverse.mp), List.reverse_reverse]

/-- Removing a held pitch takes out its last place (R14). -/
theorem removeLast_append_cons {b : List Byte} {p : Byte} (last : p ∉ b) (a : List Byte) :
    removeLast (a ++ p :: b) p = a ++ b := by
  have reversed : (a ++ p :: b).reverse = b.reverse ++ p :: a.reverse := by simp
  rw [removeLast, reversed, List.erase_append_right _ (last ∘ List.mem_reverse.mp), List.erase_cons_head, List.reverse_append,
    List.reverse_reverse, List.reverse_reverse]

/-- A note-off that does not take the last note held changes the stack alone (R201). -/
theorem noteOffEv_of_stack_only {pitch : Byte} {s : State}
    (stackOnly : ¬ ((removeLast s.NS pitch).length < s.NS.length ∧ removeLast s.NS pitch = [])) :
    noteOffEv pitch s = { s with NS := removeLast s.NS pitch } := by
  rw [← List.length_eq_zero_iff] at stackOnly
  exact if_neg stackOnly

/-- A note-off of the last note held releases the envelope and ramps the rate to 0 (R201). -/
theorem noteOffEv_of_last {pitch : Byte} {s : State} (held : s.NS ≠ []) (last : removeLast s.NS pitch = []) :
    noteOffEv pitch s =
      { s with
        NS := []
        env := envNoteOff s.par s.env
        RMP_RATE := rampActivate s.par.P_RELEASE s.RMP_RATE.cur f0 } := by
  have fewer : (removeLast s.NS pitch).length < s.NS.length ∧ (removeLast s.NS pitch).length = 0 := by
    rw [last]
    exact ⟨List.length_pos_iff.mpr held, rfl⟩
  rw [noteOffEv, if_pos fewer, last]
  rfl

/-- Settles O53: what the removal leaves, then whether it is the empty stack. -/
theorem noteOffEffect : Obligations.NoteOffEffect := by
  refine fun pitch s => ⟨fun notHeld => ?_, fun a b stack last => ?_⟩
  · have same : removeLast s.NS pitch = s.NS := removeLast_of_notMem notHeld
    rw [noteOffEv_of_stack_only (by simp [same]), same]
  · have left : removeLast s.NS pitch = a ++ b := stack ▸ removeLast_append_cons last a
    split_ifs with emptied
    · exact noteOffEv_of_last (by simp [stack]) (left.trans emptied)
    · rw [noteOffEv_of_stack_only (fun released => emptied (left.symm.trans released.2)), left]

end Sys2Proof.Proofs

/-! NOP (R205), RESET (R192) and MIDI_MSG (R202): their rows of the opcode map, and the checks of a command in the order of
R272. -/

namespace Sys2Proof.Proofs

open Sys2Proof.Machine Sys2Proof.Claim Sys2Proof.Laws

/-- Settles O14: NOP is `respond` of 0, at the words of its row. -/
theorem nopEffect : Obligations.NopEffect :=
  ⟨plainWords_of_row rfl fun _ => rfl, fun _ => rfl⟩

/-- Words that decode to a command run it (R97). -/
theorem issued_of_ok {cw : CmdWord} {dw : Word} {i : Instr} (decoded : decodeWords cw dw = .ok i) (s : State) :
    issued cw dw s = exec i s := by
  rw [issued, decoded]

section Checks

variable {s : State}

/-- A command in a ready machine passes the readiness check (R195). -/
theorem whenReady_of_ready (ready : ¬ s.READY = false) (cw : CmdWord) (run : State → State) : whenReady cw s run = run s :=
  if_pos (Bool.eq_true_of_not_eq_false ready)

/-- A command before RESET is NOT_READY (R195). -/
theorem whenReady_eq_refused (notReady : s.READY = false) (cw : CmdWord) (run : State → State) :
    whenReady cw s run = refused cw 2 s := by
  rw [whenReady, notReady]
  rfl

variable {valid : Bool}

/-- A command whose operands are in their domain passes the domain check (R266). -/
theorem whenValid_of_valid (inDomain : ¬ valid = false) (cw : CmdWord) (run : State → State) :
    whenValid valid cw s run = run s :=
  if_pos (Bool.eq_true_of_not_eq_false inDomain)

/-- A command with an operand outside its domain is BAD_ARG (R266). -/
theorem whenValid_eq_refused (outside : valid = false) (cw : CmdWord) (run : State → State) :
    whenValid valid cw s run = refused cw 3 s := by
  rw [whenValid, outside]
  rfl

end Checks

/-- The row of RESET in the opcode map (R96). -/
theorem decodeWords_reset (bs : BitVec 24) (sr : F64) : decodeWords (0x01#8 ++ bs : BitVec 32) sr = .ok (.reset bs sr) := by
  simp only [decodeWords, opOf_append, immOf_append, BitVec.toNat_ofNat, Nat.reducePow, Nat.reduceMod]

/-- The operands RESET refuses (R192). -/
theorem resetOperands_eq_false_iff (bs : BitVec 24) (sr : F64) : resetOperands bs sr = false ↔
    isFinite sr = false ∨ flt f0 sr = false ∨ isFinite (fdiv f1 sr) = false ∨ bs = 0#24 := by
  simp only [resetOperands, Bool.and_eq_false_iff, bne_eq_false_iff_eq, or_assoc]

/-- Settles O15, by the outcome of each check. -/
theorem resetEffect : Obligations.ResetEffect := by
  refine ⟨fun bs sr s => issued_of_ok (decodeWords_reset bs sr) s, fun bs sr s => congrArg Host.Outcome.next ?_⟩
  simp only [resetCommand, ← resetOperands_eq_false_iff]
  split_ifs with onControl outside
  · exact onAudio_eq_refused onControl _ _
  · rw [onAudio_of_ne_control onControl]
    exact whenValid_eq_refused outside _ _
  · rw [onAudio_of_ne_control onControl, whenValid_of_valid outside, envStopped_eq]
    rfl

/-- The row of MIDI_MSG in the opcode map: its three bytes stand below the opcode (R92, R96). -/
theorem decodeWords_midiMsg (status d1 d2 : Byte) (offset : Word) :
    decodeWords (0x03#8 ++ status ++ d1 ++ d2 : BitVec 32) offset = .ok (.midiMsg status d1 d2 offset) := by
  have opcode : opOf (0x03#8 ++ status ++ d1 ++ d2 : BitVec 32) = 0x03#8 := by
    unfold opOf
    iterate 3 rw [BitVec.extractLsb'_append_eq_of_le (by decide)]
    exact BitVec.extractLsb'_eq_self
  have first : (0x03#8 ++ status ++ d1 ++ d2 : BitVec 32).extractLsb' 16 8 = status := by
    iterate 2 rw [BitVec.extractLsb'_append_eq_of_le (by decide)]
    exact BitVec.extractLsb'_append_eq_right
  have second : (0x03#8 ++ status ++ d1 ++ d2 : BitVec 32).extractLsb' 8 8 = d1 := by
    rw [BitVec.extractLsb'_append_eq_of_le (by decide)]
    exact BitVec.extractLsb'_append_eq_right
  have third : (0x03#8 ++ status ++ d1 ++ d2 : BitVec 32).extractLsb' 0 8 = d2 := BitVec.extractLsb'_append_eq_right
  simp only [decodeWords, opcode, first, second, third, BitVec.toNat_ofNat, Nat.reducePow, Nat.reduceMod]

/-- The bytes MIDI_MSG refuses: no status byte, or a data byte with its top bit set (R202). -/
theorem midiOperands_eq_false_iff (status d1 d2 : Byte) : midiOperands status d1 d2 = false ↔
    status.getLsbD 7 = false ∨ d1.getLsbD 7 = true ∨ d2.getLsbD 7 = true := by
  simp only [midiOperands, BitVec.msb_eq_getLsbD_last, Bool.and_eq_false_iff, Bool.not_eq_false', or_assoc, Nat.reduceSub]

/-- A message is no note message where its status number is neither 8 nor 9 (R202). -/
theorem isNoteMessage_eq_false_iff (status : Byte) :
    isNoteMessage status = false ↔ status.toNat / 16 ≠ 8 ∧ status.toNat / 16 ≠ 9 := by
  simp only [isNoteMessage, Bool.or_eq_false_iff, decide_eq_false_iff_not, statusNibble_eq_iff, BitVec.toNat_ofNat,
    Nat.reducePow, Nat.reduceMod, Ne]

/-- MIDI_MSG past its checks: a message that is no note is ignored, a note is queued where there is room (R202). -/
theorem midiMsg_of_checked {status d1 d2 : Byte} {s : State} (notControl : s.PORT ≠ .control) (ready : ¬ s.READY = false)
    (inDomain : ¬ midiOperands status d1 d2 = false) (offset : Word) :
    midiMsg status d1 d2 offset s =
      if isNoteMessage status then
        if s.BLOCK_SIZE.toNat ≤ s.MQ.length then refuse (Instr.midiMsg status d1 d2 offset).commandWord .midiOverflow s
        else respond 0#64 { s with MQ := queueInsert s.MQ { offset := offset, status := status, d1 := d1, d2 := d2 } }
      else respond 0#64 s := by
  rw [midiMsg, onAudio_of_ne_control notControl, whenReady_of_ready ready, whenValid_of_valid inDomain]

/-- Settles O18, by the outcome of each check, then by the message. -/
theorem midiMsgEffect : Obligations.MidiMsgEffect := by
  refine ⟨fun st d1 d2 off s => issued_of_ok (decodeWords_midiMsg st d1 d2 off) s,
    fun st d1 d2 off s => congrArg Host.Outcome.next ?_⟩
  simp only [← midiOperands_eq_false_iff, ← isNoteMessage_eq_false_iff]
  split_ifs with onControl notReady outside ignored full
  · rw [midiMsg]
    exact onAudio_eq_refused onControl _ _
  · rw [midiMsg, onAudio_of_ne_control onControl]
    exact whenReady_eq_refused notReady _ _
  · rw [midiMsg, onAudio_of_ne_control onControl, whenReady_of_ready notReady]
    exact whenValid_eq_refused outside _ _
  · rw [midiMsg_of_checked onControl notReady outside, ignored]
    rfl
  · rw [midiMsg_of_checked onControl notReady outside, if_pos (Bool.eq_true_of_not_eq_false ignored), if_pos full]
    rfl
  · rw [midiMsg_of_checked onControl notReady outside, if_pos (Bool.eq_true_of_not_eq_false ignored), if_neg full]
    rfl

end Sys2Proof.Proofs

/-! The setters of one real operand (R223): the envelope times (R225, R226, R228), the sustain level (R227), and the noise
parameters with the apply operations of R233 (R229 to R232). GET_FAULT_INFO (R238) answers the first-fault word. -/

namespace Sys2Proof.Proofs

open Sys2Proof.Machine Sys2Proof.Claim

section Setter

variable {v : F64}

/-- A setter with a finite operand does its write and answers 0 (R223). -/
theorem withFinite_of_finite (finite : isFinite v = true) (cw : CmdWord) (s : State) (run : State → State) :
    withFinite cw v s run = answered 0#64 (run s) :=
  if_pos finite

/-- A setter with an infinity or a NaN is BAD_ARG (R223). -/
theorem withFinite_of_not_finite (notFinite : isFinite v = false) (cw : CmdWord) (s : State) (run : State → State) :
    withFinite cw v s run = refused cw 3 s :=
  whenValid_eq_refused notFinite cw _

/-- What a setter does, by its operand and its write (R223). -/
theorem setter_eq {cw : CmdWord} {s t : State} {run : State → State} (write : run s = t) :
    Host.Outcome.next (withFinite cw v s run) = (.next (if isFinite v then answered 0#64 t else refused cw 3 s) :
      Host.Outcome State Fault Refusal) := by
  refine congrArg Host.Outcome.next ?_
  split_ifs with finite
  · rw [withFinite_of_finite finite, write]
  · exact withFinite_of_not_finite (Bool.eq_false_iff.mpr finite) cw s run

end Setter

/-- Settles O21: each time is the write of a setter, at the words of its row. -/
theorem setEnvelopeTimes : Obligations.SetEnvelopeTimes :=
  ⟨plainWords_of_row rfl fun _ => rfl, plainWords_of_row rfl fun _ => rfl, plainWords_of_row rfl fun _ => rfl,
    fun _ _ => ⟨setter_eq rfl, setter_eq rfl, setter_eq rfl⟩⟩

/-- Neither of two values is below the other at once. -/
theorem not_flt_of_flt {a b : F64} (below : flt a b = true) : ¬ flt b a = true := by
  intro above
  obtain ⟨-, -, less⟩ := flt_iff.mp below
  obtain ⟨-, -, greater⟩ := flt_iff.mp above
  exact less.asymm greater

/-- `min` takes the first operand where it is the smaller one (R12). -/
theorem fmin_of_flt {a b : F64} (below : flt a b = true) : fmin a b = a := if_pos below

/-- `min` takes the second operand where it is the smaller one (R12). -/
theorem fmin_of_flt_right {a b : F64} (above : flt b a = true) : fmin a b = b :=
  (if_neg (not_flt_of_flt above)).trans (if_pos above)

/-- The sustain operand by its order to 0.0 and 1.0 (R227); only 1.0 has the key of 1.0, so `min` never picks a zero. -/
theorem sustainOperand_eq (v : F64) : sustainOperand v = if flt f0 v then (if flt f1 v then f1 else v) else f0 := by
  refine ite_congr rfl (fun positive => ?_) fun _ => rfl
  obtain ⟨-, notNaN, -⟩ := flt_iff.mp positive
  rcases lt_trichotomy (orderKey v) (orderKey f1) with less | same | greater
  · have below : flt v f1 = true := flt_iff.mpr ⟨notNaN, by decide, less⟩
    rw [fmin_of_flt below, if_neg (not_flt_of_flt below)]
  · rw [eq_of_orderKey_eq_of_pos same (by decide)]
    decide
  · have above : flt f1 v = true := flt_iff.mpr ⟨by decide, notNaN, greater⟩
    rw [fmin_of_flt_right above, if_pos above]

/-- Settles O22, by the check of the operand and then its place in [0, 1]. -/
theorem setSustainEffect : Obligations.SetSustainEffect := by
  refine ⟨plainWords_of_row rfl fun _ => rfl, fun v s => congrArg Host.Outcome.next ?_⟩
  by_cases notFinite : isFinite v = false
  · rw [if_pos notFinite]
    exact withFinite_of_not_finite notFinite _ s _
  · rw [if_neg notFinite, withFinite_of_finite (Bool.eq_true_of_not_eq_false notFinite), sustainOperand_eq]
    rfl

/-- A stage that is armed from where a ramp stands (R233). -/
def armedRamp (duration target : F64) (r : Ramp) : Ramp :=
  { cur := r.cur, start := r.cur, endVal := target, dur := duration, elapsed := f0 }

/-- Activating a ramp from its own value over a duration above zero arms it (R112, R233). -/
theorem rampActivate_eq_armedRamp {d : F64} (positive : flt f0 d = true) (target : F64) (r : Ramp) :
    rampActivate d (rampValue r) target = armedRamp d target r :=
  rampActivate_of_pos positive r.cur target

/-- `ApplyMod` arms its ramp over `T_MOD` (R233). -/
theorem applyMod_eq (x : F64) (s : State) :
    applyMod x s = { s with par := { s.par with P_MOD := x }, RMP_MOD := armedRamp T_MOD x s.RMP_MOD } := by
  have positive : flt f0 T_MOD = true := by decide
  rw [applyMod, rampActivate_eq_armedRamp positive]

/-- `ApplyRange` arms its ramp over `T_RANGE` (R233). -/
theorem applyRange_eq (x : F64) (s : State) :
    applyRange x s = { s with par := { s.par with P_RANGE := x }, RMP_RANGE := armedRamp T_RANGE x s.RMP_RANGE } := by
  have positive : flt f0 T_RANGE = true := by decide
  rw [applyRange, rampActivate_eq_armedRamp positive]

/-- `ApplyShape` arms its ramp over `T_SHAPE` (R233). -/
theorem applyShape_eq (x : F64) (s : State) :
    applyShape x s = { s with par := { s.par with P_SHAPE := x }, RMP_SHAPE := armedRamp T_SHAPE x s.RMP_SHAPE } := by
  have positive : flt f0 T_SHAPE = true := by decide
  rw [applyShape, rampActivate_eq_armedRamp positive]

/-- Settles O24: each parameter is the apply operation of a setter, at the words of its row. -/
theorem setRampParameters : Obligations.SetRampParameters :=
  ⟨plainWords_of_row rfl fun _ => rfl, plainWords_of_row rfl fun _ => rfl, plainWords_of_row rfl fun _ => rfl,
    fun v s => ⟨setter_eq (applyMod_eq v s), setter_eq (applyRange_eq v s), setter_eq (applyShape_eq v s)⟩⟩

/-- `ApplyRate` arms its ramp over `T_RATE` while a note is held (R233). -/
theorem applyRate_of_held {s : State} (held : s.NS ≠ []) (x : F64) :
    applyRate x s = { s with par := { s.par with P_RATE := x }, RMP_RATE := armedRamp T_RATE x s.RMP_RATE } := by
  have positive : flt f0 T_RATE = true := by decide
  rw [applyRate, if_pos (List.length_pos_iff.mpr held), rampActivate_eq_armedRamp positive]

/-- `ApplyRate` jumps while no note is held (R233). -/
theorem applyRate_of_none_held {s : State} (noneHeld : s.NS = []) (x : F64) :
    applyRate x s = { s with par := { s.par with P_RATE := x }, RMP_RATE := settledRamp x } := by
  have instant : ¬ s.NS.length > 0 := by simp [noneHeld]
  rw [applyRate, if_neg instant, rampActivate_of_not_pos (by decide)]
  rfl

/-- Settles O25, by the check of the operand and then the note stack. -/
theorem setNoiseRateEffect : Obligations.SetNoiseRateEffect := by
  refine ⟨plainWords_of_row rfl fun _ => rfl, fun v s => congrArg Host.Outcome.next ?_⟩
  split_ifs with notFinite noneHeld
  · exact withFinite_of_not_finite notFinite _ s _
  · rw [withFinite_of_finite (Bool.eq_true_of_not_eq_false notFinite), applyRate_of_none_held noneHeld]
    rfl
  · rw [withFinite_of_finite (Bool.eq_true_of_not_eq_false notFinite), applyRate_of_held noneHeld]
    rfl

/-- As a response the first-fault word stands below 24 zeros (R45). -/
theorem faultInfoWord_eq (s : State) : faultInfoWord s = 0#24 ++ s.FAULT_INFO := BitVec.setWidth_eq_append (by decide)

/-- Settles O32: GET_FAULT_INFO is `respond` of the first-fault word, at the words of its row. -/
theorem faultInfoAnswer : Obligations.FaultInfoAnswer :=
  ⟨plainWords_of_row rfl fun _ => rfl, fun s => congrArg (fun w => Host.Outcome.next (answered w s)) (faultInfoWord_eq s)⟩

end Sys2Proof.Proofs

/-! SET_VOLUME (R224): division by a positive value keeps the order of the dividends, so every volume at or below the silent
one has a quotient at or below the silent one's, and gain 0.0. -/

namespace Sys2Proof.Proofs

open Sys2Proof.Machine Sys2Proof.Claim

/-- A rising map of magnitudes that keeps 0 keeps the order of the values it is applied to under their own signs. -/
theorem packMag_mono {f : Nat → Nat} (rising : Monotone f) (zero : f 0 = 0) (bounded : ∀ m, f m ≤ infMag) {a b : F64}
    (ordered : orderKey a ≤ orderKey b) : fle (packMag a.msb (f (magBits a))) (packMag b.msb (f (magBits b))) = true := by
  refine fle_iff.mpr ⟨isNaN_packMag (bounded _), isNaN_packMag (bounded _), ?_⟩
  rw [orderKey_packMag (bounded _), orderKey_packMag (bounded _)]
  unfold orderKey at ordered
  split_ifs at ordered ⊢ with aNegative bNegative
  · have := rising (by omega : magBits b ≤ magBits a)
    omega
  · omega
  · have zeros : magBits a = 0 ∧ magBits b = 0 := by omega
    rw [zeros.1, zeros.2, zero]
    rfl
  · have := rising (by omega : magBits a ≤ magBits b)
    omega

/-- The quotient of finite values by one above zero is the exact quotient, rounded, under the dividend's sign (R12). -/
theorem fdiv_finite {a d : F64} (aFinite : isFinite a = true) (dFinite : isFinite d = true) (dSign : d.msb = false)
    (dNonzero : magBits d ≠ 0) :
    fdiv a d = packMag a.msb (roundMag (magUnits (magBits a) * unitScale) (magUnits (magBits d))) := by
  simp [fdiv, isNaN_of_isFinite aFinite, isNaN_of_isFinite dFinite, aFinite, dFinite, dSign, dNonzero]

/-- Division by 20.0 keeps the order of finite values. -/
theorem fdiv_f20_mono {a b : F64} (aFinite : isFinite a = true) (bFinite : isFinite b = true)
    (ordered : fle a b = true) : fle (fdiv a f20) (fdiv b f20) = true := by
  have divisor : isFinite f20 = true ∧ f20.msb = false ∧ magBits f20 ≠ 0 := by decide
  obtain ⟨dFinite, dSign, dNonzero⟩ := divisor
  have positive : 0 < magUnits (magBits f20) := by decide +kernel
  obtain ⟨-, -, keys⟩ := fle_iff.mp ordered
  rw [fdiv_finite aFinite dFinite dSign dNonzero, fdiv_finite bFinite dFinite dSign dNonzero]
  exact packMag_mono (f := fun m => roundMag (magUnits m * unitScale) (magUnits (magBits f20)))
    (fun _ _ le => roundMag_mono positive (Nat.mul_le_mul_right _ (magUnits_mono le)))
    (by simp [magUnits, roundMag, nearestEven]) (fun _ => roundMag_le _ _) keys

/-- Every finite volume at or below the silent one has gain 0.0 (R224). -/
theorem gain_of_le_silentVolume {P : Params} {v : F64} (finite : isFinite v = true) (silent : fle v (silentVolume P) = true) :
    pow64 P f10 (fdiv v f20) = f0 :=
  pow64_silent (fdiv_f20_mono finite (silentVolume_spec P).1 silent)

/-- SET_VOLUME by its two checks (R224): the volume, then its gain. -/
theorem setVolume_eq (P : Params) (v : F64) (s : State) :
    setVolume P v s =
      if isFinite v = false ∨ isFinite (pow64 P f10 (fdiv v f20)) = false then refused 0x10000000#32 3 s
      else { s with par := { s.par with P_VOLUME := v, VOL_GAIN := pow64 P f10 (fdiv v f20) }, RESP := 0#64 } := by
  by_cases volume : isFinite v = false
  · rw [if_pos (.inl volume), setVolume, whenValid_eq_refused volume]
    rfl
  · rw [setVolume, whenValid_of_valid volume]
    by_cases gain : isFinite (pow64 P f10 (fdiv v f20)) = false
    · rw [if_pos (.inr gain), whenValid_eq_refused gain]
      rfl
    · rw [if_neg (not_or.mpr ⟨volume, gain⟩), whenValid_of_valid gain]
      rfl

/-- Settles O20: the two checks, the sign of a power of 10.0, and the silent volume. -/
theorem setVolumeEffect : Obligations.SetVolumeEffect :=
  have ⟨silentFinite, silentNegative⟩ := silentVolume_spec Config.params
  ⟨plainWords_of_row rfl fun _ => rfl, fun v s => congrArg Host.Outcome.next (setVolume_eq Config.params v s),
    fun _ finite => pow64_ten_nonneg finite, silentVolume Config.params, silentFinite, silentNegative,
    fun _ finite silent => gain_of_le_silentVolume finite silent⟩

end Sys2Proof.Proofs

/-! The snapshot dial (R249, R251): its position lies in [0, 7], the floor keeps order, so both slots are slots; at and above
7.0 the position is 7.0 itself. -/

namespace Sys2Proof.Proofs

open Sys2Proof.Machine Sys2Proof.Claim

/-- The floor of a finite value is its largest whole number of 1.0s, rounded (R12). -/
theorem ffloor_finite {a : F64} (finite : isFinite a = true) :
    ffloor a = roundUnits a.msb (units a / (unitScale : Int) * unitScale) :=
  if_pos finite

/-- The floor keeps the order of finite values. -/
theorem ffloor_mono {a b : F64} (aFinite : isFinite a = true) (bFinite : isFinite b = true) (ordered : fle a b = true) :
    fle (ffloor a) (ffloor b) = true := by
  obtain ⟨-, -, keys⟩ := fle_iff.mp ordered
  have wholes : units a / (unitScale : Int) ≤ units b / (unitScale : Int) :=
    Int.ediv_le_ediv (by decide +kernel) (units_mono keys)
  rw [ffloor_finite aFinite, ffloor_finite bFinite]
  exact roundUnits_mono _ _ (Int.mul_le_mul_of_nonneg_right wholes (Int.natCast_nonneg _))

/-- Between 0.0 and another value, the magnitude is at most the other's. -/
theorem magBits_le_of_nonneg {a b : F64} (nonneg : fle f0 a = true) (ordered : fle a b = true) : magBits a ≤ magBits b := by
  obtain ⟨-, -, lower⟩ := fle_iff.mp nonneg
  obtain ⟨-, -, upper⟩ := fle_iff.mp ordered
  have zeroKey : orderKey f0 = 0 := rfl
  unfold orderKey at lower upper zeroKey
  split_ifs at lower upper zeroKey <;> omega

/-- `toInt` keeps the order of values from 0.0 on. -/
theorem toInt_mono {a b : F64} (nonneg : fle f0 a = true) (ordered : fle a b = true) : toInt a ≤ toInt b :=
  Nat.div_le_div_right (magUnits_mono (magBits_le_of_nonneg nonneg ordered))

/-- The dial position lies in [0, 7] (R249). -/
theorem dialPosition_window {v : F64} (finite : isFinite v = true) :
    fle f0 (dialPosition v) = true ∧ fle (dialPosition v) f7 = true :=
  fclamp_window (isNaN_of_isFinite finite) (by decide) (by decide) (by decide)

/-- A value in [0, 7] is finite. -/
theorem isFinite_of_dial_window {c : F64} (nonneg : fle f0 c = true) (atMost : fle c f7 = true) : isFinite c = true :=
  decide_eq_true ((magBits_le_of_nonneg nonneg atMost).trans_lt (by decide))

/-- The lower slot of every dial position is a slot (R251). -/
theorem dialLower_le {c : F64} (nonneg : fle f0 c = true) (atMost : fle c f7 = true) : dialLower c ≤ 7 := by
  have finite : isFinite c = true := isFinite_of_dial_window nonneg atMost
  have floorNonneg : fle f0 (ffloor c) = true := by
    have floorZero : ffloor f0 = f0 := by decide +kernel
    simpa only [floorZero] using ffloor_mono (by decide) finite nonneg
  calc dialLower c ≤ toInt (ffloor f7) := toInt_mono floorNonneg (ffloor_mono finite (by decide) atMost)
    _ = 7 := by decide +kernel

/-- The upper slot of every dial position is a slot (R251). -/
theorem dialUpper_le (c : F64) : dialUpper c ≤ 7 := Nat.min_le_right _ _

/-- At 7.0 and above, the dial stands at 7.0 (R251); only 7.0 has the key of 7.0. -/
theorem dialPosition_of_top {v : F64} (top : fle f7 v = true) : dialPosition v = f7 := by
  obtain ⟨sevenNotNaN, notNaN, keys⟩ := fle_iff.mp top
  have positive : flt f0 v = true := flt_iff.mpr ⟨by decide, notNaN, lt_of_lt_of_le (by decide) keys⟩
  have raised : fmax v f0 = v := if_pos positive
  rw [dialPosition, fclamp, raised]
  rcases keys.lt_or_eq with greater | same
  · exact fmin_of_flt_right (flt_iff.mpr ⟨sevenNotNaN, notNaN, greater⟩)
  · rw [eq_of_orderKey_eq_of_pos same.symm (by decide)]
    decide

/-- 7.0 is slot 7 and no part of the next (R251). -/
theorem dial_f7 : dialLower f7 = 7 ∧ dialUpper f7 = 7 ∧ dialWeight f7 = f0 := by
  decide +kernel

/-- With weight 0.0 the blend is the lower value itself, bit for bit (R250). -/
theorem blend_f0 (a b : F64) : blend a b f0 = a := if_pos rfl

/-- At 7.0 every field is slot 7's own (R251). -/
theorem dialBlend_f7 (s : State) (f : SnapField) : dialBlend s f7 f = snapField f (snapSlot s 7) := by
  obtain ⟨lower, -, weight⟩ := dial_f7
  rw [dialBlend, lower, weight, blend_f0]

/-- Settles O36: the window of the dial position, and its one pattern at the top. -/
theorem snapshotTopEdge : Obligations.SnapshotTopEdge := by
  intro v finite
  obtain ⟨nonneg, atMost⟩ := dialPosition_window finite
  refine ⟨dialLower_le nonneg atMost, dialUpper_le _, fun top => ?_⟩
  obtain ⟨lower, upper, weight⟩ := dial_f7
  rw [dialPosition_of_top top]
  exact ⟨rfl, lower, upper, weight, dialBlend_f7⟩

end Sys2Proof.Proofs

/-! The snapshot commands: the words of format SF (R95), the slot that an index names (R253 to R255), and the dial's four
blended fields in their order (R249, R250, R252). -/

namespace Sys2Proof.Proofs

open Sys2Proof.Machine Sys2Proof.Claim

/-- The opcode of a command word of format SF (R95). -/
theorem opOf_append_field (op : BitVec 8) (above : BitVec 18) (f : BitVec 2) (k : BitVec 4) :
    opOf (op ++ above ++ f ++ k : BitVec 32) = op := by
  unfold opOf
  iterate 3 rw [BitVec.extractLsb'_append_eq_of_le (by decide)]
  exact BitVec.extractLsb'_eq_self

/-- The bits format SF reserves stand above the field code. -/
theorem extractLsb'_append_above_field (op : BitVec 8) (above : BitVec 18) (f : BitVec 2) (k : BitVec 4) :
    (op ++ above ++ f ++ k : BitVec 32).extractLsb' 6 18 = above := by
  iterate 2 rw [BitVec.extractLsb'_append_eq_of_le (by decide)]
  exact BitVec.extractLsb'_append_eq_right

/-- The field code stands above the slot index (R95). -/
theorem extractLsb'_append_field (op : BitVec 8) (above : BitVec 18) (f : BitVec 2) (k : BitVec 4) :
    (op ++ above ++ f ++ k : BitVec 32).extractLsb' 4 2 = f := by
  rw [BitVec.extractLsb'_append_eq_of_le (by decide)]
  exact BitVec.extractLsb'_append_eq_right

/-- The slot index is the lowest four bits (R95). -/
theorem extractLsb'_append_slot (op : BitVec 8) (above : BitVec 18) (f : BitVec 2) (k : BitVec 4) :
    (op ++ above ++ f ++ k : BitVec 32).extractLsb' 0 4 = k :=
  BitVec.extractLsb'_append_eq_right

/-- The row of UPDATE_NOISE_SNAPSHOT in the opcode map (R96). -/
theorem decodeWords_updateNoiseSnapshot (above : BitVec 20) (k : BitVec 4) (dw : Word) :
    decodeWords (0x40#8 ++ above ++ k : BitVec 32) dw = ifClear above (.updateNoiseSnapshot k) := by
  simp only [decodeWords, opOf_append_index, extractLsb'_append_above, extractLsb'_append_index, BitVec.toNat_ofNat,
    Nat.reducePow, Nat.reduceMod]

/-- The row of GET_NOISE_SNAPSHOT in the opcode map (R96). -/
theorem decodeWords_getNoiseSnapshot (above : BitVec 18) (f : BitVec 2) (k : BitVec 4) (dw : Word) :
    decodeWords (0x41#8 ++ above ++ f ++ k : BitVec 32) dw = ifClear above (.getNoiseSnapshot (SnapField.ofCode f) k) := by
  simp only [decodeWords, opOf_append_field, extractLsb'_append_above_field, extractLsb'_append_field,
    extractLsb'_append_slot, BitVec.toNat_ofNat, Nat.reducePow, Nat.reduceMod]

/-- The row of GET_NOISE_SNAPSHOT_NORMALIZED in the opcode map (R96). -/
theorem decodeWords_getNoiseSnapshotNormalized (above : BitVec 18) (f : BitVec 2) (k : BitVec 4) (dw : Word) :
    decodeWords (0x42#8 ++ above ++ f ++ k : BitVec 32) dw =
      ifClear above (.getNoiseSnapshotNormalized (SnapField.ofCode f) k) := by
  simp only [decodeWords, opOf_append_field, extractLsb'_append_above_field, extractLsb'_append_field,
    extractLsb'_append_slot, BitVec.toNat_ofNat, Nat.reducePow, Nat.reduceMod]

section Slot

variable {idx : BitVec 4}

/-- An index above 7 is no slot (R253). -/
theorem slotOperand_of_outside (outside : 7 < idx.toNat) : slotOperand idx = false :=
  decide_eq_false (Nat.not_le.mpr outside)

/-- A capture outside the slots is BAD_ARG (R253). -/
theorem updateNoiseSnapshot_of_outside (outside : 7 < idx.toNat) (s : State) :
    updateNoiseSnapshot idx s = refused (Instr.updateNoiseSnapshot idx).commandWord 3 s :=
  whenValid_eq_refused (slotOperand_of_outside outside) _ _

/-- A getter outside the slots is BAD_ARG (R254). -/
theorem getNoiseSnapshot_of_outside (outside : 7 < idx.toNat) (f : SnapField) (s : State) :
    getNoiseSnapshot f idx s = refused (Instr.getNoiseSnapshot f idx).commandWord 3 s :=
  whenValid_eq_refused (slotOperand_of_outside outside) _ _

/-- A normalized getter outside the slots is BAD_ARG (R255). -/
theorem getNoiseSnapshotNormalized_of_outside (outside : 7 < idx.toNat) (P : Params) (f : SnapField) (s : State) :
    getNoiseSnapshotNormalized P f idx s = refused (Instr.getNoiseSnapshotNormalized f idx).commandWord 3 s := by
  rw [getNoiseSnapshotNormalized, whenValid_eq_refused (slotOperand_of_outside outside)]

variable {k : Fin 8}

/-- An index up to 7 is a slot (R253). -/
theorem slotOperand_of_slot (slot : k.val = idx.toNat) : ¬ slotOperand idx = false := by
  have inside : idx.toNat ≤ kNoiseSnapshotMax := slot ▸ Nat.le_of_lt_succ k.isLt
  rw [slotOperand, decide_eq_true inside]
  exact Bool.noConfusion

/-- The slot of an index is that index's own entry. -/
theorem snapSlot_eq {n : Nat} (slot : k.val = n) (s : State) : snapSlot s n = s.SNAP[k] := by
  subst slot
  have inside : min k.val kNoiseSnapshotMax = k.val := Nat.min_eq_left (Nat.le_of_lt_succ k.isLt)
  simp only [snapSlot, inside, Fin.getElem_fin]

/-- A capture in a slot replaces that slot (R253). -/
theorem updateNoiseSnapshot_of_slot (slot : k.val = idx.toNat) (s : State) :
    updateNoiseSnapshot idx s = { s with SNAP := s.SNAP.set k (liveSnapshot s.par), RESP := 0#64 } := by
  have written : s.SNAP.setIfInBounds k (liveSnapshot s.par) = s.SNAP.set k (liveSnapshot s.par) :=
    Vector.ext fun n below => by rw [Vector.getElem_setIfInBounds, Vector.getElem_set]
  rw [updateNoiseSnapshot, whenValid_of_valid (slotOperand_of_slot slot), ← slot, written]
  rfl

/-- A getter of a slot answers the field of its record (R254). -/
theorem getNoiseSnapshot_of_slot (slot : k.val = idx.toNat) (f : SnapField) (s : State) :
    getNoiseSnapshot f idx s = answered (snapField f s.SNAP[k]) s := by
  rw [getNoiseSnapshot, whenValid_of_valid (slotOperand_of_slot slot), snapSlot_eq slot]
  rfl

/-- A normalized getter of a slot answers the clamped quotient, or is NUMERIC where that is not finite (R255). -/
theorem getNoiseSnapshotNormalized_of_slot (slot : k.val = idx.toNat) (P : Params) (f : SnapField) (s : State) :
    getNoiseSnapshotNormalized P f idx s =
      if isFinite (normalizedQuotient (snapField f s.SNAP[k]) (pmin P f) (pmax P f)) then
        answered (fclamp (normalizedQuotient (snapField f s.SNAP[k]) (pmin P f) (pmax P f)) f0 f1) s
      else refused (Instr.getNoiseSnapshotNormalized f idx).commandWord 8 s := by
  rw [getNoiseSnapshotNormalized, whenValid_of_valid (slotOperand_of_slot slot), snapSlot_eq slot]
  rfl

end Slot

/-- Settles O33, by the index: above 7, or one of the slots. -/
theorem snapshotSlots : Obligations.SnapshotSlots := by
  refine ⟨fun above k dw s => issued_of_ifClear (decodeWords_updateNoiseSnapshot above k dw) s,
    fun above f k dw s => issued_of_ifClear (decodeWords_getNoiseSnapshot above f k dw) s, fun idx f s =>
    ⟨fun outside => ?_, fun k slot => ?_⟩⟩
  · exact ⟨congrArg Host.Outcome.next (updateNoiseSnapshot_of_outside outside s),
      congrArg Host.Outcome.next (getNoiseSnapshot_of_outside outside f s)⟩
  · exact ⟨congrArg Host.Outcome.next (updateNoiseSnapshot_of_slot slot s),
      congrArg Host.Outcome.next (getNoiseSnapshot_of_slot slot f s)⟩

/-- Settles O34, by the index: above 7, or one of the slots. -/
theorem normalizedSnapshot : Obligations.NormalizedSnapshot := by
  refine ⟨fun above f k dw s => issued_of_ifClear (decodeWords_getNoiseSnapshotNormalized above f k dw) s, fun idx f s =>
    ⟨fun outside => ?_, fun k slot => ?_⟩⟩
  · exact congrArg Host.Outcome.next (getNoiseSnapshotNormalized_of_outside outside Config.params f s)
  · exact congrArg Host.Outcome.next (getNoiseSnapshotNormalized_of_slot slot Config.params f s)

/-- `ApplyRate` arms its ramp over `T_RATE`, or jumps while no note is held (R233). -/
theorem applyRate_eq (x : F64) (s : State) :
    applyRate x s = { s with
      par := { s.par with P_RATE := x }
      RMP_RATE := rampActivate (if s.NS = [] then f0 else T_RATE) s.RMP_RATE.cur x } := by
  unfold applyRate
  cases s.NS <;> rfl

/-- The blend of a field between the two slots of a dial position (R249). -/
theorem dialBlend_eq {c : F64} {i j : Fin 8} (lower : i.val = dialLower c) (upper : j.val = dialUpper c) (s : State)
    (f : SnapField) : dialBlend s c f = blend (snapField f s.SNAP[i]) (snapField f s.SNAP[j]) (dialWeight c) := by
  rw [dialBlend, snapSlot_eq lower, snapSlot_eq upper]

/-- SET_NOISE_SNAPSHOT with a finite operand writes the dial position and applies the four fields, all blended from the slots
of the state before it (R249, R252). -/
theorem setNoiseSnapshot_of_finite {v : F64} (finite : isFinite v = true) (s : State) :
    setNoiseSnapshot v s =
      answered 0#64
        (applied (dialBlend s (dialPosition v) .shape) applyShape
          (applied (dialBlend s (dialPosition v) .range) applyRange
            (applied (dialBlend s (dialPosition v) .rate) applyRate
              (applied (dialBlend s (dialPosition v) .mod) applyMod
                { s with par := { s.par with P_SNAPSHOT := dialPosition v } })))) :=
  withFinite_of_finite finite _ s _

/-- Settles O35, by the check of the operand and then the blend of each field between the two slots. -/
theorem setNoiseSnapshotEffect : Obligations.SetNoiseSnapshotEffect := by
  refine ⟨plainWords_of_row rfl fun _ => rfl, fun v s =>
    ⟨fun notFinite => congrArg Host.Outcome.next (withFinite_of_not_finite notFinite _ s _), fun finite => ?_⟩⟩
  intro c t blend i j lower upper
  have upperSlot : j.val = dialUpper c := upper.trans (congrArg (fun n => min (n + 1) 7) lower)
  have blended := dialBlend_eq (c := dialPosition v) lower upperSlot s
  refine congrArg Host.Outcome.next ?_
  rw [setNoiseSnapshot_of_finite finite, blended, blended, blended, blended, funext₂ applyRate_eq]
  rfl

end Sys2Proof.Proofs

/-! Decoding and encoding (R86 to R97): every command's own words are its row of the opcode map, and a row is left by no
other words. -/

namespace Sys2Proof.Proofs

open Sys2Proof.Machine Sys2Proof.Claim Sys2Proof.Laws

/-- The row of PROCESS_BLOCK in the opcode map (R91, R96). -/
theorem decodeWords_processBlock (n : BitVec 20) (c : BitVec 4) (dw : Word) :
    decodeWords (0x02#8 ++ n ++ c : BitVec 32) dw = .ok (.processBlock n c) := by
  simp only [decodeWords, opOf_append_index, extractLsb'_append_above, extractLsb'_append_index, BitVec.toNat_ofNat,
    Nat.reducePow, Nat.reduceMod]

/-- A field is read back from its code (R256). -/
theorem snapField_ofCode_code (f : SnapField) : SnapField.ofCode f.code = f := by
  cases f <;> rfl

/-- A code is read back from its field (R256). -/
theorem snapField_code_ofCode (c : BitVec 2) : (SnapField.ofCode c).code = c := by
  revert c
  decide

/-- The words of a command decode to it (R96). -/
theorem decodeWords_commandWord (i : Instr) : decodeWords i.commandWord (i.dataWord.getD 0#64) = .ok i := by
  cases i with
  | reset blockSize sampleRate => exact decodeWords_reset blockSize sampleRate
  | processBlock n c => exact decodeWords_processBlock n c _
  | midiMsg status d1 d2 offset => exact decodeWords_midiMsg status d1 d2 offset
  | wtBegin channels frames => exact decodeWords_wtBegin 0#20 channels frames
  | updateNoiseSnapshot idx => exact decodeWords_updateNoiseSnapshot 0#20 idx _
  | getNoiseSnapshot field idx =>
    rw [Instr.commandWord, decodeWords_getNoiseSnapshot, snapField_ofCode_code]
    rfl
  | getNoiseSnapshotNormalized field idx =>
    rw [Instr.commandWord, decodeWords_getNoiseSnapshotNormalized, snapField_ofCode_code]
    rfl
  | _ =>
    rw [Instr.commandWord]
    rfl

/-- The opcode of a command says whether it has a data word (R97). -/
theorem dataWord_isSome (i : Instr) : i.dataWord.isSome = opHasData (opOf i.commandWord) := by
  cases i with
  | reset blockSize sampleRate => exact (EncodedLength.reset blockSize sampleRate).2
  | processBlock n c => exact (EncodedLength.processBlock n c).2
  | midiMsg status d1 d2 offset => exact (EncodedLength.midiMsg status d1 d2 offset).2
  | wtBegin channels frames => exact (EncodedLength.wtBegin channels frames).2
  | updateNoiseSnapshot idx => exact (EncodedLength.updateNoiseSnapshot idx).2
  | getNoiseSnapshot field idx => exact (EncodedLength.getNoiseSnapshot field idx).2
  | getNoiseSnapshotNormalized field idx => exact (EncodedLength.getNoiseSnapshotNormalized field idx).2
  | _ =>
    rw [Instr.commandWord]
    rfl

/-- The bytes of a command are decoded as its two words, or as its command word alone (R97). -/
theorem decode_encode (i : Instr) (rest : List Byte) :
    decode (encode i ++ rest) = decodeWhole i.commandWord (i.dataWord.getD 0#64) rest := by
  have hasData := dataWord_isSome i
  unfold encode
  rw [List.append_assoc]
  cases data : i.dataWord with
  | none => exact decode_bytes_of_no_data (hasData.symm.trans (by rw [data]; rfl)) rest
  | some dw => exact decode_bytes_of_data (hasData.symm.trans (by rw [data]; rfl)) dw rest

/-- Settles O2: the length is read from the opcode, and the words decode to their command. -/
theorem decodeEncodeAgree : Obligations.DecodeEncodeAgree := by
  intro i rest
  rw [decode_encode, decodeWhole, decodeWords_commandWord]

/-- A command word is its opcode above its `IMM` (R87). -/
theorem commandWord_of_fields {cw : CmdWord} {op : BitVec 8} {imm : BitVec 24} (opcode : opOf cw = op)
    (operand : immOf cw = imm) : (op ++ imm : BitVec 32) = cw := by
  rw [← opcode, ← operand, opOf, immOf, BitVec.extractLsb'_append_extractLsb'_eq_extractLsb' (by decide)]
  exact BitVec.extractLsb'_eq_self

/-- The opcode by its number. -/
theorem opOf_eq {cw : CmdWord} {op : BitVec 8} (number : (opOf cw).toNat = op.toNat) : opOf cw = op :=
  BitVec.eq_of_toNat_eq number

/-- A command word is its opcode, the 20 bits below it and the lowest 4 (R91, R94, R95). -/
theorem commandWord_of_index_fields {cw : CmdWord} {op : BitVec 8} (opcode : opOf cw = op) :
    (op ++ cw.extractLsb' 4 20 ++ cw.extractLsb' 0 4 : BitVec 32) = cw := by
  rw [← opcode, opOf]
  iterate 2 rw [BitVec.extractLsb'_append_extractLsb'_eq_extractLsb' (by decide)]
  exact BitVec.extractLsb'_eq_self

/-- A command word is its opcode and the three bytes below it (R92). -/
theorem commandWord_of_byte_fields {cw : CmdWord} {op : BitVec 8} (opcode : opOf cw = op) :
    (op ++ cw.extractLsb' 16 8 ++ cw.extractLsb' 8 8 ++ cw.extractLsb' 0 8 : BitVec 32) = cw := by
  rw [← opcode, opOf]
  iterate 3 rw [BitVec.extractLsb'_append_extractLsb'_eq_extractLsb' (by decide)]
  exact BitVec.extractLsb'_eq_self

/-- A command word is its opcode, the 18 bits below it, its field code and its slot index (R95). -/
theorem commandWord_of_slot_fields {cw : CmdWord} {op : BitVec 8} (opcode : opOf cw = op) :
    (op ++ cw.extractLsb' 6 18 ++ cw.extractLsb' 4 2 ++ cw.extractLsb' 0 4 : BitVec 32) = cw := by
  rw [← opcode, opOf]
  iterate 3 rw [BitVec.extractLsb'_append_extractLsb'_eq_extractLsb' (by decide)]
  exact BitVec.extractLsb'_eq_self

/-- A check of reserved bits passes exactly its own command, where the bits are 0 (R99). -/
theorem ifClear_eq_ok {w : Nat} {reserved : BitVec w} {i j : Instr} (passed : ifClear reserved i = .ok j) :
    reserved = 0#w ∧ i = j := by
  unfold ifClear at passed
  split_ifs at passed with clear
  exact ⟨clear, Except.ok.inj passed⟩

/-- Settles O3, by the row of the opcode map that the word stands in: its format's fields make up the whole word. -/
theorem encodeUnique : Obligations.EncodeUnique := by
  intro cw dw i decoded
  unfold decodeWords at decoded
  split at decoded
  case h_30 => exact nomatch decoded
  all_goals
    rename_i number
  case h_2 =>
    cases decoded
    exact ⟨commandWord_of_fields (opOf_eq number) rfl, fun d data => (Option.some.inj data).symm⟩
  case h_3 =>
    cases decoded
    exact ⟨commandWord_of_index_fields (opOf_eq number), fun d data => nomatch data⟩
  case h_4 =>
    cases decoded
    exact ⟨commandWord_of_byte_fields (opOf_eq number), fun d data => (Option.some.inj data).symm⟩
  all_goals
    obtain ⟨clear, rfl⟩ := ifClear_eq_ok decoded
  case h_17 | h_27 =>
    refine ⟨?_, by simp [Instr.dataWord]⟩
    rw [Instr.commandWord, ← clear]
    exact commandWord_of_index_fields (opOf_eq number)
  case h_28 | h_29 =>
    refine ⟨?_, by simp [Instr.dataWord]⟩
    rw [Instr.commandWord, ← clear, snapField_code_ofCode]
    exact commandWord_of_slot_fields (opOf_eq number)
  all_goals exact ⟨commandWord_of_fields (opOf_eq number) clear, by simp [Instr.dataWord]⟩

end Sys2Proof.Proofs

/-! Which event a step takes (R74): the port whose turn it is, with the merge's choice counted where both ports have one. -/

namespace Sys2Proof.Proofs

open Sys2Proof.Machine Sys2Proof.Claim

/-- Raising a fault again, whatever the command word, changes nothing (R262). -/
theorem raiseFault_again (cw cw' : CmdWord) (code : FaultCode) (s : State) :
    raiseFault cw' code (raiseFault cw code s) = raiseFault cw code s := by
  have sameBit : s.FAULTS ||| faultBit code ||| faultBit code = s.FAULTS ||| faultBit code := by
    rw [BitVec.or_assoc, BitVec.or_self]
  rw [raiseFault, if_neg (raiseFault_FAULTS_ne_zero cw code s), raiseFault_FAULTS, sameBit]
  rfl

/-- Raising any further fault keeps the first one (R262). -/
theorem raiseFault_keeps_first {s : State} (recordedBefore : s.FAULTS ≠ 0#16) (cw : CmdWord) (code : FaultCode) :
    (raiseFault cw code s).FAULT_INFO = s.FAULT_INFO :=
  if_neg recordedBefore

/-- Settles O6: the record by the number of its code, and the first fault kept by any later one. -/
theorem faultRecord : Obligations.FaultRecord :=
  ⟨fun _ _ => ⟨rfl, rfl, rfl, rfl, rfl, rfl, rfl, rfl⟩, raiseFault_again,
    fun cw cw' _ code' s => raiseFault_keeps_first (raiseFault_FAULTS_ne_zero cw _ s) cw' code'⟩

/-- Settles O17, by the outcome of each check before the start event. -/
theorem processBlockStart : Obligations.ProcessBlockStart := by
  refine ⟨fun n c dw s => issued_of_ok (decodeWords_processBlock n c dw) s, fun n c s => congrArg Host.Outcome.next ?_⟩
  rw [processBlock]
  split_ifs with onControl notReady
  · exact onAudio_eq_refused onControl _ _
  · rw [onAudio_of_ne_control onControl]
    exact whenReady_eq_refused notReady _ _
  · rw [onAudio_of_ne_control onControl, whenReady_of_ready notReady]
    rfl

/-- A stream that decodes to a command holds one. -/
theorem hasCommand_of_command {stream rest : List Byte} {i : Instr} (decoded : decode stream = .command i rest) :
    hasCommand stream = true := by
  rw [hasCommand, decoded]

/-- So does one that decodes to an illegal word, which is consumed like a command (R97). -/
theorem hasCommand_of_illegal {stream rest : List Byte} {why : Illegal} {cw : CmdWord}
    (decoded : decode stream = .illegal why cw rest) : hasCommand stream = true := by
  rw [hasCommand, decoded]

section Turn

variable {P : Params} {s : State}

/-- The AUDIO port's event comes next where CONTROL has none or the merge says so (R74). -/
theorem nextPort_eq_audio (event : audioHasEvent s = true)
    (turn : controlHasEvent s = false ∨ P.merge s.MERGES = .audio) : nextPort P s = some .audio := by
  rw [nextPort, if_pos event]
  split_ifs with both
  · rw [turn.resolve_left (Bool.eq_false_iff.not_left.mpr both)]
  · rfl

/-- The CONTROL port's event comes next where AUDIO has none or the merge says so (R74). -/
theorem nextPort_eq_control (event : controlHasEvent s = true)
    (turn : audioHasEvent s = false ∨ P.merge s.MERGES = .control) : nextPort P s = some .control := by
  rw [nextPort, if_pos event, if_pos event]
  split_ifs with both
  · rw [turn.resolve_left (Bool.eq_false_iff.not_left.mpr both)]
  · rfl

/-- With no event on either port, no port's event comes next (R210). -/
theorem nextPort_eq_none (noAudio : audioHasEvent s = false) (noControl : controlHasEvent s = false) :
    nextPort P s = none := by
  rw [nextPort, noAudio, noControl]
  rfl

end Turn

/-- Counting the merge's choice changes its counter alone. -/
theorem countMerge_eq (s : State) : countMerge s =
    { s with MERGES := if audioHasEvent s && controlHasEvent s then s.MERGES + 1 else s.MERGES } := by
  unfold countMerge
  split_ifs <;> rfl

/-- The merge's choice is counted while AUDIO has an event, exactly where CONTROL has one too. -/
theorem countMerge_of_audio {s : State} (event : audioHasEvent s = true) : countMerge s =
    { s with MERGES := if hasCommand s.CONTROL_IN then s.MERGES + 1 else s.MERGES } := by
  rw [countMerge_eq, event, Bool.true_and]
  rfl

/-- The merge's choice is counted while CONTROL has an event, exactly where AUDIO has one too. -/
theorem countMerge_of_control {s : State} (event : controlHasEvent s = true) : countMerge s =
    { s with MERGES := if s.blk.BLK_ACTIVE || hasCommand s.AUDIO_IN then s.MERGES + 1 else s.MERGES } := by
  rw [countMerge_eq, event, Bool.and_true]
  rfl

section Step

variable {s : State}

/-- A step takes the AUDIO port's command where its turn comes and no block runs (R74). -/
theorem step_of_audio_command (turn : nextPort Config.params s = some .audio) (idle : s.blk.BLK_ACTIVE = false) :
    step s = commandEvent .audio (countMerge s) := by
  rw [step, event, turn]
  exact if_neg (Bool.eq_false_iff.mp idle)

/-- A step takes the running block's event where the AUDIO port's turn comes (R74). -/
theorem step_of_block (turn : nextPort Config.params s = some .audio) (active : s.blk.BLK_ACTIVE = true) :
    step s = blockEvent Config.params (countMerge s) := by
  rw [step, event, turn]
  exact if_pos active

/-- A step takes the CONTROL port's command where its turn comes, a block running or not (R74, R194). -/
theorem step_of_control_command (turn : nextPort Config.params s = some .control) :
    step s = commandEvent .control (countMerge s) := by
  rw [step, event, turn]

/-- Settles O11: no port has an event. -/
theorem idleChangesNothing : Obligations.IdleChangesNothing := by
  intro s idle noAudio noControl
  have noEvent : audioHasEvent s = false := by rw [audioHasEvent, idle, noAudio, Bool.or_false]
  rw [step, event, nextPort_eq_none noEvent noControl]

end Step

section Command

variable {port : Port} {s : State} {rest : List Byte}

/-- The outcome of a command with its response delivered as R208 says. -/
def finishOutcome (port : Port) (o : Host.Outcome State Fault Refusal) : Host.Outcome State Fault Refusal :=
  match o with
  | .next t => .next (finishCommand port t)
  | .fault f => .fault f
  | .refused r => .refused r

/-- The event of a command is its meaning, the command taken from the stream (R74). -/
theorem commandEvent_of_command {i : Instr} (decoded : decode (portStream port s) = .command i rest) :
    commandEvent port s = finishOutcome port (exec i (takeCommand port rest s)) := by
  rw [commandEvent, decoded]
  rfl

/-- The event of an illegal word is its refusal, the word taken from the stream (R98, R99). -/
theorem commandEvent_of_illegal {why : Illegal} {cw : CmdWord} (decoded : decode (portStream port s) = .illegal why cw rest) :
    commandEvent port s = .next (finishCommand port (refused cw 1 (takeCommand port rest s))) := by
  rw [commandEvent, decoded]
  exact congrArg (fun t => Host.Outcome.next (finishCommand port t)) (refuse_eq_refused cw .illegalOp _)

end Command

/-- Settles O8: AUDIO has an event, so the turn is its own and its command is the one executed. -/
theorem stepRunsAudioCommand : Obligations.StepRunsAudioCommand := by
  intro s rest idle turn taken
  have stepIs (waiting : hasCommand s.AUDIO_IN = true) : step s = commandEvent .audio (countMerge s) ∧
      takeCommand .audio rest (countMerge s) = taken := by
    have event : audioHasEvent s = true := by rw [audioHasEvent, waiting, Bool.or_true]
    refine ⟨step_of_audio_command (nextPort_eq_audio event turn) idle, ?_⟩
    rw [countMerge_of_audio event]
    rfl
  have stream : portStream .audio (countMerge s) = s.AUDIO_IN := by rw [countMerge_eq]; rfl
  constructor
  · intro i decoded
    obtain ⟨stepped, takenIs⟩ := stepIs (hasCommand_of_command decoded)
    rw [stepped, commandEvent_of_command (stream ▸ decoded), takenIs]
    cases exec i taken with
    | next t =>
      refine congrArg Host.Outcome.next ?_
      by_cases active : t.blk.BLK_ACTIVE = true
      · rw [if_pos active]
        exact if_pos ⟨rfl, active⟩
      · rw [if_neg active]
        exact if_neg fun started => active started.2
    | fault f => rfl
    | refused r => rfl
  · intro why cw decoded
    obtain ⟨stepped, takenIs⟩ := stepIs (hasCommand_of_illegal decoded)
    rw [stepped, commandEvent_of_illegal (stream ▸ decoded), takenIs]
    refine congrArg Host.Outcome.next (if_neg fun started => ?_)
    exact Bool.eq_false_iff.mp idle started.2

/-- Settles O9: CONTROL has an event, and its turn does not wait for a running block. -/
theorem stepRunsControlCommand : Obligations.StepRunsControlCommand := by
  intro s rest turn taken
  have stepIs (waiting : hasCommand s.CONTROL_IN = true) : step s = commandEvent .control (countMerge s) ∧
      takeCommand .control rest (countMerge s) = taken := by
    have noAudio : audioHasEvent s = false ∨ Config.params.merge s.MERGES = .control :=
      turn.imp_left fun ⟨idle, quiet⟩ => by rw [audioHasEvent, idle, quiet, Bool.or_false]
    refine ⟨step_of_control_command (nextPort_eq_control waiting noAudio), ?_⟩
    rw [countMerge_of_control waiting]
    rfl
  have stream : portStream .control (countMerge s) = s.CONTROL_IN := by rw [countMerge_eq]; rfl
  constructor
  · intro i decoded
    obtain ⟨stepped, takenIs⟩ := stepIs (hasCommand_of_command decoded)
    rw [stepped, commandEvent_of_command (stream ▸ decoded), takenIs]
    cases exec i taken <;> rfl
  · intro why cw decoded
    obtain ⟨stepped, takenIs⟩ := stepIs (hasCommand_of_illegal decoded)
    rw [stepped, commandEvent_of_illegal (stream ▸ decoded), takenIs]
    rfl

/-- A block of some frames is one of at least one frame (R179). -/
theorem one_le_frames_iff (n : BitVec 20) : 1 ≤ n.toNat ↔ n ≠ 0#20 := by
  rw [Nat.one_le_iff_ne_zero, Ne, Ne, ← BitVec.toNat_inj]
  rfl

/-- The end event of a block (R193), field by field. -/
theorem blockEnd_eq (s : State) : blockEnd s =
    { s with
      SHAPER_MAP := if s.blk.BLK_N = 0#20 then s.SHAPER_MAP else s.SHP_LAST_L
      MQ := s.MQ.map fun ev => { ev with offset := ev.offset - s.blk.BLK_N.setWidth 64 }
      blk := { s.blk with BLK_ACTIVE := false }
      RESP := 0#64 } := by
  have shown : (if 1 ≤ s.blk.BLK_N.toNat then s.SHP_LAST_L else s.SHAPER_MAP) =
      if s.blk.BLK_N = 0#20 then s.SHAPER_MAP else s.SHP_LAST_L := by
    simp only [one_le_frames_iff, ite_not]
  rw [blockEnd, shown]
  rfl

/-- Settles O10: the running block has an event, so the turn is AUDIO's, and `BLK_S` says which event it is. -/
theorem stepRunsBlock : Obligations.StepRunsBlock := by
  intro s active turn s'
  have event : audioHasEvent s = true := by rw [audioHasEvent, active, Bool.true_or]
  have stepped : step s = blockEvent Config.params s' := by
    rw [step_of_block (nextPort_eq_audio event turn) active, countMerge_of_audio event]
  constructor
  · intro inside t answered
    rw [stepped]
    refine (if_pos inside).trans (ofExcept_next.mpr ?_)
    exact sampleEvent_ok.mpr ⟨t, answered, rfl⟩
  · intro ended
    rw [stepped]
    refine (if_neg (Nat.not_lt.mpr ended)).trans (congrArg Host.Outcome.next ?_)
    rw [blockEnd_eq]
    rfl

end Sys2Proof.Proofs

/-! The rounded result of an operation, by the exact ratio it is rounded from (R7, R12): its order key is a rising function of
the ratio, so bounds on the exact value that are binary64 values are bounds on the result. -/

namespace Sys2Proof.Proofs

open Sys2Proof.Machine

/-- The order key of the ratio z / q of units, rounded to nearest. -/
def roundKey (z : Int) (q : Nat) : Int := if z < 0 then -(roundMag z.natAbs q : Int) else roundMag z.natAbs q

theorem roundMag_zero (q : Nat) : roundMag 0 q = 0 := by simp [roundMag, nearestEven]

/-- A signed magnitude is rounded under its sign. -/
theorem roundKey_signed (negative : Bool) (n q : Nat) :
    roundKey (if negative then -(n : Int) else n) q = if negative then -(roundMag n q : Int) else roundMag n q := by
  cases negative with
  | false => simp [roundKey]
  | true =>
    rcases Nat.eq_zero_or_pos n with rfl | positive
    · simp [roundKey, roundMag_zero]
    · have below : -(n : Int) < 0 := by omega
      simp only [roundKey, if_true, below, Int.natAbs_neg, Int.natAbs_natCast]

/-- Rounding keeps the order. -/
theorem roundKey_mono {z z' : Int} {q : Nat} (pos : 0 < q) (le : z ≤ z') : roundKey z q ≤ roundKey z' q := by
  unfold roundKey
  split_ifs
  · have := roundMag_mono pos (by omega : z'.natAbs ≤ z.natAbs)
    omega
  · omega
  · omega
  · have := roundMag_mono pos (by omega : z.natAbs ≤ z'.natAbs)
    omega

/-- A finite value is its own rounding. -/
theorem roundKey_units {x : F64} (finite : isFinite x = true) {q : Nat} (pos : 0 < q) :
    roundKey (units x * q) q = orderKey x := by
  have signed : units x * q = if x.msb then -((magUnits (magBits x) * q : Nat) : Int) else (magUnits (magBits x) * q : Nat) := by
    unfold units
    split_ifs <;> push_cast <;> ring
  rw [signed, roundKey_signed, roundMag_magUnits pos (of_decide_eq_true finite)]
  rfl

/-- The value is no NaN and is the rounding of the ratio z / q. -/
structure RoundsTo (r : F64) (z : Int) (q : Nat) : Prop where
  notNaN : isNaN r = false
  key : orderKey r = roundKey z q

section Rounded

variable {r r' x lo hi : F64} {z z' : Int} {q : Nat}

/-- Of two ratios over one divisor the larger has no smaller rounding. -/
theorem RoundsTo.mono (h : RoundsTo r z q) (h' : RoundsTo r' z' q) (pos : 0 < q) (le : z ≤ z') : fle r r' = true :=
  fle_iff.mpr ⟨h.notNaN, h'.notNaN, by rw [h.key, h'.key]; exact roundKey_mono pos le⟩

/-- A finite value at most the exact one is at most its rounding. -/
theorem RoundsTo.lower (h : RoundsTo r z q) (pos : 0 < q) (finite : isFinite x = true) (le : units x * q ≤ z) :
    fle x r = true :=
  fle_iff.mpr ⟨isNaN_of_isFinite finite, h.notNaN, by
    rw [h.key, ← roundKey_units finite pos]
    exact roundKey_mono pos le⟩

/-- A finite value at least the exact one is at least its rounding. -/
theorem RoundsTo.upper (h : RoundsTo r z q) (pos : 0 < q) (finite : isFinite x = true) (le : z ≤ units x * q) :
    fle r x = true :=
  fle_iff.mpr ⟨h.notNaN, isNaN_of_isFinite finite, by
    rw [h.key, ← roundKey_units finite pos]
    exact roundKey_mono pos le⟩

/-- Values of one order key have one magnitude. -/
theorem magBits_eq_natAbs (x : F64) : magBits x = (orderKey x).natAbs := by
  unfold orderKey
  split_ifs <;> omega

/-- Values of one order key are the same number of units. -/
theorem units_eq_of_key_eq {a b : F64} (same : orderKey a = orderKey b) : units a = units b :=
  le_antisymm (units_mono same.le) (units_mono same.ge)

/-- Values of one order key are both finite or not. -/
theorem isFinite_of_key_eq {a b : F64} (finite : isFinite b = true) (same : orderKey a = orderKey b) :
    isFinite a = true := by
  unfold isFinite at finite ⊢
  rwa [magBits_eq_natAbs, same, ← magBits_eq_natAbs]

/-- A value between two finite ones is finite. -/
theorem isFinite_of_between (loFinite : isFinite lo = true) (hiFinite : isFinite hi = true) (above : fle lo x = true)
    (below : fle x hi = true) : isFinite x = true := by
  have loMag : magBits lo < infMag := of_decide_eq_true loFinite
  have hiMag : magBits hi < infMag := of_decide_eq_true hiFinite
  obtain ⟨-, -, lower⟩ := fle_iff.mp above
  obtain ⟨-, -, upper⟩ := fle_iff.mp below
  refine decide_eq_true ?_
  rw [magBits_eq_natAbs] at loMag hiMag ⊢
  omega

/-- An exact value that is a binary64 value is not rounded. -/
theorem RoundsTo.exact (h : RoundsTo r z q) (pos : 0 < q) (finite : isFinite x = true) (exactly : z = units x * q) :
    isFinite r = true ∧ units r = units x := by
  have same : orderKey r = orderKey x := by rw [h.key, exactly, roundKey_units finite pos]
  exact ⟨isFinite_of_key_eq finite same, units_eq_of_key_eq same⟩

end Rounded

section Order

variable {a b : F64} (aFinite : isFinite a = true) (bFinite : isFinite b = true)
include aFinite bFinite

/-- The order of finite values is the order of their units. -/
theorem fle_iff_units : fle a b = true ↔ units a ≤ units b := by
  constructor
  · intro le
    obtain ⟨-, -, keys⟩ := fle_iff.mp le
    exact units_mono keys
  · intro le
    refine fle_iff.mpr ⟨isNaN_of_isFinite aFinite, isNaN_of_isFinite bFinite, ?_⟩
    rw [← roundKey_units aFinite Nat.one_pos, ← roundKey_units bFinite Nat.one_pos]
    exact roundKey_mono Nat.one_pos (by omega)

/-- The strict order of finite values is that of their units. -/
theorem flt_iff_units : flt a b = true ↔ units a < units b := by
  have le := fle_iff_units bFinite aFinite
  rw [fle_iff] at le
  rw [flt_iff]
  have := isNaN_of_isFinite aFinite
  have := isNaN_of_isFinite bFinite
  simp_all only [true_and, ← not_le]

/-- A sum is the exact sum, rounded (R12). -/
theorem fadd_rounds : RoundsTo (fadd a b) (units a + units b) 1 := by
  rw [fadd_finite aFinite bFinite]
  exact ⟨isNaN_roundUnits _ _, orderKey_roundUnits _ _⟩

/-- A product is the exact product, rounded (R12). -/
theorem fmul_rounds : RoundsTo (fmul a b) (units a * units b) unitScale := by
  have packed : fmul a b =
      packMag (a.msb != b.msb) (roundMag (magUnits (magBits a) * magUnits (magBits b)) unitScale) := by
    simp only [fmul, aFinite, bFinite, Bool.and_self, if_true]
  have signed : units a * units b =
      if a.msb != b.msb then -((magUnits (magBits a) * magUnits (magBits b) : Nat) : Int)
      else (magUnits (magBits a) * magUnits (magBits b) : Nat) := by
    unfold units
    cases a.msb <;> cases b.msb <;> simp
  rw [packed, signed]
  exact ⟨isNaN_packMag (roundMag_le _ _), by rw [orderKey_packMag (roundMag_le _ _), roundKey_signed]⟩

/-- A quotient by a value above zero is the exact quotient, rounded (R12). -/
theorem fdiv_rounds (positive : 0 < units b) : RoundsTo (fdiv a b) (units a * unitScale) (units b).toNat := by
  have sign : b.msb = false := by
    by_contra negative
    rw [units, if_pos (Bool.eq_true_of_not_eq_false negative)] at positive
    omega
  have bUnits : units b = magUnits (magBits b) := by rw [units, sign]; rfl
  have nonzero : magBits b ≠ 0 := fun zero => by simp [bUnits, zero, magUnits] at positive
  have signed : units a * unitScale =
      if a.msb then -((magUnits (magBits a) * unitScale : Nat) : Int) else (magUnits (magBits a) * unitScale : Nat) := by
    unfold units
    split_ifs <;> push_cast <;> ring
  rw [fdiv_finite aFinite bFinite sign nonzero, signed, bUnits, Int.toNat_natCast]
  exact ⟨isNaN_packMag (roundMag_le _ _), by rw [orderKey_packMag (roundMag_le _ _), roundKey_signed]⟩

end Order

theorem unitScale_pos : 0 < unitScale := by unfold unitScale; positivity

theorem units_f0 : units f0 = 0 := by decide +kernel

theorem units_f1 : units f1 = unitScale := by decide +kernel

theorem isFinite_f0 : isFinite f0 = true := by decide

theorem isFinite_f1 : isFinite f1 = true := by decide

/-- The value with its sign flipped is the opposite number of units, and finite with it. -/
theorem fneg_finite {x : F64} (finite : isFinite x = true) : isFinite (fneg x) = true ∧ units (fneg x) = -units x := by
  unfold fneg isFinite units
  rw [magBits_packMag (magBits_lt x), msb_packMag (magBits_lt x)]
  refine ⟨finite, ?_⟩
  cases x.msb <;> simp

/-- A difference is the exact difference, rounded (R12). -/
theorem fsub_rounds {a b : F64} (aFinite : isFinite a = true) (bFinite : isFinite b = true) :
    RoundsTo (fsub a b) (units a - units b) 1 := by
  obtain ⟨negFinite, negUnits⟩ := fneg_finite bFinite
  have rounds := fadd_rounds aFinite negFinite
  rwa [negUnits] at rounds

/-- The values in [0, 1] are those finite ones of 0 to `unitScale` units. -/
theorem inUnit_iff {x : F64} : InUnit x ↔ isFinite x = true ∧ 0 ≤ units x ∧ units x ≤ unitScale := by
  constructor
  · rintro ⟨lower, upper⟩
    have finite := isFinite_of_between isFinite_f0 isFinite_f1 lower upper
    refine ⟨finite, ?_, ?_⟩
    · simpa only [units_f0] using (fle_iff_units isFinite_f0 finite).mp lower
    · simpa only [units_f1] using (fle_iff_units finite isFinite_f1).mp upper
  · rintro ⟨finite, lower, upper⟩
    exact ⟨(fle_iff_units isFinite_f0 finite).mpr (units_f0 ▸ lower),
      (fle_iff_units finite isFinite_f1).mpr (units_f1 ▸ upper)⟩

/-- A rounding of an exact value between two finite values is finite and between them. -/
theorem RoundsTo.between {r lo hi : F64} {z : Int} {q : Nat} (h : RoundsTo r z q) (pos : 0 < q) (loFinite : isFinite lo = true)
    (hiFinite : isFinite hi = true) (above : units lo * q ≤ z) (below : z ≤ units hi * q) :
    isFinite r = true ∧ units lo ≤ units r ∧ units r ≤ units hi := by
  have lower := h.lower pos loFinite above
  have upper := h.upper pos hiFinite below
  have finite := isFinite_of_between loFinite hiFinite lower upper
  exact ⟨finite, (fle_iff_units loFinite finite).mp lower, (fle_iff_units finite hiFinite).mp upper⟩

/-- A rounding of an exact value in [0, 1] is in [0, 1]. -/
theorem RoundsTo.inUnit {r : F64} {z : Int} {q : Nat} (h : RoundsTo r z q) (pos : 0 < q) (above : 0 ≤ z)
    (below : z ≤ unitScale * q) : InUnit r := by
  obtain ⟨finite, lower, upper⟩ :=
    h.between pos isFinite_f0 isFinite_f1 (by rwa [units_f0, zero_mul]) (by rwa [units_f1])
  exact inUnit_iff.mpr ⟨finite, units_f0 ▸ lower, units_f1 ▸ upper⟩

end Sys2Proof.Proofs

/-! Ramps inside and past their stage (R113, R119), and the envelope's bounds (R134): a tick's fraction of its stage is in
[0, 1], and an interpolation by it stays between its ends. -/

namespace Sys2Proof.Proofs

open Sys2Proof.Machine

theorem fle_refl {a : F64} (notNaN : isNaN a = false) : fle a a = true :=
  fle_iff.mpr ⟨notNaN, notNaN, le_refl _⟩

/-- A value that is no NaN does not fall by adding a finite value not below zero. -/
theorem fle_fadd {a d : F64} (notNaN : isNaN a = false) (dFinite : isFinite d = true) (nonneg : 0 ≤ units d) :
    fle a (fadd a d) = true := by
  rcases finite_or_inf notNaN with finite | infinite
  · exact (fadd_rounds finite dFinite).lower Nat.one_pos finite (by omega)
  · rw [fadd_inf infinite dFinite]
    exact fle_refl notNaN

/-- A value above zero that is finite is a number of units above zero. -/
theorem units_pos {d : F64} (finite : isFinite d = true) (positive : flt f0 d = true) : 0 < units d := by
  simpa only [units_f0] using (flt_iff_units isFinite_f0 finite).mp positive

/-- A value not below zero that is finite is a number of units not below zero. -/
theorem units_nonneg {d : F64} (finite : isFinite d = true) (nonneg : fle f0 d = true) : 0 ≤ units d := by
  simpa only [units_f0] using (fle_iff_units isFinite_f0 finite).mp nonneg

/-- The elapsed time has reached the duration (R113). -/
def RampEnded (r : Ramp) : Prop := fle r.dur r.elapsed = true

section Settle

variable {r : Ramp} {dt : F64} (ended : RampEnded r) (dtFinite : isFinite dt = true) (dtPos : flt f0 dt = true)
include ended dtFinite dtPos

/-- A ramp past its duration is past it after a tick. -/
theorem fle_dur_tick : fle r.dur (fadd r.elapsed dt) = true := by
  obtain ⟨-, notNaN, -⟩ := fle_iff.mp ended
  exact fle_trans ended (fle_fadd notNaN dtFinite (units_pos dtFinite dtPos).le)

/-- A tick of a ramp past its duration sets the end value and leaves it past its duration (R113). -/
theorem rampTick_of_rampEnded :
    RampEnded (rampTick dt r) ∧ (rampTick dt r).endVal = r.endVal ∧ (rampTick dt r).cur = r.endVal := by
  have past := fle_dur_tick ended dtFinite dtPos
  rw [rampTick_of_ended past]
  exact ⟨past, rfl, rfl⟩

/-- Any number of ticks leaves it past its duration, with its end value. -/
theorem iterate_rampTick_of_rampEnded (k : Nat) :
    RampEnded ((rampTick dt)^[k] r) ∧ ((rampTick dt)^[k] r).endVal = r.endVal := by
  induction k with
  | zero => exact ⟨ended, rfl⟩
  | succ k ih =>
    obtain ⟨stillEnded, sameEnd⟩ := ih
    obtain ⟨next, nextEnd, -⟩ := rampTick_of_rampEnded stillEnded dtFinite dtPos
    rw [Function.iterate_succ_apply']
    exact ⟨next, nextEnd.trans sameEnd⟩

end Settle

/-- Settles O39: by induction on the ticks the ramp is past its duration, where a tick is exact and raises nothing. -/
theorem rampSettles : Obligations.RampSettles := by
  intro r dt k ended dtFinite dtPos
  obtain ⟨stillEnded, sameEnd⟩ := iterate_rampTick_of_rampEnded ended dtFinite dtPos k
  obtain ⟨-, -, cur⟩ := rampTick_of_rampEnded stillEnded dtFinite dtPos
  refine ⟨by rw [Function.iterate_succ_apply', cur, sameEnd], ?_⟩
  rw [Bool.eq_false_iff, Ne, rampTickFaults_iff]
  exact fun fault => fault.1 (fle_dur_tick stillEnded dtFinite dtPos)

/-- The part of a stage that has elapsed inside it is in [0, 1]. -/
theorem fdiv_inUnit {x d : F64} (xFinite : isFinite x = true) (dFinite : isFinite d = true) (nonneg : 0 ≤ units x)
    (inside : units x < units d) : InUnit (fdiv x d) := by
  have dPos : 0 < units d := by omega
  have divisor : ((units d).toNat : Int) = units d := Int.toNat_of_nonneg dPos.le
  refine (fdiv_rounds xFinite dFinite dPos).inUnit (by omega) (mul_nonneg nonneg (Int.natCast_nonneg _)) ?_
  rw [divisor, mul_comm]
  exact mul_le_mul_of_nonneg_left inside.le (Int.natCast_nonneg _)

section Product

variable {d q : F64} (dFinite : isFinite d = true) (qUnit : InUnit q)
include dFinite qUnit

/-- A part of a finite value not below zero is between zero and it. -/
theorem fmul_inUnit_of_nonneg (nonneg : 0 ≤ units d) :
    isFinite (fmul d q) = true ∧ 0 ≤ units (fmul d q) ∧ units (fmul d q) ≤ units d := by
  obtain ⟨qFinite, qNonneg, qOne⟩ := inUnit_iff.mp qUnit
  have product := (fmul_rounds dFinite qFinite).between unitScale_pos isFinite_f0 dFinite
    (by rw [units_f0, zero_mul]; exact mul_nonneg nonneg qNonneg) (mul_le_mul_of_nonneg_left qOne nonneg)
  rwa [units_f0] at product

/-- A part of a finite value not above zero is between it and zero. -/
theorem fmul_inUnit_of_nonpos (nonpos : units d ≤ 0) :
    isFinite (fmul d q) = true ∧ units d ≤ units (fmul d q) ∧ units (fmul d q) ≤ 0 := by
  obtain ⟨qFinite, qNonneg, qOne⟩ := inUnit_iff.mp qUnit
  have product := (fmul_rounds dFinite qFinite).between unitScale_pos dFinite isFinite_f0
    (mul_le_mul_of_nonpos_left qOne nonpos)
    (by rw [units_f0, zero_mul]; exact mul_nonpos_of_nonpos_of_nonneg nonpos qNonneg)
  rwa [units_f0] at product

/-- A part of a finite value is finite. -/
theorem isFinite_fmul_inUnit : isFinite (fmul d q) = true := by
  rcases le_total 0 (units d) with nonneg | nonpos
  · exact (fmul_inUnit_of_nonneg dFinite qUnit nonneg).1
  · exact (fmul_inUnit_of_nonpos dFinite qUnit nonpos).1

end Product

/-- Interpolating by a larger part moves up along a rising difference and down along a falling one. -/
theorem interpolate_mono {start d p q : F64} (startFinite : isFinite start = true) (dFinite : isFinite d = true)
    (pUnit : InUnit p) (qUnit : InUnit q) (later : units p ≤ units q) :
    (0 ≤ units d → fle (fadd start (fmul d p)) (fadd start (fmul d q)) = true) ∧
    (units d ≤ 0 → fle (fadd start (fmul d q)) (fadd start (fmul d p)) = true) := by
  obtain ⟨pFinite, -, -⟩ := inUnit_iff.mp pUnit
  obtain ⟨qFinite, -, -⟩ := inUnit_iff.mp qUnit
  have pPart := isFinite_fmul_inUnit dFinite pUnit
  have qPart := isFinite_fmul_inUnit dFinite qUnit
  have pRounds := fmul_rounds dFinite pFinite
  have qRounds := fmul_rounds dFinite qFinite
  constructor
  · intro nonneg
    have parts := pRounds.mono qRounds unitScale_pos (mul_le_mul_of_nonneg_left later nonneg)
    have := (fle_iff_units pPart qPart).mp parts
    exact (fadd_rounds startFinite pPart).mono (fadd_rounds startFinite qPart) Nat.one_pos (by omega)
  · intro nonpos
    have parts := qRounds.mono pRounds unitScale_pos (mul_le_mul_of_nonpos_left later nonpos)
    have := (fle_iff_units qPart pPart).mp parts
    exact (fadd_rounds startFinite qPart).mono (fadd_rounds startFinite pPart) Nat.one_pos (by omega)

/-- A value not at or past a duration is below it. -/
theorem flt_of_inside {x d : F64} (xNotNaN : isNaN x = false) (dFinite : isFinite d = true)
    (inside : ¬ fle d x = true) : flt x d = true :=
  (flt_or_fle xNotNaN (isNaN_of_isFinite dFinite)).resolve_right inside

/-- A value below another is not at or past it. -/
theorem not_fle_of_flt {a b : F64} (below : flt a b = true) : ¬ fle b a = true := by
  intro le
  obtain ⟨-, -, less⟩ := flt_iff.mp below
  obtain ⟨-, -, greater⟩ := fle_iff.mp le
  omega

/-- Inside a stage a later elapsed time is a larger part of it. -/
theorem fdiv_mono_of_inside {x y d : F64} (xFinite : isFinite x = true) (yFinite : isFinite y = true)
    (dFinite : isFinite d = true) (nonneg : 0 ≤ units x) (later : units x ≤ units y) (inside : units y < units d) :
    units (fdiv x d) ≤ units (fdiv y d) := by
  have dPos : 0 < units d := by omega
  obtain ⟨xPart, -, -⟩ := inUnit_iff.mp (fdiv_inUnit xFinite dFinite nonneg (by omega))
  obtain ⟨yPart, -, -⟩ := inUnit_iff.mp (fdiv_inUnit yFinite dFinite (by omega) inside)
  refine (fle_iff_units xPart yPart).mp ?_
  exact (fdiv_rounds xFinite dFinite dPos).mono (fdiv_rounds yFinite dFinite dPos) (by omega)
    (mul_le_mul_of_nonneg_right later (Int.natCast_nonneg _))

/-- The direction of a stage is that from its start to its end value. -/
theorem units_fsub {start target : F64} (startFinite : isFinite start = true) (targetFinite : isFinite target = true)
    (dFinite : isFinite (fsub target start) = true) :
    (fle start target = true → 0 ≤ units (fsub target start)) ∧
    (fle target start = true → units (fsub target start) ≤ 0) := by
  have span := fsub_rounds targetFinite startFinite
  constructor
  · intro upward
    have := (fle_iff_units startFinite targetFinite).mp upward
    exact units_nonneg dFinite (span.lower Nat.one_pos isFinite_f0 (by rw [units_f0]; omega))
  · intro downward
    have := (fle_iff_units targetFinite startFinite).mp downward
    have nonpos := span.upper Nat.one_pos isFinite_f0 (by rw [units_f0]; omega)
    simpa only [units_f0] using (fle_iff_units dFinite isFinite_f0).mp nonpos

section Inside

variable {r : Ramp} (startFinite : isFinite r.start = true) (endFinite : isFinite r.endVal = true)
  (dFinite : isFinite (fsub r.endVal r.start) = true) (durFinite : isFinite r.dur = true)
include startFinite endFinite dFinite durFinite

/-- Between two elapsed times inside a stage the value does not move away from the end value (R119). -/
theorem rampInterpolate_mono {x y : F64} (nonneg : fle f0 x = true) (later : fle x y = true)
    (inside : flt y r.dur = true) :
    (fle r.start r.endVal = true → fle (rampInterpolate r x) (rampInterpolate r y) = true) ∧
    (fle r.endVal r.start = true → fle (rampInterpolate r y) (rampInterpolate r x) = true) := by
  have below := fle_of_flt inside
  have xFinite := isFinite_of_between isFinite_f0 durFinite nonneg (fle_trans later below)
  have yFinite := isFinite_of_between isFinite_f0 durFinite (fle_trans nonneg later) below
  have xUnits := units_nonneg xFinite nonneg
  have xyUnits := (fle_iff_units xFinite yFinite).mp later
  have yUnits := (flt_iff_units yFinite durFinite).mp inside
  obtain ⟨rising, falling⟩ := interpolate_mono startFinite dFinite (fdiv_inUnit xFinite durFinite xUnits (by omega))
    (fdiv_inUnit yFinite durFinite (by omega) yUnits)
    (fdiv_mono_of_inside xFinite yFinite durFinite xUnits xyUnits yUnits)
  obtain ⟨upward, downward⟩ := units_fsub startFinite endFinite dFinite
  exact ⟨fun up => rising (upward up), fun down => falling (downward down)⟩

end Inside

/-- The second of two ticks inside a stage interpolates from the same start (R113). -/
theorem rampTick_rampTick_cur {r : Ramp} {dt : F64} (firstInside : ¬ fle r.dur (fadd r.elapsed dt) = true)
    (secondInside : ¬ fle r.dur (fadd (fadd r.elapsed dt) dt) = true) :
    (rampTick dt (rampTick dt r)).cur = rampInterpolate r (fadd (fadd r.elapsed dt) dt) := by
  rw [rampTick_of_inside firstInside]
  exact if_neg secondInside

/-- Settles O40: the two ticks' values are interpolations at two rising elapsed times inside one stage. -/
theorem rampMonotone : Obligations.RampMonotone := by
  intro r dt startFinite endFinite dFinite durFinite elapsedFinite elapsedNonneg dtFinite dtPos inside
  have dtUnits := (units_pos dtFinite dtPos).le
  have first : fle f0 (fadd r.elapsed dt) = true :=
    fle_trans elapsedNonneg (fle_fadd (isNaN_of_isFinite elapsedFinite) dtFinite dtUnits)
  have second : fle (fadd r.elapsed dt) (fadd (fadd r.elapsed dt) dt) = true :=
    fle_fadd (fadd_rounds elapsedFinite dtFinite).notNaN dtFinite dtUnits
  have secondInside := not_fle_of_flt inside
  have firstInside : ¬ fle r.dur (fadd r.elapsed dt) = true := fun past => secondInside (fle_trans past second)
  have firstValue : (rampTick dt r).cur = rampInterpolate r (fadd r.elapsed dt) := if_neg firstInside
  rw [rampTick_rampTick_cur firstInside secondInside, firstValue]
  exact rampInterpolate_mono startFinite endFinite dFinite durFinite first second inside

/-! ### The envelope -/

/-- The envelope's output is in [0, 1], and its elapsed time is finite and not below zero (R134). -/
structure EnvelopeInRange (e : Envelope) : Prop where
  out : InUnit e.ENV_OUT
  elapsedFinite : isFinite e.ENV_ELAPSED = true
  elapsedNonneg : fle f0 e.ENV_ELAPSED = true

theorem inUnit_f0 : InUnit f0 := inUnit_iff.mpr ⟨isFinite_f0, units_f0.ge, units_f0.trans_le (Int.natCast_nonneg _)⟩

theorem inUnit_f1 : InUnit f1 := inUnit_iff.mpr ⟨isFinite_f1, units_f1 ▸ Int.natCast_nonneg _, units_f1.le⟩

/-- With an output in range and no elapsed time the envelope is in range. -/
theorem envelopeInRange_of_start {e : Envelope} (out : InUnit e.ENV_OUT) (start : e.ENV_ELAPSED = f0) :
    EnvelopeInRange e :=
  ⟨out, start ▸ isFinite_f0, start ▸ inUnit_f0.1⟩

section Events

variable {p : ParamRegs} {e : Envelope} (out : InUnit e.ENV_OUT)
include out

/-- Entering Release keeps the output or silences it (R123). -/
theorem enterRelease_inRange : EnvelopeInRange (enterRelease p e) := by
  by_cases positive : flt f0 p.P_RELEASE = true
  · rw [enterRelease_of_pos positive]
    exact envelopeInRange_of_start out rfl
  · rw [enterRelease_of_not_pos positive]
    exact envelopeInRange_of_start inUnit_f0 rfl

/-- Entering Sustain keeps the output, or releases (R122). -/
theorem enterSustain_inRange : EnvelopeInRange (enterSustain p e) := by
  by_cases deferred : e.ENV_AUTOREL = true
  · rw [enterSustain_of_deferred deferred]
    exact enterRelease_inRange out
  · rw [enterSustain_of_held deferred]
    exact envelopeInRange_of_start out rfl

/-- A note-on keeps the output (R124). -/
theorem envNoteOn_inRange : EnvelopeInRange (envNoteOn p e) := by
  obtain ⟨-, -, noteOn, -, -⟩ := envelopeEvents p e
  rw [noteOn]
  exact envelopeInRange_of_start out rfl

end Events

/-- A note-off keeps the envelope in range (R125). -/
theorem envNoteOff_inRange {p : ParamRegs} {e : Envelope} (inRange : EnvelopeInRange e) :
    EnvelopeInRange (envNoteOff p e) := by
  unfold envNoteOff
  split
  · exact ⟨inRange.out, inRange.elapsedFinite, inRange.elapsedNonneg⟩
  · exact ⟨inRange.out, inRange.elapsedFinite, inRange.elapsedNonneg⟩
  · exact enterRelease_inRange inRange.out
  · exact inRange
  · exact inRange

/-- A product with 1.0 of a value in [0, 1] is in [0, 1]. -/
theorem fmul_f1_inUnit {q : F64} (qUnit : InUnit q) : InUnit (fmul f1 q) := by
  obtain ⟨finite, lower, upper⟩ := fmul_inUnit_of_nonneg isFinite_f1 qUnit (units_f1 ▸ Int.natCast_nonneg _)
  exact inUnit_iff.mpr ⟨finite, lower, units_f1 ▸ upper⟩

/-- The sustain amplitude of a sustain level in [0, 1] is in [0, 1] (R121). -/
theorem sustainLevel_inUnit {p : ParamRegs} (sustain : InUnit p.P_SUSTAIN) : InUnit (sustainLevel p) :=
  fmul_f1_inUnit sustain

/-- An interpolation in [0, 1] from a value down to one not above it stays in [0, 1] (R128, R130). -/
theorem interpolate_down_inUnit {a b q : F64} (aUnit : InUnit a) (bUnit : InUnit b) (down : units b ≤ units a)
    (qUnit : InUnit q) : InUnit (fadd a (fmul q (fsub b a))) := by
  obtain ⟨aFinite, -, aOne⟩ := inUnit_iff.mp aUnit
  obtain ⟨bFinite, bNonneg, -⟩ := inUnit_iff.mp bUnit
  obtain ⟨qFinite, -, -⟩ := inUnit_iff.mp qUnit
  obtain ⟨negFinite, negUnits⟩ := fneg_finite aFinite
  obtain ⟨dFinite, dLower, dUpper⟩ := (fsub_rounds bFinite aFinite).between Nat.one_pos negFinite isFinite_f0
    (by rw [negUnits]; omega) (by rw [units_f0]; omega)
  rw [negUnits] at dLower
  rw [units_f0] at dUpper
  obtain ⟨partFinite, partLower, partUpper⟩ := fmul_inUnit_of_nonpos dFinite qUnit dUpper
  rw [fmul_comm_finite qFinite dFinite]
  exact (fadd_rounds aFinite partFinite).inUnit Nat.one_pos (by omega) (by omega)

section Tick

variable {p : ParamRegs} {dt : F64} {e : Envelope}

/-- The ticked elapsed time inside a stage is finite, not below zero and below the stage's length. -/
theorem elapsed_of_inside {d : F64} (dFinite : isFinite d = true) (inRange : EnvelopeInRange e)
    (dtFinite : isFinite dt = true) (dtPos : flt f0 dt = true) (inside : ¬ fle d (fadd e.ENV_ELAPSED dt) = true) :
    isFinite (fadd e.ENV_ELAPSED dt) = true ∧ fle f0 (fadd e.ENV_ELAPSED dt) = true ∧
    InUnit (fdiv (fadd e.ENV_ELAPSED dt) d) := by
  have notNaN : isNaN (fadd e.ENV_ELAPSED dt) = false := (fadd_rounds inRange.elapsedFinite dtFinite).notNaN
  have nonneg : fle f0 (fadd e.ENV_ELAPSED dt) = true :=
    fle_trans inRange.elapsedNonneg (fle_fadd (isNaN_of_isFinite inRange.elapsedFinite) dtFinite (units_pos dtFinite dtPos).le)
  have below := flt_of_inside notNaN dFinite inside
  have finite := isFinite_of_between isFinite_f0 dFinite nonneg (fle_of_flt below)
  exact ⟨finite, nonneg, fdiv_inUnit finite dFinite (units_nonneg finite nonneg) ((flt_iff_units finite dFinite).mp below)⟩

variable (inRange : EnvelopeInRange e) (dtFinite : isFinite dt = true) (dtPos : flt f0 dt = true)
include inRange dtFinite dtPos

/-- A tick in Attack keeps the envelope in range (R127). -/
theorem envTickAttack_inRange (attack : isFinite p.P_ATTACK = true) : EnvelopeInRange (envTickAttack p dt e) := by
  by_cases ended : fle p.P_ATTACK (fadd e.ENV_ELAPSED dt) = true
  · by_cases decay : flt f0 p.P_DECAY = true
    · rw [envTickAttack_to_decay ended decay]
      exact envelopeInRange_of_start inUnit_f1 rfl
    · rw [envTickAttack_to_sustain ended decay]
      exact enterSustain_inRange inUnit_f1
  · obtain ⟨finite, nonneg, part⟩ := elapsed_of_inside attack inRange dtFinite dtPos ended
    rw [envTickAttack_of_inside ended]
    exact ⟨fmul_f1_inUnit part, finite, nonneg⟩

/-- A tick in Decay keeps the envelope in range (R128). -/
theorem envTickDecay_inRange (decay : isFinite p.P_DECAY = true) (sustain : InUnit p.P_SUSTAIN) :
    EnvelopeInRange (envTickDecay p dt e) := by
  have level := sustainLevel_inUnit sustain
  by_cases ended : fle p.P_DECAY (fadd e.ENV_ELAPSED dt) = true
  · rw [envTickDecay_of_ended ended]
    exact enterSustain_inRange level
  · obtain ⟨finite, nonneg, part⟩ := elapsed_of_inside decay inRange dtFinite dtPos ended
    obtain ⟨-, -, levelOne⟩ := inUnit_iff.mp level
    rw [envTickDecay_of_inside ended]
    exact ⟨interpolate_down_inUnit inUnit_f1 level (units_f1 ▸ levelOne) part, finite, nonneg⟩

/-- A tick in Release keeps the envelope in range (R130). -/
theorem envTickRelease_inRange (release : isFinite p.P_RELEASE = true) (sustain : InUnit p.P_SUSTAIN) :
    EnvelopeInRange (envTickRelease p dt e) := by
  have level := sustainLevel_inUnit sustain
  by_cases ended : fle p.P_RELEASE (fadd e.ENV_ELAPSED dt) = true
  · rw [envTickRelease_of_ended ended]
    exact envelopeInRange_of_start inUnit_f0 rfl
  · obtain ⟨finite, nonneg, part⟩ := elapsed_of_inside release inRange dtFinite dtPos ended
    obtain ⟨-, levelNonneg, -⟩ := inUnit_iff.mp level
    rw [envTickRelease_of_inside ended]
    exact ⟨interpolate_down_inUnit level inUnit_f0 (units_f0 ▸ levelNonneg) part, finite, nonneg⟩

/-- A tick keeps the envelope in range, by its stage (R134). -/
theorem envTick_inRange (sustain : InUnit p.P_SUSTAIN) (attack : isFinite p.P_ATTACK = true)
    (decay : isFinite p.P_DECAY = true) (release : isFinite p.P_RELEASE = true) : EnvelopeInRange (envTick p dt e) := by
  unfold envTick
  cases e.ENV_STATE with
  | off => exact ⟨inUnit_f0, inRange.elapsedFinite, inRange.elapsedNonneg⟩
  | attack => exact envTickAttack_inRange inRange dtFinite dtPos attack
  | decay => exact envTickDecay_inRange inRange dtFinite dtPos decay sustain
  | sustain => exact ⟨sustainLevel_inUnit sustain, inRange.elapsedFinite, inRange.elapsedNonneg⟩
  | release => exact envTickRelease_inRange inRange dtFinite dtPos release sustain

end Tick

/-- Settles O43, by the stage of the tick. -/
theorem envelopeBounds : Obligations.EnvelopeBounds := by
  intro p dt e sustain attack decay release dtFinite dtPos elapsedFinite elapsedNonneg out
  have ticked := envTick_inRange ⟨out, elapsedFinite, elapsedNonneg⟩ dtFinite dtPos sustain attack decay release
  exact ⟨ticked.out, ticked.elapsedFinite, ticked.elapsedNonneg⟩

end Sys2Proof.Proofs

/-! The floor is exact (R12), so a value less its floor is in [0, 1]: the phase advance (R155), the wrapped position of the
shapers (R167), and the oscillator at frequency zero (R158). The scrub window of R180. -/

namespace Sys2Proof.Proofs

open Sys2Proof.Machine Sys2Proof.Claim

/-- A significand of at most 53 bits at any exponent of the range is a binary64 magnitude: below the full width it is one
twice as large at the exponent below. -/
theorem exists_magUnits {a e : Nat} (significand : a < 2 ^ 53) (exponent : e < 2046) :
    ∃ m < infMag, magUnits m = a * 2 ^ e := by
  have inf : infMag = 2047 * 2 ^ 52 := by decide
  induction e generalizing a with
  | zero =>
    refine ⟨a, by omega, ?_⟩
    have noShift : a / 2 ^ 52 - 1 = 0 := by omega
    simp only [magUnits, noShift, zero_mul, Nat.sub_zero]
  | succ e ih =>
    by_cases wide : a < 2 ^ 52
    · obtain ⟨m, finite, value⟩ := ih (a := 2 * a) (by omega) (by omega)
      exact ⟨m, finite, by rw [value, pow_succ]; ring⟩
    · refine ⟨(e + 1) * 2 ^ 52 + a, by omega, ?_⟩
      have shift : ((e + 1) * 2 ^ 52 + a) / 2 ^ 52 - 1 = e + 1 := by omega
      simp only [magUnits, shift, Nat.add_sub_cancel_left]

/-- Every whole number of magnitude at most 2^53 is a binary64 value. -/
theorem exists_whole {k : Int} (bounded : k.natAbs ≤ 2 ^ 53) : ∃ y, isFinite y = true ∧ units y = k * unitScale := by
  obtain ⟨m, finite, value⟩ : ∃ m < infMag, magUnits m = k.natAbs * unitScale := by
    rcases bounded.lt_or_eq with narrow | full
    · exact exists_magUnits narrow (by decide)
    · obtain ⟨m, finite, value⟩ := exists_magUnits (a := 2 ^ 52) (e := 1074 + 1) (by decide) (by decide)
      exact ⟨m, finite, by rw [value, full, unitScale, pow_succ 2 1074]; generalize 2 ^ 1074 = u; omega⟩
  have inf : infMag < 2 ^ 63 := by decide
  refine ⟨packMag (decide (k < 0)) m, ?_, ?_⟩
  · rw [isFinite, magBits_packMag (by omega)]
    exact decide_eq_true finite
  · rw [units, msb_packMag (by omega), magBits_packMag (by omega), value]
    push_cast
    by_cases negative : k < 0
    · rw [if_pos (decide_eq_true negative), abs_of_neg negative]
      ring
    · rw [if_neg (by simpa using negative), abs_of_nonneg (Int.not_lt.mp negative)]

/-- A magnitude is a multiple of 2^k, or below 2^53 times that. -/
theorem magUnits_multiple_or_small (m k : Nat) : 2 ^ k ∣ magUnits m ∨ magUnits m < 2 ^ 53 * 2 ^ k := by
  unfold magUnits
  by_cases large : k ≤ m / 2 ^ 52 - 1
  · exact .inl ((Nat.pow_dvd_pow 2 large).mul_left _)
  · refine .inr ?_
    calc (m - (m / 2 ^ 52 - 1) * 2 ^ 52) * 2 ^ (m / 2 ^ 52 - 1)
        < 2 ^ 53 * 2 ^ (m / 2 ^ 52 - 1) := Nat.mul_lt_mul_of_pos_right (by omega) (by positivity)
      _ ≤ 2 ^ 53 * 2 ^ k := Nat.mul_le_mul_left _ (Nat.pow_le_pow_right (by decide) (by omega))

/-- A magnitude is a whole number of 1.0s, or below 2^53 of them. -/
theorem magUnits_whole_or_small (m : Nat) : unitScale ∣ magUnits m ∨ magUnits m < 2 ^ 53 * unitScale := by
  unfold unitScale
  exact magUnits_multiple_or_small m 1074

/-- The magnitude of a value in units. -/
theorem natAbs_units (x : F64) : (units x).natAbs = magUnits (magBits x) := by
  unfold units
  split_ifs <;> simp

/-- The floor of a finite value is a binary64 value. -/
theorem exists_floor {x : F64} (finite : isFinite x = true) :
    ∃ y, isFinite y = true ∧ units y = units x / unitScale * unitScale := by
  have pos : (0 : Int) < unitScale := Int.natCast_pos.mpr unitScale_pos
  rcases magUnits_whole_or_small (magBits x) with whole | small
  · refine ⟨x, finite, (Int.ediv_mul_cancel ?_).symm⟩
    rw [Int.natCast_dvd, natAbs_units]
    exact whole
  · refine exists_whole ?_
    have small : (units x).natAbs < 2 ^ 53 * unitScale := (natAbs_units x).trans_lt small
    generalize unitScale = u at *
    have upper : units x < 2 ^ 53 * u := by omega
    have lower : -(2 ^ 53 * u) ≤ units x := by omega
    have below : units x / u < 2 ^ 53 := Int.ediv_lt_of_lt_mul pos upper
    have above : -(2 ^ 53) ≤ units x / u := Int.le_ediv_of_mul_le pos (by rw [neg_mul]; exact lower)
    omega

/-- The floor of a finite value is exact (R12). -/
theorem ffloor_exact {x : F64} (finite : isFinite x = true) :
    isFinite (ffloor x) = true ∧ units (ffloor x) = units x / unitScale * unitScale := by
  obtain ⟨y, yFinite, yUnits⟩ := exists_floor finite
  have rounds : RoundsTo (ffloor x) (units x / unitScale * unitScale) 1 := by
    rw [ffloor_finite finite]
    exact ⟨isNaN_roundUnits _ _, orderKey_roundUnits _ _⟩
  rw [← yUnits]
  exact rounds.exact Nat.one_pos yFinite (by rw [yUnits, Nat.cast_one, mul_one])

/-- A finite value less its floor is in [0, 1]: the exact difference is at least 0 and below 1. -/
theorem fsub_ffloor_inUnit {x : F64} (finite : isFinite x = true) : InUnit (fsub x (ffloor x)) := by
  obtain ⟨floorFinite, floorUnits⟩ := ffloor_exact finite
  have pos : (0 : Int) < unitScale := Int.natCast_pos.mpr unitScale_pos
  have division := Int.emod_add_ediv_mul (units x) unitScale
  have lower := Int.emod_nonneg (units x) pos.ne'
  have upper := Int.emod_lt_of_pos (units x) pos
  refine (fsub_rounds finite floorFinite).inUnit Nat.one_pos ?_ ?_
  · rw [floorUnits]
    linarith
  · rw [floorUnits, Nat.cast_one, mul_one]
    linarith

/-- The wrapped phase is in [0, 1): a difference rounded up to 1.0 is 0.0 (R155). -/
theorem phaseWrap_inCycle {x : F64} (finite : isFinite x = true) :
    fle f0 (phaseWrap x) = true ∧ flt (phaseWrap x) f1 = true := by
  obtain ⟨nonneg, atMost⟩ := fsub_ffloor_inUnit finite
  unfold phaseWrap
  dsimp only
  split_ifs with one
  · decide
  · refine ⟨nonneg, ?_⟩
    obtain ⟨notNaN, oneNotNaN, keys⟩ := fle_iff.mp atMost
    exact flt_iff.mpr ⟨notNaN, oneNotNaN, lt_of_le_of_ne keys fun same => one (feq_iff.mpr ⟨notNaN, oneNotNaN, same⟩)⟩

/-- The advance of a phase in [0, 1) is a phase in [0, 1) (R155). -/
theorem phaseAdvance_inCycle {s : State} (freq : F64) (nonneg : fle f0 s.OSC_PHASE = true)
    (below : flt s.OSC_PHASE f1 = true) :
    fle f0 (phaseAdvance freq s).OSC_PHASE = true ∧ flt (phaseAdvance freq s).OSC_PHASE f1 = true := by
  rw [phaseAdvance_frame]
  dsimp only
  split_ifs with finite
  · exact phaseWrap_inCycle finite
  · exact ⟨nonneg, below⟩

/-- Settles O44: the advance as the rule writes it, and the bounds of the wrap. -/
theorem phaseStaysInCycle : Obligations.PhaseStaysInCycle :=
  fun freq _ => ⟨rfl, phaseAdvance_inCycle freq⟩

/-- The lookup position is in [0, 1] in either edge mode (R166 to R169, R172). -/
theorem shaperPosition_inUnit (mode : EdgeMode) (p : F64) : InUnit (shaperPosition mode p) := by
  unfold shaperPosition
  dsimp only
  split_ifs with finite
  · cases mode with
    | wrap => exact fsub_ffloor_inUnit finite
    | clamp => exact fclamp_window (isNaN_of_isFinite finite) (by decide) (by decide) (by decide)
  · exact inUnit_f0

/-! ### The oscillator at frequency zero, and the scrub window -/

/-- A zero of either sign times a finite value is a zero. -/
theorem fmul_zero_cases {z d : F64} (zero : z = 0x0000000000000000#64 ∨ z = 0x8000000000000000#64)
    (finite : isFinite d = true) : fmul z d = 0x0000000000000000#64 ∨ fmul z d = 0x8000000000000000#64 := by
  have zFinite : isFinite z = true := by rcases zero with rfl | rfl <;> decide
  have zUnits : units z = 0 := by rcases zero with rfl | rfl <;> decide +kernel
  rw [← orderKey_eq_zero_iff, (fmul_rounds zFinite finite).key, zUnits, zero_mul]
  simp [roundKey, roundMag_zero]

/-- At frequency zero a quarter-cycle phase advances to itself (R158). -/
theorem phaseAdvance_quarter {freq : F64} {s : State} (zero : freq = 0x0000000000000000#64 ∨ freq = 0x8000000000000000#64)
    (finite : isFinite s.DT = true) (quarter : s.OSC_PHASE = 0x3FD0000000000000#64) : phaseAdvance freq s = s := by
  have sum : phaseSum freq s.DT s.OSC_PHASE = 0x3FD0000000000000#64 := by
    rw [phaseSum, quarter]
    rcases fmul_zero_cases zero finite with product | product <;> rw [product] <;> decide +kernel
  have wrapped : phaseWrap 0x3FD0000000000000#64 = 0x3FD0000000000000#64 := by decide +kernel
  rw [phaseAdvance, sum, wrapped, ← quarter]
  exact if_pos (by rw [quarter]; decide)

/-- A product with 1.0 is the other factor (R12). -/
theorem fmul_f1_right {a : F64} (finite : isFinite a = true) : fmul a f1 = a := by
  have sign : f1.msb = false := by decide
  have one : magUnits (magBits f1) = unitScale := by decide +kernel
  have packed : fmul a f1 = packMag a.msb (roundMag (magUnits (magBits a) * unitScale) unitScale) := by
    simp only [fmul, finite, isFinite_f1, Bool.and_self, if_true, one, sign, Bool.bne_false]
  rw [packed, roundMag_magUnits unitScale_pos (of_decide_eq_true finite), packMag_self]

/-- Where the sine at a quarter cycle is 1.0, the oscillator's output there is its amplitude (R158). -/
theorem oscOutput_quarter {P : Params} {amp : F64} (sine : sin64 P 0x3FF921FB54442D18#64 = f1)
    (finite : isFinite amp = true) : oscOutput P amp 0x3FD0000000000000#64 = amp := by
  have angle : fmul twoPi 0x3FD0000000000000#64 = 0x3FF921FB54442D18#64 := by decide +kernel
  rw [oscOutput, angle, sine, fmul_f1_right finite]

/-- Sums of finite values keep the order of the exact sums. -/
theorem fadd_mono {a b c d : F64} (aFinite : isFinite a = true) (bFinite : isFinite b = true) (cFinite : isFinite c = true)
    (dFinite : isFinite d = true) (le : units a + units b ≤ units c + units d) : fle (fadd a b) (fadd c d) = true :=
  (fadd_rounds aFinite bFinite).mono (fadd_rounds cFinite dFinite) Nat.one_pos le

/-- The width of a value is its magnitude in units. -/
theorem width_finite {x : F64} (finite : isFinite x = true) :
    isFinite (packMag false (magBits x)) = true ∧ units (packMag false (magBits x)) = magUnits (magBits x) := by
  unfold isFinite units
  rw [magBits_packMag (magBits_lt x), msb_packMag (magBits_lt x)]
  exact ⟨finite, rfl⟩

/-- A value of no larger magnitude than a finite one is finite and within its width. -/
theorem within_width {x shape : F64} (finite : isFinite shape = true) (within : magBits x ≤ magBits shape) :
    isFinite x = true ∧ -(magUnits (magBits shape) : Int) ≤ units x ∧ units x ≤ magUnits (magBits shape) := by
  have shapeMag : magBits shape < infMag := of_decide_eq_true finite
  have small := magUnits_mono within
  have := natAbs_units x
  exact ⟨decide_eq_true (by omega), by omega, by omega⟩

/-- The map from scrub position to normalized position keeps the order (R166). -/
theorem shaperMap_mono {p q : F64} (le : fle p q = true) : fle (shaperMap p) (shaperMap q) = true :=
  fmul_mono_left (by decide) (by decide) (by decide) (fadd_mono_left isFinite_f1 le)

/-- Bounded noise and a bounded sine keep the modulation within the shape's width (R180). -/
theorem modulation_bounded {n shape sine : F64} (noise : magBits n ≤ magBits f1) (sineBounded : magBits sine ≤ magBits f1)
    (finite : isFinite shape = true) : magBits (fmul n (fmul shape sine)) ≤ magBits shape := by
  have sineFinite : isFinite sine = true := decide_eq_true (sineBounded.trans_lt (by decide))
  have output : magBits (fmul shape sine) ≤ magBits shape := by
    rw [fmul_comm_finite finite sineFinite]
    exact fmul_le_right sineBounded finite
  exact (fmul_le_right noise (within_width finite output).1).trans output

/-- The scrub position of bounded modulation lies in the window of R180. -/
theorem mixStep_window {n g range shape : F64} (rangeFinite : isFinite range = true) (shapeFinite : isFinite shape = true)
    (bounded : magBits (fmul n g) ≤ magBits shape) :
    fle (fsub range (packMag false (magBits shape))) (mixStep n g range) = true ∧
    fle (mixStep n g range) (fadd range (packMag false (magBits shape))) = true := by
  obtain ⟨modFinite, modLower, modUpper⟩ := within_width shapeFinite bounded
  obtain ⟨widthFinite, widthUnits⟩ := width_finite shapeFinite
  obtain ⟨negFinite, negUnits⟩ := fneg_finite widthFinite
  constructor
  · exact fadd_mono rangeFinite negFinite modFinite rangeFinite (by omega)
  · exact fadd_mono modFinite rangeFinite rangeFinite widthFinite (by omega)

/-- The ramps after operations 1 to 6 of a sample step: each has ticked, the rate ramp after the drain (R196). -/
theorem sampleScrub_ramps (P : Params) (s : State) :
    (sampleScrub P s).2.RMP_MOD = rampTick s.DT s.RMP_MOD ∧
    (sampleScrub P s).2.RMP_RATE = rampTick s.DT (midiDrain P s).RMP_RATE ∧
    (sampleScrub P s).2.RMP_RANGE = rampTick s.DT s.RMP_RANGE ∧
    (sampleScrub P s).2.RMP_SHAPE = rampTick s.DT s.RMP_SHAPE := by
  unfold sampleScrub
  dsimp only
  rw [phaseAdvance_frame, tickRamps_frame, midiDrain_frame]
  exact ⟨rfl, rfl, rfl, rfl⟩

/-- Settles O45: the quarter cycle is a fixed point at frequency zero; and the noise of a reached state and the sine are of
magnitude at most 1.0, so their product with the shape is within its width. -/
theorem zeroModulation : Obligations.ZeroModulation := by
  refine ⟨fun P freq amp s zero finite quarter => ⟨phaseAdvance_quarter zero finite quarter, fun sine ampFinite => ?_⟩,
    fun P s bounded reached => ?_⟩
  · rw [quarter]
    exact oscOutput_quarter sine ampFinite
  · intro p range shape width rangeFinite shapeFinite
    obtain ⟨-, -, rangeTicked, shapeTicked⟩ := sampleScrub_ramps P s
    have position : p = mixStep (noiseSample P s.par.P_TINT (rampTick s.DT (midiDrain P s).RMP_RATE).cur s)
        (oscOutput P shape s.OSC_PHASE) range := by
      rw [show p = _ from sampleScrub_position P s, ← rangeTicked, ← shapeTicked]
    obtain ⟨lower, upper⟩ := mixStep_window (g := oscOutput P shape s.OSC_PHASE) rangeFinite shapeFinite
      (modulation_bounded (bounded _ reached s.par.P_TINT (rampTick s.DT (midiDrain P s).RMP_RATE).cur s.DT s.SR
        (P.draw s.DRAWS)) (sin64_bounded P _) shapeFinite)
    rw [position]
    exact ⟨lower, upper, shaperMap_mono lower, shaperMap_mono upper⟩

end Sys2Proof.Proofs

/-! The power-on state has the invariants (R47). The capture of a slot and the dial back to it (R257). The whole load of a
wavetable (R105). -/

namespace Sys2Proof.Proofs

open Sys2Proof.Machine Sys2Proof.Claim

/-- The power-on state has the invariant: no memory holds a word, nothing is queued, held, open or running. -/
theorem inv_reset : Inv Config.params State.reset where
  outWf := rfl
  wtLWf := rfl
  wtRWf := rfl
  stg0Wf := rfl
  stg1Wf := rfl
  outFinite := fun _ listed => nomatch listed
  tableFits := Nat.zero_le _
  leftLive := fun _ live => absurd live (Nat.not_lt_zero _)
  rightLive := fun _ live => absurd live (Nat.not_lt_zero _)
  loadShape := fun active => nomatch active
  stagedLeft := fun active => nomatch active
  stagedRight := fun active => nomatch active
  queueOrder := List.Pairwise.nil
  queueBound := Nat.zero_le _
  notesBound := Nat.zero_le _
  faultBits := rfl
  firstFault := ⟨fun _ => rfl, fun _ => rfl⟩
  running := fun active => nomatch active
  period := fun ready => nomatch ready

/-- The power-on sustain level is in [0, 1] (R6). -/
theorem defSustain_inUnit (P : Params) : InUnit (defSustain P) := by
  unfold defSustain
  split_ifs with inRange
  · exact Bool.and_eq_true_iff.mp inRange
  · exact inUnit_f0

/-- The power-on state has the signal invariant. -/
theorem signalInv_reset : SignalInv State.reset where
  gain := ⟨isFinite_powerOn_gain _, pow64_ten_nonneg (isFinite_powerOn_gain _)⟩
  sustain := defSustain_inUnit _
  attackFinite := isFinite_bits _
  decayFinite := isFinite_bits _
  releaseFinite := isFinite_bits _
  envelope := inUnit_f0
  elapsed := ⟨isFinite_f0, inUnit_f0.1⟩
  phase := (by decide : fle f0 OSC_PHASE0 = true ∧ flt OSC_PHASE0 f1 = true)
  mapLeft := inUnit_f0
  mapRight := inUnit_f0
  mapShown := inUnit_f0

/-- Settles O56, invariant by invariant; the noise state is the first of the reached ones. -/
theorem invariantsAtReset : Obligations.InvariantsAtReset := ⟨inv_reset, signalInv_reset, .init⟩

/-! ### A captured slot and the dial at it -/

/-- The dial set to a slot's number stands at the slot, and no part of the next (R249). -/
theorem dial_slot (k : Fin 8) : isFinite (toF64 k) = true ∧ dialPosition (toF64 k) = toF64 k ∧
    dialLower (toF64 k) = k ∧ dialWeight (toF64 k) = f0 := by
  revert k
  decide +kernel

/-- With the dial at a slot every field is the slot's own, bit for bit (R250). -/
theorem dialBlend_slot (k : Fin 8) (s : State) (f : SnapField) : dialBlend s (toF64 k) f = snapField f s.SNAP[k] := by
  obtain ⟨-, -, lower, weight⟩ := dial_slot k
  rw [dialBlend, weight, blend_f0, snapSlot_eq lower.symm]

/-- A finite blended value is applied (R252). -/
theorem applied_of_finite {x : F64} (finite : isFinite x = true) (apply : F64 → State → State) (s : State) :
    applied x apply s = apply x s :=
  if_pos finite

/-- The dial position written and the four apply operations in their order (R233, R249). -/
theorem applyAll_eq (dial : F64) (r : Snapshot) (s : State) :
    answered 0#64 (applyShape r.shape (applyRange r.range (applyRate r.rate (applyMod r.mod
        { s with par := { s.par with P_SNAPSHOT := dial } })))) =
      { s with
        par := { s.par with
          P_MOD := r.mod, P_RATE := r.rate, P_RANGE := r.range, P_SHAPE := r.shape, P_SNAPSHOT := dial }
        RMP_MOD := rampActivate T_MOD s.RMP_MOD.cur r.mod
        RMP_RATE := rampActivate (if s.NS = [] then f0 else T_RATE) s.RMP_RATE.cur r.rate
        RMP_RANGE := rampActivate T_RANGE s.RMP_RANGE.cur r.range
        RMP_SHAPE := rampActivate T_SHAPE s.RMP_SHAPE.cur r.shape
        RESP := 0#64 } := by
  rw [applyRate_eq]
  rfl

/-- The dial at a slot of finite fields writes and arms the four parameters with them (R249). -/
theorem setNoiseSnapshot_slot {k : Fin 8} {n : Nat} {s : State} {r : Snapshot} (slot : k.val = n) (held : s.SNAP[k] = r)
    (finite : ∀ f, isFinite (snapField f r) = true) :
    setNoiseSnapshot (toF64 n) s =
      answered 0#64 (applyShape r.shape (applyRange r.range (applyRate r.rate (applyMod r.mod
        { s with par := { s.par with P_SNAPSHOT := toF64 n } })))) := by
  subst slot
  obtain ⟨operand, position, -, -⟩ := dial_slot k
  rw [setNoiseSnapshot_of_finite operand, position]
  simp only [dialBlend_slot, held, applied_of_finite (finite _)]
  rfl

/-- The live values are finite where the four registers are. -/
theorem liveSnapshot_finite {p : ParamRegs} (modFinite : isFinite p.P_MOD = true) (rateFinite : isFinite p.P_RATE = true)
    (rangeFinite : isFinite p.P_RANGE = true) (shapeFinite : isFinite p.P_SHAPE = true) (f : SnapField) :
    isFinite (snapField f (liveSnapshot p)) = true := by
  cases f
  · exact modFinite
  · exact rateFinite
  · exact rangeFinite
  · exact shapeFinite

/-- The dial at a slot that holds the live values, as an update of the state before the capture. -/
theorem setNoiseSnapshot_captured {k : Fin 8} {n : Nat} {s : State} {slots : Vector Snapshot 8} (slot : k.val = n)
    (held : slots[k] = liveSnapshot s.par) (finite : ∀ f, isFinite (snapField f (liveSnapshot s.par)) = true) :
    setNoiseSnapshot (toF64 n) { s with SNAP := slots, RESP := 0#64 } =
      { s with
        par := { s.par with P_SNAPSHOT := toF64 n }
        SNAP := slots
        RMP_MOD := rampActivate T_MOD s.RMP_MOD.cur s.par.P_MOD
        RMP_RATE := rampActivate (if s.NS = [] then f0 else T_RATE) s.RMP_RATE.cur s.par.P_RATE
        RMP_RANGE := rampActivate T_RANGE s.RMP_RANGE.cur s.par.P_RANGE
        RMP_SHAPE := rampActivate T_SHAPE s.RMP_SHAPE.cur s.par.P_SHAPE
        RESP := 0#64 } := by
  rw [setNoiseSnapshot_slot (s := { s with SNAP := slots, RESP := 0#64 }) slot held finite, applyAll_eq]
  rfl

/-- Settles O37: the capture leaves the slot with the live values, and the dial at it blends nothing else in. -/
theorem snapshotRoundTrip : Obligations.SnapshotRoundTrip := by
  intro idx s inside modFinite rateFinite rangeFinite shapeFinite
  obtain ⟨k, slot⟩ : ∃ k : Fin 8, k.val = idx.toNat := ⟨⟨idx.toNat, Nat.lt_succ_of_le inside⟩, rfl⟩
  have captured : (s.SNAP.set k (liveSnapshot s.par))[k] = liveSnapshot s.par := Vector.getElem_set_self _
  have dialled := setNoiseSnapshot_captured slot captured
    (liveSnapshot_finite modFinite rateFinite rangeFinite shapeFinite)
  exact ⟨_, _, congrArg Host.Outcome.next (updateNoiseSnapshot_of_slot slot s), congrArg Host.Outcome.next dialled, rfl⟩

/-! ### The load of a wavetable -/

/-- Commands run one after another as their parts do. -/
theorem runCommands_append {first : List Instr} {s t : State} (ran : runCommands first s = .next t) (second : List Instr) :
    runCommands (first ++ second) s = runCommands second t := by
  induction first generalizing s with
  | nil => exact congrArg (runCommands second) (Host.Outcome.next.inj ran)
  | cons i rest ih =>
    simp only [List.cons_append, runCommands] at ran ⊢
    cases result : exec i s with
    | next u =>
      rw [result] at ran
      exact ih ran
    | fault f =>
      rw [result] at ran
      exact nomatch ran
    | refused r =>
      rw [result] at ran
      exact nomatch ran

/-- A command that completes leaves the rest to run in its state. -/
theorem runCommands_cons {i : Instr} {s t : State} (ran : exec i s = .next t) (rest : List Instr) :
    runCommands (i :: rest) s = runCommands rest t := by
  simp only [runCommands, ran]

/-- An open load of `xs` in `ch` channels of n frames has taken its first k samples: each of channels 0 and 1 that has come is
staged, and nothing but the staging area has changed since `s` (R39, R67). -/
structure Staged (ch : BitVec 4) (n : Nat) (xs : List F64) (s : State) (k : Nat) (t : State) : Prop where
  frame : t = { s with stg := t.stg, RESP := 0#64 }
  active : t.stg.STG_ACTIVE = true
  channels : t.stg.STG_CH = ch
  frames : t.stg.STG_N = n
  count : t.stg.STG_COUNT = k
  left : ∀ f < n, f < k → memRead t.stg.STG0 f = xs[f]?
  right : ∀ f < n, n + f < k → memRead t.stg.STG1 f = xs[n + f]?

section Load

variable {ch : BitVec 4} {n : Nat} {xs : List F64} {s t : State}

/-- Opening a load takes no sample yet (R173). -/
theorem staged_of_begin (channel : ch ≠ 0#4) (fits : n ≤ Config.params.wtCap) (frames : (BitVec.ofNat 64 n).toNat = n)
    (xs : List F64) (s : State) : ∃ t, exec (.wtBegin ch (BitVec.ofNat 64 n)) s = .next t ∧ Staged ch n xs s 0 t := by
  refine ⟨_, congrArg Host.Outcome.next (wtBegin_of_fits channel (by rw [frames]; omega) s), ?_⟩
  exact ⟨rfl, rfl, rfl, frames, rfl, fun _ _ before => absurd before (Nat.not_lt_zero _),
    fun _ _ before => absurd before (Nat.not_lt_zero _)⟩

/-- The place of sample k is frame f of channel c. -/
theorem sample_place {n k c f : Nat} (inFrames : f < n) : k / n = c ∧ f = k % n ↔ k = n * c + f := by
  constructor
  · rintro ⟨rfl, rfl⟩
    exact (Nat.div_add_mod k n).symm
  · rintro rfl
    rw [Nat.mul_add_div (by omega), Nat.div_eq_of_lt inFrames, Nat.mul_add_mod, Nat.mod_eq_of_lt inFrames]
    exact ⟨rfl, rfl⟩

/-- Pushing the next sample stages it (R174). -/
theorem staged_push {k : Nat} {v : F64} (fits : n ≤ Config.params.wtCap) (size : xs.length = ch.toNat * n)
    (sample : xs[k]? = some v) (finite : isFinite v = true) (staged : Staged ch n xs s k t) :
    ∃ u, exec (.wtPush v) t = .next u ∧ Staged ch n xs s (k + 1) u := by
  obtain ⟨frame, active, channels, frames, count, left, right⟩ := staged
  have inLoad : k < xs.length := (List.getElem?_eq_some_iff.mp sample).1
  obtain ⟨-, push⟩ := wtPushEffect
  obtain ⟨-, -, accepted⟩ := push v t fun _ => frames.trans_le fits
  obtain ⟨m0, m1, pushed, words⟩ := accepted finite active (by rw [count, channels, frames, ← size]; exact inLoad)
  rw [count, frames] at words
  refine ⟨_, pushed, ?_, active, channels, frames, congrArg Nat.succ count, fun f inFrames taken => ?_,
    fun f inFrames taken => ?_⟩
  · rw [frame]
  · refine (words f).1.trans ?_
    simp only [sample_place inFrames, Nat.mul_zero, Nat.zero_add]
    split_ifs with last
    · rw [← last, sample]
    · exact left f inFrames (by omega)
  · refine (words f).2.trans ?_
    simp only [sample_place inFrames, Nat.mul_one]
    split_ifs with last
    · rw [← last, sample]
    · exact right f inFrames (by omega)

/-- Pushing the samples that are left stages them all. -/
theorem staged_pushes (fits : n ≤ Config.params.wtCap) (size : xs.length = ch.toNat * n)
    (finite : ∀ x ∈ xs, isFinite x = true) {done left : List F64} (split : xs = done ++ left)
    (staged : Staged ch n xs s done.length t) :
    ∃ u, runCommands (left.map .wtPush) t = .next u ∧ Staged ch n xs s xs.length u := by
  induction left generalizing done t with
  | nil =>
    rw [List.append_nil] at split
    exact ⟨t, rfl, split ▸ staged⟩
  | cons v rest ih =>
    have sample : xs[done.length]? = some v := by simp [split]
    obtain ⟨u, pushed, next⟩ := staged_push fits size sample (finite v (by simp [split])) staged
    rw [List.map_cons, runCommands_cons pushed]
    exact ih (done := done ++ [v]) (by simp [split]) (by simpa using next)

/-- Committing a whole load publishes its samples, and keeps the words past its frames (R175, R176). -/
theorem staged_commit (channel : ch ≠ 0#4) (fits : n ≤ Config.params.wtCap) (size : xs.length = ch.toNat * n)
    (staged : Staged ch n xs s xs.length t) :
    ∃ u, exec .wtCommit t = .next u ∧
      u = { s with WT_L := u.WT_L, WT_R := u.WT_R, WT_N := n, stg := u.stg, RESP := 0#64 } ∧ u.stg.STG_ACTIVE = false ∧
      (∀ k < n, memRead u.WT_L k = xs[k]? ∧ memRead u.WT_R k = if 2 ≤ ch.toNat then xs[n + k]? else xs[k]?) ∧
      (∀ k, n ≤ k → memRead u.WT_L k = memRead s.WT_L k ∧ memRead u.WT_R k = memRead s.WT_R k) := by
  obtain ⟨frame, active, channels, frames, count, left, right⟩ := staged
  have oneChannel : 1 ≤ ch.toNat := Nat.one_le_iff_ne_zero.mpr fun zero => channel (BitVec.eq_of_toNat_eq zero)
  have whole : t.stg.STG_COUNT = loadSize t.stg := by rw [count, loadSize, channels, frames, size]
  have tables : t.WT_L = s.WT_L ∧ t.WT_R = s.WT_R := by rw [frame]; exact ⟨rfl, rfl⟩
  have leftWords : ∀ k < n, memRead t.stg.STG0 k = xs[k]? := fun k inFrames => by
    have : n ≤ ch.toNat * n := Nat.le_mul_of_pos_left n oneChannel
    exact left k inFrames (by omega)
  have rightWords : ∀ k < n, memRead (rightSource t.stg).2 k = if 2 ≤ ch.toNat then xs[n + k]? else xs[k]? := by
    intro k inFrames
    rw [rightSource, channels]
    split_ifs with stereo
    · have : 2 * n ≤ ch.toNat * n := Nat.mul_le_mul_right n stereo
      exact right k inFrames (by omega)
    · exact leftWords k inFrames
  have written {j : Nat} (inside : j < xs.length) : xs[j]? ≠ none := by simpa using inside
  have leftWritten : ∀ k < n, memRead t.stg.STG0 k ≠ none := fun k inFrames => by
    have : n ≤ ch.toNat * n := Nat.le_mul_of_pos_left n oneChannel
    rw [leftWords k inFrames]
    exact written (by omega)
  have rightWritten : ∀ k < n, memRead (rightSource t.stg).2 k ≠ none := fun k inFrames => by
    rw [rightWords k inFrames]
    split_ifs with stereo
    · have : 2 * n ≤ ch.toNat * n := Nat.mul_le_mul_right n stereo
      exact written (by omega)
    · have : n ≤ ch.toNat * n := Nat.le_mul_of_pos_left n oneChannel
      exact written (by omega)
  obtain ⟨l, leftDone⟩ := publish_answers .stg0 .wtL t.WT_L fits leftWritten
  obtain ⟨r, rightDone⟩ := publish_answers (rightSource t.stg).1 .wtR t.WT_R fits rightWritten
  have leftRead := publish_ok leftDone
  have rightRead := publish_ok rightDone
  rw [← frames] at leftDone rightDone
  refine ⟨_, ofExcept_next.mpr (wtCommit_of_whole active whole leftDone rightDone), ?_, rfl, fun k inFrames => ?_,
    fun k past => ?_⟩
  · rw [frame, ← frames]
    rfl
  · exact ⟨(leftRead k).trans ((if_pos inFrames).trans (leftWords k inFrames)),
      (rightRead k).trans ((if_pos inFrames).trans (rightWords k inFrames))⟩
  · have beyond : ¬ k < n := Nat.not_lt.mpr past
    exact ⟨(leftRead k).trans ((if_neg beyond).trans (by rw [tables.1])),
      (rightRead k).trans ((if_neg beyond).trans (by rw [tables.2]))⟩

end Load

/-- A frame count within the capacity fits its data word (R6). -/
theorem toNat_ofNat_of_le_wtCap {P : Params} {n : Nat} (fits : n ≤ P.wtCap) : (BitVec.ofNat 64 n).toNat = n := by
  have raw := P.wtCapRaw.isLt
  have cap : P.wtCap < 2 ^ 53 := max_lt (by decide) raw
  rw [BitVec.toNat_ofNat]
  omega

/-- Settles O29: the load is opened, its samples are staged one by one, and the whole is published. -/
theorem loadPublishesTable : Obligations.LoadPublishesTable := by
  intro ch n xs s channel fits size finite
  have oneChannel : 0 < ch.toNat := Nat.pos_of_ne_zero fun zero => channel (BitVec.eq_of_toNat_eq zero)
  have frames : xs.length / ch.toNat = n := by rw [size, Nat.mul_div_cancel_left n oneChannel]
  obtain ⟨opened, beginRan, begun⟩ := staged_of_begin channel fits (toNat_ofNat_of_le_wtCap fits) xs s
  obtain ⟨full, pushesRan, pushed⟩ := staged_pushes fits size finite (done := []) rfl begun
  obtain ⟨t, commitRan, published⟩ := staged_commit channel fits size pushed
  refine ⟨t, ?_, published⟩
  rw [loadWavetable, frames, List.cons_append, runCommands_cons beginRan, runCommands_append pushesRan,
    runCommands_cons commitRan]
  rfl

end Sys2Proof.Proofs

/-! What a sample step leaves in every unit, in `OUT` and in the fault record (R196): the record of each operation, composed in
the order of the operations. -/

namespace Sys2Proof.Proofs

open Sys2Proof.Machine Sys2Proof.Claim

/-- The fault record of a state (R29). -/
def recordOf (s : State) : BitVec 16 × BitVec 40 := (s.FAULTS, s.FAULT_INFO)

/-- A fault recorded where a condition holds (R262). -/
def recordIf (c : Bool) (cw : CmdWord) (code : FaultCode) (r : BitVec 16 × BitVec 40) : BitVec 16 × BitVec 40 :=
  if c then (r.1 ||| faultBit code, if r.1 = 0#16 then faultWord code cw else r.2) else r

/-- The record of a fault raised where a condition holds. -/
theorem recordOf_raiseIf (c : Bool) (cw : CmdWord) (code : FaultCode) (s : State) :
    recordOf (raiseIf c cw code s) = recordIf c cw code (recordOf s) := by
  cases c <;> rfl

/-- Two occasions of one fault of one command are one occasion (R262). -/
theorem recordIf_recordIf (a b : Bool) (cw : CmdWord) (code : FaultCode) (r : BitVec 16 × BitVec 40) :
    recordIf b cw code (recordIf a cw code r) = recordIf (a || b) cw code r := by
  cases a
  · rfl
  cases b
  · rfl
  have bitSet : r.1 ||| faultBit code ≠ 0#16 := fun zero => faultBit_ne_zero code (BitVec.or_eq_zero_iff.mp zero).2
  have sameBit : r.1 ||| faultBit code ||| faultBit code = r.1 ||| faultBit code := by rw [BitVec.or_assoc, BitVec.or_self]
  simp only [recordIf, Bool.or_self, if_true, if_neg bitSet, sameBit]

/-! ### The drain -/

/-- A message that is no note-on of some velocity takes a pitch away if it is of status 8 or 9, and else does nothing
(R198, R201). -/
theorem midiEvent_of_not_on {ev : MidiEvent} (notOn : ¬ (ev.status.toNat / 16 = 9 ∧ ev.d2 ≠ 0#8)) (P : Params) (s : State) :
    midiEvent P ev s = if ev.status.toNat / 16 = 8 ∨ ev.status.toNat / 16 = 9 then noteOffEv ev.d1 s else s := by
  obtain ⟨classified, -⟩ := noteOnEffect
  rw [classified, if_neg notOn]
  refine if_congr (or_congr_right ?_) rfl rfl
  exact ⟨And.left, fun nine => ⟨nine, by_contra fun velocity => notOn ⟨nine, velocity⟩⟩⟩

/-- A note-off takes the pitch off the stack and records nothing (R201). -/
theorem noteOffEv_stack (pitch : Byte) (s : State) :
    (noteOffEv pitch s).NS = removeLast s.NS pitch ∧ recordOf (noteOffEv pitch s) = recordOf s := by
  unfold noteOffEv
  dsimp only
  split_ifs <;> exact ⟨rfl, rfl⟩

/-- A note-on holds its pitch, or finds the stack full and records NOTE_OVERFLOW (R200, R268). -/
theorem noteOnEv_stack (P : Params) (pitch : Byte) (s : State) :
    (noteOnEv P pitch s).NS = (if P.noteCap ≤ s.NS.length then s.NS else s.NS ++ [pitch]) ∧
    recordOf (noteOnEv P pitch s) =
      recordIf (decide (P.noteCap ≤ s.NS.length)) s.blk.BLK_CW .noteOverflow (recordOf s) := by
  unfold noteOnEv
  by_cases full : P.noteCap ≤ s.NS.length
  · simp only [if_pos full, decide_eq_true full]
    exact ⟨rfl, rfl⟩
  · simp only [if_neg full, decide_eq_false full]
    split_ifs <;> exact ⟨rfl, rfl⟩

/-- A delivered event changes the note stack and the record as the stack says (R198, R200, R201, R268). -/
theorem midiEvent_stack (P : Params) (ev : MidiEvent) (s : State) :
    (midiEvent P ev s).NS = (stackEvent P.noteCap s.NS ev).1 ∧
    recordOf (midiEvent P ev s) =
      recordIf (stackEvent P.noteCap s.NS ev).2 s.blk.BLK_CW .noteOverflow (recordOf s) := by
  unfold stackEvent
  by_cases noteOn : ev.status.toNat / 16 = 9 ∧ ev.d2 ≠ 0#8
  · obtain ⟨classified, -⟩ := noteOnEffect
    obtain ⟨stack, record⟩ := noteOnEv_stack P ev.d1 s
    rw [classified, if_pos noteOn, if_pos noteOn, stack, record]
    by_cases full : P.noteCap ≤ s.NS.length
    · simp only [if_pos full, decide_eq_true full, true_and]
    · simp only [if_neg full, decide_eq_false full, true_and]
  · rw [midiEvent_of_not_on noteOn, if_neg noteOn]
    split_ifs with noteOff
    · exact noteOffEv_stack ev.d1 s
    · exact ⟨rfl, rfl⟩

/-- Delivering events leaves the sequencer. -/
theorem midiEvent_blk (P : Params) (ev : MidiEvent) (s : State) : (midiEvent P ev s).blk = s.blk := by
  rw [midiEvent_frame]

/-- Delivered events change the note stack and the record as the stack says. -/
theorem foldl_midiEvent_stack (P : Params) (events : List MidiEvent) (s : State) :
    (events.foldl (fun t ev => midiEvent P ev t) s).NS = (stackEvents P.noteCap events s.NS).1 ∧
    recordOf (events.foldl (fun t ev => midiEvent P ev t) s) =
      recordIf (stackEvents P.noteCap events s.NS).2 s.blk.BLK_CW .noteOverflow (recordOf s) := by
  induction events generalizing s with
  | nil => exact ⟨rfl, rfl⟩
  | cons ev rest ih =>
    obtain ⟨stack, record⟩ := midiEvent_stack P ev s
    obtain ⟨restStack, restRecord⟩ := ih (midiEvent P ev s)
    rw [List.foldl_cons, restStack, restRecord, stack, record, midiEvent_blk, recordIf_recordIf]
    exact ⟨rfl, rfl⟩

/-- The due events of a sample step (R197). -/
def dueEvents (s : State) : List MidiEvent := s.MQ.takeWhile fun ev => ev.offset.toNat ≤ s.blk.BLK_S.toNat

/-- The drain changes the note stack and the record as the due events say (R197, R268). -/
theorem midiDrain_stack (P : Params) (s : State) :
    (midiDrain P s).NS = (stackEvents P.noteCap (dueEvents s) s.NS).1 ∧
    recordOf (midiDrain P s) =
      recordIf (stackEvents P.noteCap (dueEvents s) s.NS).2 s.blk.BLK_CW .noteOverflow (recordOf s) := by
  rw [drainDelivers]
  exact foldl_midiEvent_stack P (dueEvents s) s

/-! ### The record of the later operations -/

/-- The ramp ticks record NUMERIC where one of them leaves the finite values (R113). -/
theorem recordOf_tickRamps (s : State) :
    recordOf (tickRamps s) =
      recordIf (rampTickFaults s.DT s.RMP_MOD || rampTickFaults s.DT s.RMP_RATE || rampTickFaults s.DT s.RMP_RANGE ||
        rampTickFaults s.DT s.RMP_SHAPE) s.blk.BLK_CW .numeric (recordOf s) := by
  have unchanged (s : State) (a b c d : Ramp) :
      recordOf { s with RMP_MOD := a, RMP_RATE := b, RMP_RANGE := c, RMP_SHAPE := d } = recordOf s := rfl
  unfold tickRamps
  simp only [recordOf_raiseIf, unchanged]
  simp only [raiseIf_DT, raiseIf_RMP_RATE, raiseIf_RMP_RANGE, raiseIf_RMP_SHAPE, raiseIf_blk, recordIf_recordIf]

/-- The phase advance records NUMERIC where the sum is not finite (R155). -/
theorem recordOf_phaseAdvance (freq : F64) (s : State) :
    recordOf (phaseAdvance freq s) =
      recordIf (!isFinite (phaseSum freq s.DT s.OSC_PHASE)) s.blk.BLK_CW .numeric (recordOf s) := by
  unfold phaseAdvance
  dsimp only
  split_ifs with finite
  · rw [finite]
    rfl
  · rw [Bool.eq_false_iff.mpr finite]
    rfl

/-- A shaper step records NUMERIC where the mapped position is not finite (R169). -/
theorem recordOf_shaperStep (P : Params) (c : Side) (p : F64) (s : State) :
    recordOf (shaperStep P c p s) = recordIf (!isFinite (shaperMap p)) s.blk.BLK_CW .numeric (recordOf s) := by
  rw [← recordOf_raiseIf]
  cases c <;> rfl

/-- Writing the frame records NUMERIC where a left or right value that is written is not finite (R189). -/
theorem recordOf_writeFrame (left right : F64) (s : State) :
    recordOf (writeFrame left right s) =
      recordIf ((decide (1 ≤ s.blk.BLK_C.toNat) && !isFinite left) || (decide (2 ≤ s.blk.BLK_C.toNat) && !isFinite right))
        s.blk.BLK_CW .numeric (recordOf s) := by
  rw [writeFrame, foldl_writeChannel_eq, ← recordOf_raiseIf]
  have bad : ((List.range s.blk.BLK_C.toNat).any fun c => !isFinite (channelValue left right c)) =
      ((decide (1 ≤ s.blk.BLK_C.toNat) && !isFinite left) || (decide (2 ≤ s.blk.BLK_C.toNat) && !isFinite right)) := by
    rw [Bool.eq_iff_iff, any_channelValue_not_finite]
    simp
  rw [bad]
  rfl

/-! ### The sample step -/

/-- The state after operations 1 to 6 of a sample step, as an update of the state after the drain (R196). -/
theorem sampleScrub_eq (P : Params) (s : State) :
    (sampleScrub P s).2 = phaseAdvance (rampTick s.DT s.RMP_MOD).cur
      (noiseStep P s.par.P_TINT (rampTick s.DT (midiDrain P s).RMP_RATE).cur (tickRamps (midiDrain P s))) := by
  unfold sampleScrub
  dsimp only
  rw [tickRamps_frame, midiDrain_frame]
  rfl

/-- The faults of operations 2 to 6 of a sample step (R271). -/
def scrubFaults (P : Params) (s : State) : Bool :=
  rampTickFaults s.DT s.RMP_MOD || rampTickFaults s.DT (midiDrain P s).RMP_RATE || rampTickFaults s.DT s.RMP_RANGE ||
    rampTickFaults s.DT s.RMP_SHAPE || !isFinite (phaseSum (rampTick s.DT s.RMP_MOD).cur s.DT s.OSC_PHASE)

/-- The record after operations 1 to 6 of a sample step. -/
theorem recordOf_sampleScrub (P : Params) (s : State) :
    recordOf (sampleScrub P s).2 =
      recordIf (scrubFaults P s) s.blk.BLK_CW .numeric (recordOf (midiDrain P s)) := by
  have noise (tint : Tint) (rate : F64) (u : State) : recordOf (noiseStep P tint rate u) = recordOf u := rfl
  rw [sampleScrub_eq, recordOf_phaseAdvance, noise, recordOf_tickRamps]
  simp only [noiseStep_DT, noiseStep_OSC_PHASE, noiseStep_blk]
  rw [tickRamps_frame]
  dsimp only
  rw [recordIf_recordIf, scrubFaults]
  rw [midiDrain_frame]


/-- The queue, the note stack and the noise unit after operations 1 to 6 of a sample step. -/
theorem sampleScrub_queue_noise (P : Params) (s : State) :
    (sampleScrub P s).2.MQ = (s.MQ.dropWhile fun ev => ev.offset.toNat ≤ s.blk.BLK_S.toNat) ∧
    (sampleScrub P s).2.NS = (midiDrain P s).NS ∧
    (sampleScrub P s).2.NOISE_ST = (noiseDraw P s.par.P_TINT (rampTick s.DT (midiDrain P s).RMP_RATE).cur s).1 ∧
    (sampleScrub P s).2.DRAWS = s.DRAWS + 1 ∧
    (sampleScrub P s).2.OSC_PHASE = (phaseAdvance (rampTick s.DT s.RMP_MOD).cur s).OSC_PHASE := by
  unfold sampleScrub
  dsimp only
  rw [phaseAdvance_frame _ s, phaseAdvance_frame, tickRamps_frame, midiDrain_frame]
  exact ⟨rfl, rfl, rfl, rfl, rfl⟩

/-- The state after operations 1 to 6 of a sample step, but for the fault record (R196). -/
theorem sampleScrub_state (P : Params) (s : State) :
    (sampleScrub P s).2 =
      { s with
        MQ := s.MQ.dropWhile fun ev => ev.offset.toNat ≤ s.blk.BLK_S.toNat
        NS := (midiDrain P s).NS
        env := (midiDrain P s).env
        RMP_MOD := rampTick s.DT s.RMP_MOD
        RMP_RATE := rampTick s.DT (midiDrain P s).RMP_RATE
        RMP_RANGE := rampTick s.DT s.RMP_RANGE
        RMP_SHAPE := rampTick s.DT s.RMP_SHAPE
        NOISE_ST := (noiseDraw P s.par.P_TINT (rampTick s.DT (midiDrain P s).RMP_RATE).cur s).1
        DRAWS := s.DRAWS + 1
        OSC_PHASE := (phaseAdvance (rampTick s.DT s.RMP_MOD).cur s).OSC_PHASE
        FAULTS := (sampleScrub P s).2.FAULTS
        FAULT_INFO := (sampleScrub P s).2.FAULT_INFO } := by
  obtain ⟨queue, notes, noise, draws, phase⟩ := sampleScrub_queue_noise P s
  obtain ⟨mod, rate, range, shape⟩ := sampleScrub_ramps P s
  have frame := sampleScrub_frame P s
  rw [queue, notes, noise, draws, phase, mod, rate, range, shape, sampleScrub_env] at frame
  exact frame

/-- What the two shaper steps at one position change: the two map values, and a fault may be recorded. -/
theorem shaperSteps_frame (P : Params) (p : F64) (s : State) :
    shaperStep P .right p (shaperStep P .left p s) =
      { s with
        SHP_LAST_L := shaperPosition P.edgeMode p
        SHP_LAST_R := shaperPosition P.edgeMode p
        FAULTS := (shaperStep P .right p (shaperStep P .left p s)).FAULTS
        FAULT_INFO := (shaperStep P .right p (shaperStep P .left p s)).FAULT_INFO } := by
  unfold shaperStep raiseIf
  dsimp only
  split <;> rfl

/-- The state after both shapers, but for the fault record (R196, operations 1 to 7). -/
theorem sampleShaped_state (P : Params) (s : State) :
    sampleShaped P s =
      { s with
        MQ := s.MQ.dropWhile fun ev => ev.offset.toNat ≤ s.blk.BLK_S.toNat
        NS := (midiDrain P s).NS
        env := (midiDrain P s).env
        RMP_MOD := rampTick s.DT s.RMP_MOD
        RMP_RATE := rampTick s.DT (midiDrain P s).RMP_RATE
        RMP_RANGE := rampTick s.DT s.RMP_RANGE
        RMP_SHAPE := rampTick s.DT s.RMP_SHAPE
        NOISE_ST := (noiseDraw P s.par.P_TINT (rampTick s.DT (midiDrain P s).RMP_RATE).cur s).1
        DRAWS := s.DRAWS + 1
        OSC_PHASE := (phaseAdvance (rampTick s.DT s.RMP_MOD).cur s).OSC_PHASE
        SHP_LAST_L := shaperPosition P.edgeMode (sampleScrub P s).1
        SHP_LAST_R := shaperPosition P.edgeMode (sampleScrub P s).1
        FAULTS := (sampleShaped P s).FAULTS
        FAULT_INFO := (sampleShaped P s).FAULT_INFO } :=
  (shaperSteps_frame P (sampleScrub P s).1 (sampleScrub P s).2).trans
    (congrArg (fun u : State =>
      { u with
        SHP_LAST_L := shaperPosition P.edgeMode (sampleScrub P s).1
        SHP_LAST_R := shaperPosition P.edgeMode (sampleScrub P s).1
        FAULTS := (sampleShaped P s).FAULTS
        FAULT_INFO := (sampleShaped P s).FAULT_INFO }) (sampleScrub_state P s))

/-- What the output operations change: the envelope ticks, `OUT` is written, and a fault may be recorded. -/
theorem sampleOutput_frame (yL yR : F64) (s : State) :
    sampleOutput yL yR s =
      { s with
        env := envTick s.par s.DT s.env
        OUT := (sampleOutput yL yR s).OUT
        FAULTS := (sampleOutput yL yR s).FAULTS
        FAULT_INFO := (sampleOutput yL yR s).FAULT_INFO } :=
  writeFrame_frame _ _ (tickEnvelope s)

/-- The state after a sample step, but for `OUT` and the fault record (R196). -/
theorem sampleStep_state {P : Params} {s t : State} (stepped : sampleStep P s = .ok t) :
    t =
      { s with
        MQ := s.MQ.dropWhile fun ev => ev.offset.toNat ≤ s.blk.BLK_S.toNat
        NS := (midiDrain P s).NS
        env := envTick s.par s.DT (midiDrain P s).env
        RMP_MOD := rampTick s.DT s.RMP_MOD
        RMP_RATE := rampTick s.DT (midiDrain P s).RMP_RATE
        RMP_RANGE := rampTick s.DT s.RMP_RANGE
        RMP_SHAPE := rampTick s.DT s.RMP_SHAPE
        NOISE_ST := (noiseDraw P s.par.P_TINT (rampTick s.DT (midiDrain P s).RMP_RATE).cur s).1
        DRAWS := s.DRAWS + 1
        OSC_PHASE := (phaseAdvance (rampTick s.DT s.RMP_MOD).cur s).OSC_PHASE
        SHP_LAST_L := shaperPosition P.edgeMode (sampleScrub P s).1
        SHP_LAST_R := shaperPosition P.edgeMode (sampleScrub P s).1
        OUT := t.OUT
        FAULTS := t.FAULTS
        FAULT_INFO := t.FAULT_INFO } := by
  obtain ⟨yL, yR, -, -, rfl⟩ := sampleStep_ok_iff.mp stepped
  exact (sampleOutput_frame yL yR (sampleShaped P s)).trans
    (congrArg (fun u : State =>
      { u with
        env := envTick u.par u.DT u.env
        OUT := (sampleOutput yL yR (sampleShaped P s)).OUT
        FAULTS := (sampleOutput yL yR (sampleShaped P s)).FAULTS
        FAULT_INFO := (sampleOutput yL yR (sampleShaped P s)).FAULT_INFO }) (sampleShaped_state P s))

/-- The record after both shapers: they are at one position, so NUMERIC is recorded of both or of neither (R169). -/
theorem recordOf_sampleShaped (P : Params) (s : State) :
    recordOf (sampleShaped P s) =
      recordIf (scrubFaults P s || !isFinite (shaperMap (sampleScrub P s).1)) s.blk.BLK_CW .numeric
        (recordOf (midiDrain P s)) := by
  have scrubBlk : (sampleScrub P s).2.blk = s.blk := by rw [sampleScrub_frame]
  rw [sampleShaped, recordOf_shaperStep, recordOf_shaperStep, recordOf_sampleScrub, shaperStep_left, scrubBlk,
    recordIf_recordIf, recordIf_recordIf, Bool.or_self]

/-- The record after the output operations (R189). -/
theorem recordOf_sampleOutput (yL yR : F64) (s : State) :
    recordOf (sampleOutput yL yR s) =
      recordIf ((decide (1 ≤ s.blk.BLK_C.toNat) &&
            !isFinite (outStage yL (envTick s.par s.DT s.env).ENV_OUT s.par.VOL_GAIN)) ||
          (decide (2 ≤ s.blk.BLK_C.toNat) &&
            !isFinite (outStage yR (envTick s.par s.DT s.env).ENV_OUT s.par.VOL_GAIN)))
        s.blk.BLK_CW .numeric (recordOf s) :=
  recordOf_writeFrame _ _ (tickEnvelope s)

/-- The record of a state in which a fault is recorded where a condition holds. -/
theorem recordOf_recorded (c : Bool) (cw : CmdWord) (code : FaultCode) (s : State) :
    recordOf (if c then recorded cw (faultNumber code) s else s) = recordIf c cw code (recordOf s) :=
  recordOf_raiseIf c cw code s

/-- What the host reads after a sample step (R188). -/
theorem hostRead_sampleStep {P : Params} (yL yR : F64) (s : State) (c : BitVec 4) (f : BitVec 20) :
    hostRead (sampleOutput yL yR (sampleShaped P s)) c f =
      if c.toNat < s.blk.BLK_C.toNat ∧ f = s.blk.BLK_S then
        some (outWord (channelValue (outStage yL (envTick s.par s.DT (midiDrain P s).env).ENV_OUT s.par.VOL_GAIN)
          (outStage yR (envTick s.par s.DT (midiDrain P s).env).ENV_OUT s.par.VOL_GAIN) c.toNat))
      else hostRead s c f := by
  rw [hostRead_sampleOutput, sampleShaped_state]
  rfl

/-- The record after a sample step with these results of the shapers (R268, R271). -/
theorem recordOf_sampleStep (P : Params) (yL yR : F64) (s : State) :
    recordOf (sampleOutput yL yR (sampleShaped P s)) =
      recordIf (scrubFaults P s || !isFinite (shaperMap (sampleScrub P s).1) ||
          (decide (1 ≤ s.blk.BLK_C.toNat) &&
            !isFinite (outStage yL (envTick s.par s.DT (midiDrain P s).env).ENV_OUT s.par.VOL_GAIN)) ||
          (decide (2 ≤ s.blk.BLK_C.toNat) &&
            !isFinite (outStage yR (envTick s.par s.DT (midiDrain P s).env).ENV_OUT s.par.VOL_GAIN)))
        s.blk.BLK_CW .numeric
        (recordIf (stackEvents P.noteCap (dueEvents s) s.NS).2 s.blk.BLK_CW .noteOverflow (recordOf s)) := by
  have shaped := sampleShaped_state P s
  have env : (sampleShaped P s).env = (midiDrain P s).env := by rw [shaped]
  have par : (sampleShaped P s).par = s.par := by rw [shaped]
  have dt : (sampleShaped P s).DT = s.DT := by rw [shaped]
  obtain ⟨-, drained⟩ := midiDrain_stack P s
  rw [recordOf_sampleOutput, recordOf_sampleShaped, env, par, dt, sampleShaped_blk, drained, recordIf_recordIf,
    ← Bool.or_assoc]

/-- Settles O50: the state after the step, then the record and the words of `OUT` of the shapers' results. -/
theorem sampleStepSignals : Obligations.SampleStepSignals := by
  intro P s t stepped d notes noise g p
  have state := sampleStep_state stepped
  have mod : t.RMP_MOD = rampTick s.DT s.RMP_MOD := congrArg State.RMP_MOD state
  have rate : t.RMP_RATE = rampTick s.DT d.RMP_RATE := congrArg State.RMP_RATE state
  have range : t.RMP_RANGE = rampTick s.DT s.RMP_RANGE := congrArg State.RMP_RANGE state
  have shape : t.RMP_SHAPE = rampTick s.DT s.RMP_SHAPE := congrArg State.RMP_SHAPE state
  have env : t.env = envTick s.par s.DT d.env := congrArg State.env state
  have held : t.NS = (midiDrain P s).NS := by rw [state]
  have queue : t.MQ = s.MQ.dropWhile fun ev => ev.offset.toNat ≤ s.blk.BLK_S.toNat := congrArg State.MQ state
  have draws : t.DRAWS = s.DRAWS + 1 := congrArg State.DRAWS state
  have noiseState := congrArg State.NOISE_ST state
  have phase := congrArg State.OSC_PHASE state
  have mapLeft := congrArg State.SHP_LAST_L state
  have mapRight := congrArg State.SHP_LAST_R state
  obtain ⟨stack, -⟩ := midiDrain_stack P s
  have position : (sampleScrub P s).1 = p := by
    rw [sampleScrub_position, ← rate, ← range, ← shape]
    rfl
  refine ⟨?_, held.trans stack, mod, rate, range, shape, ?_, draws, ?_, ?_, ?_, env, queue, ?_⟩
  · obtain ⟨yL, yR, left, right, outcome⟩ := sampleStep_ok_iff.mp stepped
    rw [position] at left right
    refine ⟨yL, yR, left, right, ?_⟩
    intro outLeft outRight numeric afterNotes record
    have recordEq : recordOf t = recordOf record :=
      calc
        recordOf t = recordIf numeric s.blk.BLK_CW .numeric (recordIf notes.2 s.blk.BLK_CW .noteOverflow (recordOf s)) := by
          rw [outcome, recordOf_sampleStep, position]
          simp only [numeric, outLeft, outRight, env, mod, scrubFaults]
          rfl
        _ = recordIf numeric s.blk.BLK_CW .numeric (recordOf afterNotes) :=
          congrArg _ (recordOf_recorded notes.2 s.blk.BLK_CW .noteOverflow s).symm
        _ = recordOf record := (recordOf_recorded numeric s.blk.BLK_CW .numeric afterNotes).symm
    refine ⟨congrArg Prod.fst recordEq, congrArg Prod.snd recordEq, fun c f => ?_⟩
    rw [← outAddress_toNat, ← outWord_channelValue]
    simp only [outLeft, outRight, env]
    rw [outcome]
    exact hostRead_sampleStep yL yR s c f
  · rw [noiseState, ← rate]
    rfl
  · rw [mod]
    exact phase
  · rw [← position]
    exact mapLeft
  · rw [← position]
    exact mapRight
  · refine state.trans ?_
    rw [mod, rate, range, shape, noiseState, draws, phase, mapLeft, mapRight, env, held, queue]

end Sys2Proof.Proofs

/-! What a command can do, said once for every command (R272): it is refused, it answers, or it makes its one write. -/

namespace Sys2Proof.Proofs

open Sys2Proof.Machine Sys2Proof.Claim

/-! ### The growth of the fault record -/

/-- One fault recorded (R262). -/
def Raises (r r' : BitVec 16 × BitVec 40) : Prop := ∃ cw code, r' = recordIf true cw code r

/-- Faults recorded, any number of them. -/
def RecordGrows (r r' : BitVec 16 × BitVec 40) : Prop := Relation.ReflTransGen Raises r r'

/-- The record has grown from itself. -/
theorem recordGrows_refl (r : BitVec 16 × BitVec 40) : RecordGrows r r := Relation.ReflTransGen.refl

/-- A fault recorded where a condition holds lets the record grow. -/
theorem RecordGrows.recordIf {r r' : BitVec 16 × BitVec 40} (grown : RecordGrows r r') (c : Bool) (cw : CmdWord)
    (code : FaultCode) : RecordGrows r (recordIf c cw code r') := by
  cases c
  · exact grown
  · exact grown.tail ⟨cw, code, rfl⟩

/-- A property of records that every recorded fault keeps. -/
theorem RecordGrows.keeps {r r' : BitVec 16 × BitVec 40} {I : BitVec 16 × BitVec 40 → Prop}
    (raise : ∀ r cw code, I r → I (Proofs.recordIf true cw code r)) (grown : RecordGrows r r') (initial : I r) : I r' := by
  induction grown with
  | refl => exact initial
  | tail _ raised ih =>
    obtain ⟨cw, code, rfl⟩ := raised
    exact raise _ cw code ih

/-- A growing record keeps its bits and its first fault (R29, R262, R274). -/
theorem RecordGrows.sticky {r r' : BitVec 16 × BitVec 40} (grown : RecordGrows r r') :
    r.1 &&& r'.1 = r.1 ∧ (r.1 ≠ 0#16 → r'.2 = r.2) := by
  refine grown.keeps (I := fun x => r.1 &&& x.1 = r.1 ∧ (r.1 ≠ 0#16 → x.2 = r.2)) ?_ ⟨BitVec.and_self, fun _ => rfl⟩
  rintro x cw code ⟨bits, first⟩
  refine ⟨?_, fun faulted => ?_⟩
  · calc
      r.1 &&& (x.1 ||| faultBit code) = (r.1 &&& x.1) ||| (r.1 &&& faultBit code) := BitVec.and_or_distrib_left
      _ = r.1 := by rw [bits]; ext i hi; simp; tauto
  · have recorded : x.1 ≠ 0#16 := fun zero => faulted (by rw [← bits, zero, BitVec.and_zero])
    exact (if_neg recorded).trans (first faulted)

/-- A well-formed record: only bits 0 to 7 are set, and the first fault is 0 exactly while none is (R29, R45). -/
structure RecordWf (r : BitVec 16 × BitVec 40) : Prop where
  bits : r.1 >>> 8 = 0#16
  first : r.1 = 0#16 ↔ r.2 = 0#40

/-- Recording faults keeps a record well-formed. -/
theorem RecordGrows.wf {r r' : BitVec 16 × BitVec 40} (grown : RecordGrows r r') (wf : RecordWf r) : RecordWf r' := by
  refine grown.keeps (I := RecordWf) (fun x cw code formed => ?_) wf
  have low : faultBit code >>> 8 = 0#16 := by cases code <;> decide
  have bitSet : x.1 ||| faultBit code ≠ 0#16 := fun zero => faultBit_ne_zero code (BitVec.or_eq_zero_iff.mp zero).2
  have firstSet : (if x.1 = 0#16 then faultWord code cw else x.2) ≠ 0#40 := by
    split_ifs with none
    · exact faultWord_ne_zero code cw
    · exact mt formed.first.mpr none
  exact ⟨by rw [Proofs.recordIf, if_pos rfl, BitVec.ushiftRight_or_distrib, formed.bits, low, BitVec.or_self],
    iff_of_false bitSet firstSet⟩

/-! ### The effects -/

/-- Only the noise parameters, their ramps, the dial register and the fault record have changed, and that has grown. -/
structure NoiseMoved (s t : State) : Prop where
  frame : t = { s with
    par := { s.par with
      P_MOD := t.par.P_MOD, P_RATE := t.par.P_RATE, P_RANGE := t.par.P_RANGE, P_SHAPE := t.par.P_SHAPE
      P_SNAPSHOT := t.par.P_SNAPSHOT }
    RMP_MOD := t.RMP_MOD, RMP_RATE := t.RMP_RATE, RMP_RANGE := t.RMP_RANGE, RMP_SHAPE := t.RMP_SHAPE
    FAULTS := t.FAULTS, FAULT_INFO := t.FAULT_INFO }
  grown : RecordGrows (recordOf s) (recordOf t)

/-- What a command can do to a state: one constructor per write that a command makes. -/
inductive CommandEffect (s : State) : Instr → State → Prop where
  | answered (i : Instr) (v : Word) : CommandEffect s i (respond v s)
  | refused (i : Instr) (cw : CmdWord) (code : FaultCode) : CommandEffect s i (refuse cw code s)
  | reset {bs : BitVec 24} {sr : F64} (onAudio : s.PORT ≠ .control) (inDomain : resetOperands bs sr = true) :
    CommandEffect s (.reset bs sr) (respond 0#64
      { s with SR := sr, DT := fdiv f1 sr, BLOCK_SIZE := bs, MQ := [], NS := [], env := envStopped, READY := true })
  | started {n : BitVec 20} {c : BitVec 4} (onAudio : s.PORT ≠ .control) (ready : s.READY = true) (cw : CmdWord) :
    CommandEffect s (.processBlock n c)
      { s with blk := { BLK_ACTIVE := true, BLK_S := 0#20, BLK_N := n, BLK_C := c, BLK_CW := cw } }
  | queued {st d1 d2 : Byte} {off : Word} (onAudio : s.PORT ≠ .control) (room : s.MQ.length < s.BLOCK_SIZE.toNat) :
    CommandEffect s (.midiMsg st d1 d2 off)
      (respond 0#64 { s with MQ := queueInsert s.MQ { offset := off, status := st, d1 := d1, d2 := d2 } })
  | stopped : CommandEffect s .envStop (respond 0#64 { s with env := envStopped })
  | volume {v gain : F64} (power : gain = pow64 Config.params f10 (fdiv v f20)) (finite : isFinite gain = true) :
    CommandEffect s (.setVolume v) (respond 0#64 { s with par := { s.par with P_VOLUME := v, VOL_GAIN := gain } })
  | attack {v : F64} (finite : isFinite v = true) :
    CommandEffect s (.setAttack v) (respond 0#64 { s with par := { s.par with P_ATTACK := v } })
  | decay {v : F64} (finite : isFinite v = true) :
    CommandEffect s (.setDecay v) (respond 0#64 { s with par := { s.par with P_DECAY := v } })
  | sustain {v : F64} (finite : isFinite v = true) :
    CommandEffect s (.setSustain v) (respond 0#64 { s with par := { s.par with P_SUSTAIN := sustainOperand v } })
  | release {v : F64} (finite : isFinite v = true) :
    CommandEffect s (.setRelease v) (respond 0#64 { s with par := { s.par with P_RELEASE := v } })
  | tint {v : F64} (t : Tint) : CommandEffect s (.setNoiseTint v) (respond 0#64 { s with par := { s.par with P_TINT := t } })
  | mod {v : F64} : CommandEffect s (.setNoiseMod v) (respond 0#64 (applyMod v s))
  | rate {v : F64} : CommandEffect s (.setNoiseRate v) (respond 0#64 (applyRate v s))
  | range {v : F64} : CommandEffect s (.setNoiseRange v) (respond 0#64 (applyRange v s))
  | shape {v : F64} : CommandEffect s (.setNoiseShape v) (respond 0#64 (applyShape v s))
  | dialled {v : F64} {t : State} (moved : NoiseMoved s t) : CommandEffect s (.setNoiseSnapshot v) (respond 0#64 t)
  | captured {k : BitVec 4} (slots : Vector Snapshot 8) :
    CommandEffect s (.updateNoiseSnapshot k) (respond 0#64 { s with SNAP := slots })
  | opened {c : BitVec 4} {n : Word} (channel : c ≠ 0#4) (fits : n.toNat ≤ Config.params.wtCap) :
    CommandEffect s (.wtBegin c n) (respond 0#64
      { s with stg := { s.stg with STG_ACTIVE := true, STG_CH := c, STG_N := n.toNat, STG_COUNT := 0 } })
  | pushed {v : F64} {g : Staging} (finite : isFinite v = true) (active : s.stg.STG_ACTIVE = true)
    (short : s.stg.STG_COUNT < loadSize s.stg) (staged : pushSample Config.params.wtCap v s.stg = .ok g) :
    CommandEffect s (.wtPush v) (respond 0#64 { s with stg := g })
  | discarded (cw : CmdWord) :
    CommandEffect s .wtCommit (refuse cw .wtSequence { s with stg := { s.stg with STG_ACTIVE := false } })
  | committed {l r : Memory} (active : s.stg.STG_ACTIVE = true) (whole : s.stg.STG_COUNT = loadSize s.stg)
    (left : publish Config.params.wtCap .stg0 .wtL s.stg.STG0 s.stg.STG_N s.WT_L = .ok l)
    (right : publish Config.params.wtCap (rightSource s.stg).1 .wtR (rightSource s.stg).2 s.stg.STG_N s.WT_R = .ok r) :
    CommandEffect s .wtCommit (respond 0#64
      { s with WT_L := l, WT_R := r, WT_N := s.stg.STG_N, stg := { s.stg with STG_ACTIVE := false } })

section Checks

variable {s : State} {i : Instr} {cw : CmdWord} {run : State → State}

/-- A command behind the port check is refused, or it runs on AUDIO (R100). -/
theorem commandEffect_onAudio (ran : s.PORT ≠ .control → CommandEffect s i (run s)) :
    CommandEffect s i (onAudio cw s run) := by
  by_cases onControl : s.PORT = .control
  · rw [onAudio_control onControl]
    exact .refused i cw .illegalOp
  · rw [onAudio_of_ne_control onControl]
    exact ran onControl

/-- A command behind the readiness check is refused, or it runs when ready (R265). -/
theorem commandEffect_whenReady (ran : s.READY = true → CommandEffect s i (run s)) :
    CommandEffect s i (whenReady cw s run) := by
  rcases whenReady_cases cw s run with ⟨ready, eq⟩ | ⟨-, eq⟩ <;> rw [eq]
  · exact ran ready
  · exact .refused i cw .notReady

/-- A command behind a domain check is refused, or it runs with operands in their domain (R266). -/
theorem commandEffect_whenValid {valid : Bool} (ran : valid = true → CommandEffect s i (run s)) :
    CommandEffect s i (whenValid valid cw s run) := by
  rcases whenValid_cases valid cw s run with ⟨inDomain, eq⟩ | ⟨-, eq⟩ <;> rw [eq]
  · exact ran inDomain
  · exact .refused i cw .badArg

/-- A setter is refused, or it does its write and answers 0 (R223). -/
theorem commandEffect_withFinite {v : F64} (ran : isFinite v = true → CommandEffect s i (respond 0#64 (run s))) :
    CommandEffect s i (withFinite cw v s run) :=
  commandEffect_whenValid (run := fun s => respond 0#64 (run s)) ran

end Checks

/-- Applying one blended value, or recording NUMERIC, is a move of the noise parameters (R252). -/
theorem noiseMoved_applyBlended {s t : State} (moved : NoiseMoved s t) (cw : CmdWord) (x : F64)
    {apply : F64 → State → State} (applyMoves : ∀ t, NoiseMoved s t → NoiseMoved s (apply x t)) :
    NoiseMoved s (applyBlended cw x apply t) := by
  unfold applyBlended
  split_ifs with finite
  · exact applyMoves t moved
  · refine ⟨?_, moved.grown.recordIf true cw .numeric⟩
    conv_lhs => rw [moved.frame]
    rfl

/-- The four apply operations are moves of the noise parameters (R233). -/
theorem noiseMoved_apply {s t : State} (moved : NoiseMoved s t) (x : F64) :
    NoiseMoved s (applyMod x t) ∧ NoiseMoved s (applyRate x t) ∧ NoiseMoved s (applyRange x t) ∧
      NoiseMoved s (applyShape x t) := by
  have rate (r : Ramp) : { t with par := { t.par with P_RATE := x }, RMP_RATE := r } = _ :=
    congrArg (fun u : State => { u with par := { u.par with P_RATE := x }, RMP_RATE := r }) moved.frame
  refine ⟨⟨?_, moved.grown⟩, ⟨rate _, moved.grown⟩, ⟨?_, moved.grown⟩, ⟨?_, moved.grown⟩⟩
  · exact congrArg (applyMod x) moved.frame
  · exact congrArg (applyRange x) moved.frame
  · exact congrArg (applyShape x) moved.frame

/-- The dial's moves of the noise parameters (R249). -/
theorem commandEffect_setNoiseSnapshot (v : F64) (s : State) : CommandEffect s (.setNoiseSnapshot v) (setNoiseSnapshot v s) := by
  have dialled (c : F64) : NoiseMoved s { s with par := { s.par with P_SNAPSHOT := c } } := ⟨rfl, recordGrows_refl _⟩
  refine commandEffect_withFinite fun _ => .dialled ?_
  refine noiseMoved_applyBlended (noiseMoved_applyBlended (noiseMoved_applyBlended (noiseMoved_applyBlended
    (dialled _) _ _ ?_) _ _ ?_) _ _ ?_) _ _ ?_
  · exact fun t moved => (noiseMoved_apply moved _).1
  · exact fun t moved => (noiseMoved_apply moved _).2.1
  · exact fun t moved => (noiseMoved_apply moved _).2.2.1
  · exact fun t moved => (noiseMoved_apply moved _).2.2.2

/-- A note event is queued where there is room, and any other message of the domain is ignored (R202). -/
theorem commandEffect_midiMsg (st d1 d2 : Byte) (off : Word) (s : State) :
    CommandEffect s (.midiMsg st d1 d2 off) (midiMsg st d1 d2 off s) := by
  unfold midiMsg
  refine commandEffect_onAudio fun onAudio => ?_
  refine commandEffect_whenReady fun _ => ?_
  refine commandEffect_whenValid fun _ => ?_
  split_ifs with note full
  · exact .refused _ _ _
  · exact .queued onAudio (Nat.not_le.mp full)
  · exact .answered _ _

/-- A volume is written where it and its gain are finite (R224). -/
theorem commandEffect_setVolume (v : F64) (s : State) : CommandEffect s (.setVolume v) (setVolume Config.params v s) := by
  unfold setVolume
  refine commandEffect_whenValid fun _ => ?_
  exact commandEffect_whenValid fun finite => .volume rfl finite

/-- A tint is written where the operand selects one (R146). -/
theorem commandEffect_setNoiseTint (v : F64) (s : State) : CommandEffect s (.setNoiseTint v) (setNoiseTint v s) := by
  unfold setNoiseTint
  cases tintOperand v with
  | none => exact .refused _ _ _
  | some t => exact .tint t

/-- A load is opened where it has a channel and fits (R173). -/
theorem commandEffect_wtBegin (c : BitVec 4) (n : Word) (s : State) :
    CommandEffect s (.wtBegin c n) (wtBegin Config.params c n s) := by
  unfold wtBegin
  refine commandEffect_whenValid fun channel => ?_
  split_ifs with tooLong
  · exact .refused _ _ _
  · exact .opened (bne_iff_ne.mp channel) (Nat.not_lt.mp tooLong)

/-- A push that answers is refused or stages its sample (R174). -/
theorem commandEffect_wtPush {v : F64} {s t : State} (answered : wtPush Config.params v s = .ok t) :
    CommandEffect s (.wtPush v) t := by
  obtain ⟨-, rfl⟩ | ⟨-, -, rfl⟩ | ⟨finite, active, short, g, staged, rfl⟩ := wtPush_ok answered
  · exact .refused _ _ _
  · exact .refused _ _ _
  · exact .pushed finite active short staged

/-- A commit that answers is refused, discards a short load, or publishes a whole one (R175). -/
theorem commandEffect_wtCommit {s t : State} (answered : wtCommit Config.params s = .ok t) :
    CommandEffect s .wtCommit t := by
  obtain ⟨-, rfl⟩ | ⟨-, -, rfl⟩ | ⟨active, whole, l, r, left, right, rfl⟩ := wtCommit_ok answered
  · exact .refused _ _ _
  · exact .discarded _
  · exact .committed active whole left right

/-- The normalized getter answers, or is refused with BAD_ARG or NUMERIC (R255). -/
theorem commandEffect_getNoiseSnapshotNormalized (field : SnapField) (k : BitVec 4) (s : State) :
    CommandEffect s (.getNoiseSnapshotNormalized field k) (getNoiseSnapshotNormalized Config.params field k s) := by
  unfold getNoiseSnapshotNormalized
  refine commandEffect_whenValid fun _ => ?_
  dsimp only
  split_ifs with finite
  · exact .answered _ _
  · exact .refused _ _ _

/-- RESET with operands of the domain readies the block (R192). -/
theorem commandEffect_reset (bs : BitVec 24) (sr : F64) (s : State) : CommandEffect s (.reset bs sr) (resetCommand bs sr s) := by
  unfold resetCommand
  refine commandEffect_onAudio fun onAudio => ?_
  exact commandEffect_whenValid fun inDomain => .reset onAudio inDomain

/-- PROCESS_BLOCK starts its block when ready (R193). -/
theorem commandEffect_processBlock (n : BitVec 20) (c : BitVec 4) (s : State) :
    CommandEffect s (.processBlock n c) (processBlock n c s) := by
  unfold processBlock
  refine commandEffect_onAudio fun onAudio => ?_
  exact commandEffect_whenReady fun ready => .started onAudio ready _

/-- The effect of a command whose outcome is a state. -/
theorem effect_of_next {i : Instr} {s t u : State} (executed : (.next u : Host.Outcome State Fault Refusal) = .next t)
    (effect : CommandEffect s i u) : CommandEffect s i t :=
  Host.Outcome.next.inj executed ▸ effect

/-- Every command that completes has the effect of its row. -/
theorem exec_effect {i : Instr} {s t : State} (executed : exec i s = .next t) : CommandEffect s i t := by
  cases i with
  | wtPush v => exact commandEffect_wtPush (ofExcept_next.mp executed)
  | wtCommit => exact commandEffect_wtCommit (ofExcept_next.mp executed)
  | nop | getNoiseOffset | getNoiseRate | getShape | getShaperSize | getShaperMapValue | getStatus | getFaultInfo =>
    exact effect_of_next executed (.answered _ _)
  | reset bs sr => exact effect_of_next executed (commandEffect_reset bs sr s)
  | processBlock n c => exact effect_of_next executed (commandEffect_processBlock n c s)
  | midiMsg st d1 d2 off => exact effect_of_next executed (commandEffect_midiMsg st d1 d2 off s)
  | envStop => exact effect_of_next executed (commandEffect_onAudio fun _ => .stopped)
  | setVolume v => exact effect_of_next executed (commandEffect_setVolume v s)
  | setAttack v => exact effect_of_next executed (commandEffect_withFinite .attack)
  | setDecay v => exact effect_of_next executed (commandEffect_withFinite .decay)
  | setSustain v => exact effect_of_next executed (commandEffect_withFinite .sustain)
  | setRelease v => exact effect_of_next executed (commandEffect_withFinite .release)
  | setNoiseTint v => exact effect_of_next executed (commandEffect_setNoiseTint v s)
  | setNoiseMod v => exact effect_of_next executed (commandEffect_withFinite fun _ => .mod)
  | setNoiseRate v => exact effect_of_next executed (commandEffect_withFinite fun _ => .rate)
  | setNoiseRange v => exact effect_of_next executed (commandEffect_withFinite fun _ => .range)
  | setNoiseShape v => exact effect_of_next executed (commandEffect_withFinite fun _ => .shape)
  | setNoiseSnapshot v => exact effect_of_next executed (commandEffect_setNoiseSnapshot v s)
  | wtBegin c n => exact effect_of_next executed (commandEffect_wtBegin c n s)
  | updateNoiseSnapshot k => exact effect_of_next executed (commandEffect_whenValid fun _ => .captured _)
  | getNoiseSnapshot field k => exact effect_of_next executed (commandEffect_whenValid fun _ => .answered _ _)
  | getNoiseSnapshotNormalized field k => exact effect_of_next executed (commandEffect_getNoiseSnapshotNormalized field k s)

end Sys2Proof.Proofs

/-! What commands leave alone (R27 to R43), and what every step keeps: a property that the ports' own fields do not touch
is kept by a step if every command's effect, every sample event and every end event keeps it (R74). -/

namespace Sys2Proof.Proofs

open Sys2Proof.Machine Sys2Proof.Claim

/-- Settles O13: each write of a command stands in its effect, and the effect of a dial in its frame. -/
theorem commandWriters : Obligations.CommandWriters := by
  intro i s t executed
  cases exec_effect executed with
  | dialled moved =>
    rw [moved.frame]
    simp
  | _ => simp [refuse, applyMod, applyRate, applyRange, applyShape]

/-- The fault record grows with every command (R262, R274). -/
theorem CommandEffect.grown {i : Instr} {s t : State} (effect : CommandEffect s i t) :
    RecordGrows (recordOf s) (recordOf t) := by
  cases effect with
  | refused _ cw code => exact (recordGrows_refl _).recordIf true cw code
  | discarded cw => exact (recordGrows_refl _).recordIf true cw .wtSequence
  | dialled moved => exact moved.grown
  | _ => exact recordGrows_refl _

/-- No command clears READY (R27). -/
theorem CommandEffect.ready {i : Instr} {s t : State} (effect : CommandEffect s i t) (ready : s.READY = true) :
    t.READY = true := by
  cases effect with
  | reset => rfl
  | dialled moved =>
    rw [moved.frame]
    exact ready
  | _ => exact ready

/-- Only the ports' own fields differ: the streams, the responses, the port of the command and the merge's counter. -/
def SameBlock (s t : State) : Prop :=
  t = { s with
    RESP := t.RESP, AUDIO_IN := t.AUDIO_IN, CONTROL_IN := t.CONTROL_IN, AUDIO_RESP := t.AUDIO_RESP
    CONTROL_RESP := t.CONTROL_RESP, PORT := t.PORT, MERGES := t.MERGES }

/-- Counting a merge and taking a command change the ports' own fields alone, and record the port (R100). -/
theorem sameBlock_takeCommand (port : Port) (rest : List Byte) (s : State) :
    SameBlock s (takeCommand port rest (countMerge s)) ∧ (takeCommand port rest (countMerge s)).PORT = port := by
  rw [countMerge_eq]
  cases port <;> exact ⟨rfl, rfl⟩

/-- Counting a merge changes the ports' own fields alone. -/
theorem sameBlock_countMerge (s : State) : SameBlock s (countMerge s) := by
  rw [countMerge_eq]
  rfl

/-- Delivering a response changes the ports' own fields alone (R78). -/
theorem sameBlock_deliver (port : Port) (s : State) : SameBlock s (deliver port s) := by
  cases port <;> rfl

/-- So does finishing a command (R208). -/
theorem sameBlock_finishCommand (port : Port) (s : State) : SameBlock s (finishCommand port s) := by
  unfold finishCommand
  split_ifs
  · rfl
  · exact sameBlock_deliver port s

section Kept

variable {I : State → Prop} {s t : State}

/-- A property that the ports' own fields do not touch is kept by a command's event if it is kept by its effect. -/
theorem commandEvent_keeps (ports : ∀ s t, SameBlock s t → I s → I t) {port : Port}
    (command : ∀ rest i u, CommandEffect (takeCommand port rest (countMerge s)) i u →
      I (takeCommand port rest (countMerge s)) → I u)
    (initial : I s) (event : commandEvent port (countMerge s) = .next t) : I t := by
  have taken (rest : List Byte) : I (takeCommand port rest (countMerge s)) :=
    ports _ _ (sameBlock_takeCommand port rest s).1 initial
  obtain ⟨-, rfl⟩ | ⟨why, cw, rest, -, rfl⟩ | ⟨i, rest, u, -, executed, rfl⟩ := commandEvent_next event
  · exact ports _ _ (sameBlock_countMerge s) initial
  · refine ports _ _ (sameBlock_finishCommand port _) ?_
    exact command rest .nop _ (.refused .nop cw .illegalOp) (taken rest)
  · exact ports _ _ (sameBlock_finishCommand port u) (command rest i u (exec_effect executed) (taken rest))

/-- A property is kept by a step if it is kept by the ports' own fields, by every command's effect (on AUDIO with no block
running), by every sample event and by the end event of a block (R74, R193, R194). -/
theorem step_keeps (ports : ∀ s t, SameBlock s t → I s → I t)
    (command : ∀ s i u, (s.PORT ≠ .control → s.blk.BLK_ACTIVE = false) → CommandEffect s i u → I s → I u)
    (sample : ∀ s u, s.blk.BLK_ACTIVE = true → s.blk.BLK_S.toNat < s.blk.BLK_N.toNat →
      sampleStep Config.params s = .ok u → I s → I { u with blk := { u.blk with BLK_S := u.blk.BLK_S + 1#20 } })
    (ended : ∀ s, s.blk.BLK_ACTIVE = true → s.blk.BLK_N.toNat ≤ s.blk.BLK_S.toNat → I s → I (blockEnd s))
    (initial : I s) (stepped : step s = .next t) : I t := by
  have counted : I (countMerge s) := ports _ _ (sameBlock_countMerge s) initial
  have sameSequencer : (countMerge s).blk = s.blk := by rw [countMerge_eq]
  obtain ⟨-, rfl⟩ | ⟨-, event⟩ | ⟨-, active, event⟩ | ⟨-, idle, event⟩ := step_next stepped
  · exact initial
  · refine commandEvent_keeps ports (fun rest i u => command _ i u fun notControl => ?_) initial event
    exact absurd (sameBlock_takeCommand .control rest s).2 notControl
  · rw [← sameSequencer] at active
    obtain ⟨inside, sampled⟩ | ⟨past, rfl⟩ := blockEvent_next event
    · obtain ⟨u, answered, rfl⟩ := sampleEvent_ok.mp sampled
      exact sample _ u active inside answered counted
    · exact ports _ _ (sameBlock_deliver .audio _) (ended _ active past counted)
  · refine commandEvent_keeps ports (fun rest i u => command _ i u fun _ => ?_) initial event
    rw [(sameBlock_takeCommand .audio rest s).1]
    exact idle

end Kept

/-- A sample step lets the fault record grow (R271, R274). -/
theorem sampleStep_grown {P : Params} {s t : State} (stepped : sampleStep P s = .ok t) :
    RecordGrows (recordOf s) (recordOf t) := by
  obtain ⟨yL, yR, -, -, rfl⟩ := sampleStep_ok_iff.mp stepped
  rw [recordOf_sampleStep]
  exact ((recordGrows_refl _).recordIf _ _ .noteOverflow).recordIf _ _ .numeric

/-- What has happened since a state: its record has grown and READY has not been cleared. -/
structure Since (s t : State) : Prop where
  grown : RecordGrows (recordOf s) (recordOf t)
  ready : s.READY = true → t.READY = true

/-- Every step keeps what has happened (R274). -/
theorem step_since {s t : State} (stepped : step s = .next t) : Since s t := by
  refine step_keeps (I := Since s) ?_ ?_ ?_ ?_ ⟨recordGrows_refl _, id⟩ stepped
  · intro u v same since
    rw [same]
    exact ⟨since.grown, since.ready⟩
  · exact fun u i v _ effect since => ⟨since.grown.trans effect.grown, fun ready => effect.ready (since.ready ready)⟩
  · intro u v _ _ answered since
    have kept : v.READY = u.READY := by rw [sampleStep_state answered]
    have grown := sampleStep_grown answered
    exact ⟨since.grown.trans grown, fun ready => kept.trans (since.ready ready)⟩
  · exact fun u _ _ since => ⟨since.grown, since.ready⟩

/-- Settles O12: the record that has grown keeps its bits and its first fault. -/
theorem faultsSticky : Obligations.FaultsSticky := by
  intro s t stepped
  obtain ⟨grown, ready⟩ := step_since stepped
  obtain ⟨bits, first⟩ := grown.sticky
  exact ⟨bits, first, ready⟩

end Sys2Proof.Proofs

/-! Every step keeps the invariant of memories, queue, faults and sequencer: first what the parts of a sample step keep, then
each command's effect, each sample event and the end event. -/

namespace Sys2Proof.Proofs

open Sys2Proof.Machine Sys2Proof.Claim

section Invariant

variable {P : Params} {s t : State}

/-! ### The fault record -/

/-- The fault record of a state with the invariant is well-formed. -/
theorem recordWf_of_inv (inv : Inv P s) : RecordWf (recordOf s) := ⟨inv.faultBits, inv.firstFault⟩

/-- A state with the invariant keeps it under a growing record. -/
theorem inv_of_grown (inv : Inv P s) (grown : RecordGrows (recordOf s) (recordOf t)) :
    Inv P { s with FAULTS := t.FAULTS, FAULT_INFO := t.FAULT_INFO } := by
  have wf := grown.wf (recordWf_of_inv inv)
  exact { inv with faultBits := wf.bits, firstFault := wf.first }

/-- A refusal keeps the invariant (R261). -/
theorem inv_of_refuse (inv : Inv P s) (cw : CmdWord) (code : FaultCode) : Inv P (refuse cw code s) := by
  have grown : RecordGrows (recordOf s) (recordOf (raiseFault cw code s)) := (recordGrows_refl _).recordIf true cw code
  exact { inv_of_grown inv grown with }

/-- Closing a load keeps the invariant. -/
theorem inv_of_closed (inv : Inv P s) : Inv P { s with stg := { s.stg with STG_ACTIVE := false } } :=
  { inv with
    loadShape := fun closed => nomatch closed
    stagedLeft := fun closed => nomatch closed
    stagedRight := fun closed => nomatch closed }

/-- The invariant does not look at the ports' own fields. -/
theorem inv_of_sameBlock (same : SameBlock s t) (inv : Inv P s) : Inv P t := by
  rw [same]
  exact { inv with }

/-! ### RESET -/

/-- The magnitude of a finite value is at most that of the square of `unitScale` units. -/
theorem units_le_unitScale_sq {x : F64} (finite : isFinite x = true) : units x ≤ (unitScale * unitScale : Nat) := by
  have largest : magUnits (infMag - 1) ≤ unitScale * unitScale := by decide +kernel
  have mag : magBits x ≤ infMag - 1 := Nat.le_sub_one_of_lt (of_decide_eq_true finite)
  have bound : ((magUnits (magBits x) : Nat) : Int) ≤ (unitScale * unitScale : Nat) :=
    Int.ofNat_le.mpr ((magUnits_mono mag).trans largest)
  unfold units
  split_ifs
  · exact (Int.neg_nonpos_of_nonneg (Int.natCast_nonneg _)).trans (Int.natCast_nonneg _)
  · exact bound

/-- The sample period of a sample rate that RESET accepts is finite and above zero (R192): the quotient of 1.0 by a finite
value is at least the smallest value above zero. -/
theorem period_of_resetOperands {bs : BitVec 24} {sr : F64} (inDomain : resetOperands bs sr = true) :
    isFinite (fdiv f1 sr) = true ∧ flt f0 (fdiv f1 sr) = true := by
  simp only [resetOperands, Bool.and_eq_true] at inDomain
  obtain ⟨⟨⟨finite, positive⟩, periodFinite⟩, -⟩ := inDomain
  have above : 0 < units sr := units_f0 ▸ (flt_iff_units isFinite_f0 finite).mp positive
  have leastFinite : isFinite 1#64 = true := by decide
  have leastUnits : units 1#64 = 1 := by decide +kernel
  have below : units 1#64 * ((units sr).toNat : Int) ≤ units f1 * unitScale := by
    rw [leastUnits, one_mul, units_f1, Int.toNat_of_nonneg above.le]
    exact_mod_cast units_le_unitScale_sq finite
  have least : fle 1#64 (fdiv f1 sr) = true :=
    (fdiv_rounds isFinite_f1 finite above).lower (by omega) leastFinite below
  have units := (fle_iff_units leastFinite periodFinite).mp least
  refine ⟨periodFinite, (flt_iff_units isFinite_f0 periodFinite).mpr ?_⟩
  rw [units_f0]
  omega

/-! ### The output memory -/

/-- The output word is finite (R189). -/
theorem isFinite_outWord (out : F64) : isFinite (outWord out) = true := by
  unfold outWord
  split_ifs with finite
  · exact finite
  · exact isFinite_f0

/-- `OUT` holds finite words at addresses of 24 bits (R64, R189). -/
def OutFinite (m : Memory) : Prop := ∀ c ∈ m, c.1 < 2 ^ 24 ∧ isFinite c.2 = true

/-- Writing a channel keeps `OUT` finite. -/
theorem outFinite_writeChannel (left right : F64) (k : Nat) (finite : OutFinite s.OUT) :
    OutFinite (writeChannel left right s k).OUT := by
  intro c listed
  rw [writeChannel_OUT] at listed
  obtain rfl | before := mem_memWrite listed
  · exact ⟨(outAddress _ _).isLt, isFinite_outWord _⟩
  · exact finite c before

/-- So does writing the frame. -/
theorem outFinite_writeFrame (left right : F64) (finite : OutFinite s.OUT) : OutFinite (writeFrame left right s).OUT := by
  unfold writeFrame
  generalize List.range s.blk.BLK_C.toNat = channels
  induction channels generalizing s with
  | nil => exact finite
  | cons k rest ih => exact ih (outFinite_writeChannel left right k finite)

/-- A sample step keeps `OUT` canonical and finite. -/
theorem sampleStep_OUT (stepped : sampleStep P s = .ok t) (wf : Memory.wf s.OUT = true) (finite : OutFinite s.OUT) :
    Memory.wf t.OUT = true ∧ OutFinite t.OUT := by
  obtain ⟨yL, yR, -, -, rfl⟩ := sampleStep_ok_iff.mp stepped
  have before : (tickEnvelope (sampleShaped P s)).OUT = s.OUT := by
    rw [tickEnvelope_OUT, sampleShaped_state]
  exact ⟨writeFrame_wf _ _ _ (before ▸ wf), outFinite_writeFrame _ _ (before ▸ finite)⟩

/-! ### The queue and the note stack -/

/-- A delivered event keeps the note stack within its capacity (R41). -/
theorem stackEvent_length (cap : Nat) {notes : List Byte} (within : notes.length ≤ cap) (ev : MidiEvent) :
    (stackEvent cap notes ev).1.length ≤ cap := by
  unfold stackEvent
  split_ifs with noteOn full noteOff
  · exact within
  · rw [List.length_append, List.length_singleton]
    omega
  · rw [List.length_reverse]
    exact (List.length_erase_le).trans ((List.length_reverse ..).trans_le within)
  · exact within

/-- So do delivered events. -/
theorem stackEvents_length (cap : Nat) (events : List MidiEvent) {notes : List Byte} (within : notes.length ≤ cap) :
    (stackEvents cap events notes).1.length ≤ cap := by
  induction events generalizing notes with
  | nil => exact within
  | cons ev rest ih => exact ih (stackEvent_length cap within ev)

/-- In a queue in order no event that the drain leaves is due (R197). -/
theorem not_due_of_left {q : List MidiEvent} (ordered : InOffsetOrder q) (sample : Nat) :
    ∀ ev ∈ q.dropWhile (fun ev => ev.offset.toNat ≤ sample), sample < ev.offset.toNat := by
  induction q with
  | nil => simp
  | cons x rest ih =>
    obtain ⟨first, restOrdered⟩ := List.pairwise_cons.mp ordered
    by_cases due : x.offset.toNat ≤ sample
    · rw [List.dropWhile_cons, if_pos (by simpa using due)]
      exact ih restOrdered
    · rw [List.dropWhile_cons, if_neg (by simpa using due)]
      exact List.forall_mem_cons.mpr ⟨Nat.not_le.mp due, fun y later => (Nat.not_le.mp due).trans_le (first y later)⟩

/-- Taking a frame count off offsets of at least that count keeps their order (R199). -/
theorem offsetCarry_ordered {n : BitVec 20} {q : List MidiEvent} (ordered : InOffsetOrder q)
    (toCome : ∀ ev ∈ q, n.toNat ≤ ev.offset.toNat) : InOffsetOrder (offsetCarry n q) := by
  refine List.pairwise_map.mpr (List.Pairwise.imp_of_mem ?_ ordered)
  intro a b inA inB le
  have carriedA := toNat_sub_frames (toCome a inA)
  have carriedB := toNat_sub_frames (toCome b inB)
  dsimp only
  omega

/-! ### Events of a running block -/

/-- A sample event keeps the invariant. -/
theorem inv_of_sampleEvent (inv : Inv P s) (active : s.blk.BLK_ACTIVE = true)
    (inside : s.blk.BLK_S.toNat < s.blk.BLK_N.toNat) (stepped : sampleStep P s = .ok t) :
    Inv P { t with blk := { t.blk with BLK_S := t.blk.BLK_S + 1#20 } } := by
  have state := sampleStep_state stepped
  have wf := (sampleStep_grown stepped).wf (recordWf_of_inv inv)
  obtain ⟨outWf, outFinite⟩ := sampleStep_OUT stepped inv.outWf inv.outFinite
  obtain ⟨notes, -⟩ := midiDrain_stack P s
  obtain ⟨ready, -, -⟩ := inv.running active
  have next : (s.blk.BLK_S + 1#20).toNat = s.blk.BLK_S.toNat + 1 := by
    have := s.blk.BLK_N.isLt
    rw [BitVec.toNat_add]
    exact Nat.mod_eq_of_lt (by simp; omega)
  have kept : Inv P { s with
      MQ := s.MQ.dropWhile fun ev => ev.offset.toNat ≤ s.blk.BLK_S.toNat
      NS := (midiDrain P s).NS, OUT := t.OUT, FAULTS := t.FAULTS, FAULT_INFO := t.FAULT_INFO
      blk := { s.blk with BLK_S := s.blk.BLK_S + 1#20 } } :=
    { inv with
      outWf := outWf
      outFinite := outFinite
      queueOrder := inv.queueOrder.sublist (List.dropWhile_sublist _)
      queueBound := (List.dropWhile_sublist _).length_le.trans inv.queueBound
      notesBound := notes ▸ stackEvents_length P.noteCap _ inv.notesBound
      faultBits := wf.bits
      firstFault := wf.first
      running := fun _ => ⟨ready, next.trans_le inside, fun ev left => by
        rw [next]
        exact not_due_of_left inv.queueOrder _ ev left⟩ }
  rw [state]
  exact { kept with }

/-- The end event keeps the invariant: every event left is at or after the frame count (R199). -/
theorem inv_of_blockEnd (inv : Inv P s) (active : s.blk.BLK_ACTIVE = true)
    (past : s.blk.BLK_N.toNat ≤ s.blk.BLK_S.toNat) : Inv P (blockEnd s) := by
  obtain ⟨-, -, toCome⟩ := inv.running active
  have carried : InOffsetOrder (offsetCarry s.blk.BLK_N s.MQ) :=
    offsetCarry_ordered inv.queueOrder fun ev queued => past.trans (toCome ev queued)
  have bound : (offsetCarry s.blk.BLK_N s.MQ).length ≤ s.BLOCK_SIZE.toNat :=
    (List.length_map ..).trans_le inv.queueBound
  exact { inv with queueOrder := carried, queueBound := bound, running := fun stopped => nomatch stopped }

/-! ### Wavetable loads -/

/-- Writing a finite value keeps the live words live. -/
theorem liveWord_memWrite {m : Memory} {a b : Nat} {v : F64} (finite : isFinite v = true) (live : b ≠ a → LiveWord m b) :
    LiveWord (memWrite m a v) b := by
  by_cases same : b = a
  · exact ⟨v, by rw [memRead_memWrite, if_pos same], finite⟩
  · obtain ⟨w, read, wFinite⟩ := live same
    exact ⟨w, by rw [memRead_memWrite, if_neg same, read], wFinite⟩

/-- A staging memory after a push has the live words it had, and the sample's if the sample is of its channel. -/
theorem liveWord_pushed {m : Memory} {own : Prop} [Decidable own] {f a : Nat} {v : F64} (finite : isFinite v = true)
    (live : ¬ (own ∧ a = f) → LiveWord m a) : LiveWord (if own then memWrite m f v else m) a := by
  split_ifs with isOwn
  · exact liveWord_memWrite finite fun other => live fun sample => other sample.2
  · exact live fun sample => isOwn sample.1

/-- Word k of a load with n frames is frame k of channel 0 below n, and frame k - n of channel 1 below 2 n. -/
theorem frame_of_channel {n k f c : Nat} (frame : f < n) (word : k = c * n + f) : k / n = c ∧ f = k % n := by
  subst word
  rw [Nat.mul_comm, Nat.mul_add_div (by omega), Nat.div_eq_of_lt frame, Nat.mul_add_mod, Nat.mod_eq_of_lt frame]
  exact ⟨rfl, rfl⟩

/-- A push into an open load that is short keeps the invariant: the new sample is the one word of its channel that was not
staged yet (R39, R67). -/
theorem inv_of_pushed {v : F64} {g : Staging} (inv : Inv P s) (finite : isFinite v = true)
    (active : s.stg.STG_ACTIVE = true) (short : s.stg.STG_COUNT < loadSize s.stg)
    (staged : pushSample P.wtCap v s.stg = .ok g) : Inv P { s with stg := g } := by
  obtain ⟨wf0, wf1⟩ := pushSample_wf inv.stg0Wf inv.stg1Wf staged
  obtain ⟨channel, fits, -⟩ := inv.loadShape active
  have pushed := pushSample_ok staged
  have kept : Inv P { s with stg := { s.stg with
      STG0 := if s.stg.STG_COUNT / s.stg.STG_N = 0 then memWrite s.stg.STG0 (s.stg.STG_COUNT % s.stg.STG_N) v else s.stg.STG0
      STG1 := if s.stg.STG_COUNT / s.stg.STG_N = 1 then memWrite s.stg.STG1 (s.stg.STG_COUNT % s.stg.STG_N) v else s.stg.STG1
      STG_COUNT := s.stg.STG_COUNT + 1 } } :=
    { inv with
      stg0Wf := by rw [pushed] at wf0; exact wf0
      stg1Wf := by rw [pushed] at wf1; exact wf1
      loadShape := fun _ => ⟨channel, fits, short⟩
      stagedLeft := fun _ f frame taken => liveWord_pushed finite fun other => by
        refine inv.stagedLeft active f frame (lt_of_le_of_ne (Nat.le_of_lt_succ taken) fun last => other ?_)
        exact frame_of_channel frame (last.symm.trans (by omega))
      stagedRight := fun _ f frame taken => liveWord_pushed finite fun other => by
        refine inv.stagedRight active f frame (lt_of_le_of_ne (Nat.le_of_lt_succ taken) fun last => other ?_)
        exact frame_of_channel frame (last.symm.trans (by omega)) }
  rw [pushed]
  exact kept

/-- The published table has live words where the staging memory had. -/
theorem liveWord_published {cap n : Nat} {source target : Space} {stage into out : Memory}
    (published : publish cap source target stage n into = .ok out) (live : ∀ f < n, LiveWord stage f) :
    ∀ f < n, LiveWord out f := by
  intro f frame
  obtain ⟨v, read, finite⟩ := live f frame
  exact ⟨v, by rw [publish_ok published, if_pos frame, read], finite⟩

/-- In a whole load every word that either table is published from is live (R39, R176). -/
theorem live_of_whole (inv : Inv P s) (active : s.stg.STG_ACTIVE = true) (whole : s.stg.STG_COUNT = loadSize s.stg) :
    ∀ f < s.stg.STG_N, LiveWord s.stg.STG0 f ∧ LiveWord (rightSource s.stg).2 f := by
  intro f frame
  obtain ⟨channel, -, -⟩ := inv.loadShape active
  have left := inv.stagedLeft active f frame
    (whole ▸ Nat.lt_of_lt_of_le frame (Nat.le_mul_of_pos_left _ channel))
  refine ⟨left, ?_⟩
  unfold rightSource
  split_ifs with stereo
  · refine inv.stagedRight active f frame ?_
    calc
      s.stg.STG_N + f < 2 * s.stg.STG_N := by omega
      _ ≤ s.stg.STG_CH.toNat * s.stg.STG_N := Nat.mul_le_mul_right _ stereo
      _ = s.stg.STG_COUNT := whole.symm
  · exact left

end Invariant

/-- Every command keeps the invariant; those that the running block could not bear run on AUDIO alone, where no block runs
(R100, R194). -/
theorem inv_of_command {s t : State} {i : Instr} (inv : Inv Config.params s)
    (idle : s.PORT ≠ .control → s.blk.BLK_ACTIVE = false) (effect : CommandEffect s i t) : Inv Config.params t := by
  have notRunning {Q : Prop} (onAudio : s.PORT ≠ .control) (active : s.blk.BLK_ACTIVE = true) : Q :=
    absurd active (Bool.eq_false_iff.mp (idle onAudio))
  cases effect with
  | refused _ cw code => exact inv_of_refuse inv cw code
  | reset onAudio inDomain =>
    exact { inv with
      queueOrder := .nil
      queueBound := Nat.zero_le _
      notesBound := Nat.zero_le _
      running := notRunning onAudio
      period := fun _ => period_of_resetOperands inDomain }
  | started onAudio ready cw =>
    exact { inv with running := fun _ => ⟨ready, Nat.zero_le _, fun _ _ => Nat.zero_le _⟩ }
  | queued onAudio room =>
    exact { inv with
      queueOrder := queueInsert_ordered inv.queueOrder _
      queueBound := (queueInsert_length ..).trans_le room
      running := notRunning onAudio }
  | dialled moved =>
    rw [moved.frame]
    exact { inv_of_grown inv moved.grown with }
  | opened channel fits =>
    exact { inv with
      loadShape := fun _ => ⟨Nat.pos_of_ne_zero fun zero => channel (BitVec.eq_of_toNat_eq zero), fits, Nat.zero_le _⟩
      stagedLeft := fun _ _ _ taken => nomatch taken
      stagedRight := fun _ _ _ taken => nomatch taken }
  | pushed finite active short staged => exact { inv_of_pushed inv finite active short staged with }
  | discarded cw => exact inv_of_refuse (inv_of_closed inv) cw .wtSequence
  | committed active whole left right =>
    obtain ⟨-, fits, -⟩ := inv.loadShape active
    have live := live_of_whole inv active whole
    exact { inv_of_closed inv with
      wtLWf := publish_wf inv.wtLWf left
      wtRWf := publish_wf inv.wtRWf right
      tableFits := fits
      leftLive := liveWord_published left fun f frame => (live f frame).1
      rightLive := liveWord_published right fun f frame => (live f frame).2 }
  | _ => exact { inv with }

/-- Settles O57, by the kinds of events. -/
theorem stepKeepsInv : Obligations.StepKeepsInv := by
  intro s t inv stepped
  refine step_keeps (fun _ _ => inv_of_sameBlock) ?_ ?_ ?_ inv stepped
  · exact fun _ _ _ idle effect inv => inv_of_command inv idle effect
  · exact fun _ _ active inside answered inv => inv_of_sampleEvent inv active inside answered
  · exact fun _ active past inv => inv_of_blockEnd inv active past

end Sys2Proof.Proofs

/-! Every step keeps the signals in their ranges and the noise state a reached one; and from a state with the invariant every
step completes (R280). -/

namespace Sys2Proof.Proofs

open Sys2Proof.Machine Sys2Proof.Claim

/-! ### The signal invariant -/

/-- The signal invariant does not look at the ports' own fields. -/
theorem signalInv_of_sameBlock {s t : State} (same : SameBlock s t) (inv : SignalInv s) : SignalInv t := by
  rw [same]
  exact { inv with }

/-- The sustain operand is in [0, 1] (R227). -/
theorem sustainOperand_inUnit {v : F64} (finite : isFinite v = true) : InUnit (sustainOperand v) := by
  rw [sustainOperand_eq]
  split_ifs with positive above
  · exact inUnit_f1
  · refine ⟨fle_of_flt positive, (fle_iff_units finite isFinite_f1).mpr ?_⟩
    exact Int.not_lt.mp (mt (flt_iff_units isFinite_f1 finite).mpr above)
  · exact inUnit_f0

/-- Every command keeps the signal invariant. -/
theorem signalInv_of_command {s t : State} {i : Instr} (inv : SignalInv s) (effect : CommandEffect s i t) : SignalInv t := by
  cases effect with
  | reset | stopped => exact { inv with envelope := inUnit_f0, elapsed := ⟨isFinite_f0, inUnit_f0.1⟩ }
  | volume power finite =>
    subst power
    exact { inv with gain := ⟨finite, pow64_ten_nonneg finite⟩ }
  | attack finite => exact { inv with attackFinite := finite }
  | decay finite => exact { inv with decayFinite := finite }
  | sustain finite => exact { inv with sustain := sustainOperand_inUnit finite }
  | release finite => exact { inv with releaseFinite := finite }
  | dialled moved =>
    rw [moved.frame]
    exact { inv with }
  | _ => exact { inv with }

/-- Delivering an event keeps the envelope in range (R198, R200, R201). -/
theorem midiEvent_inRange (P : Params) (ev : MidiEvent) {s : State} (inRange : EnvelopeInRange s.env) :
    EnvelopeInRange (midiEvent P ev s).env := by
  unfold midiEvent noteOnEv noteOffEv
  dsimp only
  split_ifs
  · exact inRange
  · exact envNoteOn_inRange inRange.out
  · exact inRange
  · exact envNoteOff_inRange inRange
  · exact inRange
  · exact inRange

/-- So does the drain (R197). -/
theorem midiDrain_inRange (P : Params) {s : State} (inRange : EnvelopeInRange s.env) :
    EnvelopeInRange (midiDrain P s).env := by
  rw [drainDelivers]
  show EnvelopeInRange ((dueEvents s).foldl (fun t ev => midiEvent P ev t) s).env
  induction dueEvents s generalizing s with
  | nil => exact inRange
  | cons ev rest ih => exact ih (midiEvent_inRange P ev inRange)

/-- A sample step with a sample period above zero keeps the signal invariant. -/
theorem signalInv_of_sampleStep {P : Params} {s t : State} (inv : SignalInv s) (dtFinite : isFinite s.DT = true)
    (dtPositive : flt f0 s.DT = true) (stepped : sampleStep P s = .ok t) : SignalInv t := by
  have drained := midiDrain_inRange P ⟨inv.envelope, inv.elapsed.1, inv.elapsed.2⟩
  have ticked := envTick_inRange drained dtFinite dtPositive inv.sustain inv.attackFinite inv.decayFinite inv.releaseFinite
  rw [sampleStep_state stepped]
  exact { inv with
    envelope := ticked.out
    elapsed := ⟨ticked.elapsedFinite, ticked.elapsedNonneg⟩
    phase := phaseAdvance_inCycle _ inv.phase.1 inv.phase.2
    mapLeft := shaperPosition_inUnit _ _
    mapRight := shaperPosition_inUnit _ _ }

/-- The end event keeps the signal invariant: the map value shown is the old one or the left shaper's (R179). -/
theorem signalInv_of_blockEnd {s : State} (inv : SignalInv s) : SignalInv (blockEnd s) := by
  have shown : InUnit (blockEnd s).SHAPER_MAP := by
    rw [blockEnd_SHAPER_MAP]
    split_ifs
    · exact inv.mapLeft
    · exact inv.mapShown
  exact { inv with mapShown := shown }

/-- Every step keeps both invariants. -/
theorem step_keeps_invariants {s t : State} (inv : Inv Config.params s) (signal : SignalInv s) (stepped : step s = .next t) :
    Inv Config.params t ∧ SignalInv t := by
  refine step_keeps (I := fun s => Inv Config.params s ∧ SignalInv s) ?_ ?_ ?_ ?_ ⟨inv, signal⟩ stepped
  · exact fun _ _ same ⟨inv, signal⟩ => ⟨inv_of_sameBlock same inv, signalInv_of_sameBlock same signal⟩
  · exact fun _ _ _ idle effect ⟨inv, signal⟩ => ⟨inv_of_command inv idle effect, signalInv_of_command signal effect⟩
  · rintro s u active inside answered ⟨inv, signal⟩
    obtain ⟨ready, -, -⟩ := inv.running active
    obtain ⟨dtFinite, dtPositive⟩ := inv.period ready
    have kept := signalInv_of_sampleStep signal dtFinite dtPositive answered
    exact ⟨inv_of_sampleEvent inv active inside answered, { kept with }⟩
  · exact fun _ active past ⟨inv, signal⟩ => ⟨inv_of_blockEnd inv active past, signalInv_of_blockEnd signal⟩

/-- Every command leaves the noise state (R141). -/
theorem CommandEffect.noiseState {i : Instr} {s t : State} (effect : CommandEffect s i t) : t.NOISE_ST = s.NOISE_ST := by
  cases effect with
  | dialled moved => rw [moved.frame]; rfl
  | _ => rfl

/-- Every step keeps the noise state a reached one (R144). -/
theorem step_noiseReached {s t : State} (reached : NoiseReached Config.params s.NOISE_ST) (stepped : step s = .next t) :
    NoiseReached Config.params t.NOISE_ST := by
  refine step_keeps (I := fun s => NoiseReached Config.params s.NOISE_ST) ?_ ?_ ?_ ?_ reached stepped
  · intro u v same reached
    rw [same]
    exact reached
  · exact fun _ _ _ _ effect reached => effect.noiseState ▸ reached
  · intro u v _ _ answered reached
    have drawn : v.NOISE_ST = (noiseStep Config.params u.par.P_TINT
        (rampTick u.DT (midiDrain Config.params u).RMP_RATE).cur u).NOISE_ST := by
      rw [sampleStep_state answered]
      rfl
    exact drawn ▸ noiseStep_reached _ _ reached
  · exact fun _ _ _ reached => reached

/-- Settles O58: both invariants together, and the noise state by itself. -/
theorem stepKeepsSignalInv : Obligations.StepKeepsSignalInv :=
  fun _ _ stepped => ⟨fun inv signal => (step_keeps_invariants inv signal stepped).2,
    fun reached => step_noiseReached reached stepped⟩

/-! ### Completion -/

/-- With the invariant both shapers answer: an empty table reads nothing, and a loaded one is written (R169, R171). -/
theorem shaperOutput_answers {P : Params} {s : State} (inv : Inv P s) (c : Side) (p : F64) :
    ∃ y, shaperOutput P c p s = .ok y := by
  by_cases empty : s.WT_N = 0
  · exact ⟨f0, shaperOutput_of_empty empty P c p⟩
  · have written : ∀ a < s.WT_N, memRead (sideTable c s) a = some ((memRead (sideTable c s) a).getD f0) := by
      intro a inTable
      have live : LiveWord (sideTable c s) a := by
        cases c
        · exact inv.leftLive a inTable
        · exact inv.rightLive a inTable
      obtain ⟨v, read, -⟩ := live
      rw [read]
      rfl
    exact ⟨_, shaperLookup_of_written empty inv.tableFits written _⟩

/-- With the invariant a sample step answers. -/
theorem sampleStep_answers {P : Params} {s : State} (inv : Inv P s) : ∃ t, sampleStep P s = .ok t := by
  obtain ⟨yL, left⟩ := shaperOutput_answers inv .left (sampleScrub P s).1
  obtain ⟨yR, right⟩ := shaperOutput_answers inv .right (sampleScrub P s).1
  exact ⟨_, sampleStep_ok_iff.mpr ⟨yL, yR, left, right, rfl⟩⟩

/-- With the invariant a push answers (R174). -/
theorem wtPush_answers {P : Params} {s : State} (inv : Inv P s) (v : F64) : ∃ t, wtPush P v s = .ok t := by
  by_cases finite : isFinite v = true
  · by_cases outOfSequence : s.stg.STG_ACTIVE = false ∨ loadSize s.stg ≤ s.stg.STG_COUNT
    · exact ⟨_, wtPush_of_out_of_sequence finite outOfSequence⟩
    · obtain ⟨opened, short⟩ := not_or.mp outOfSequence
      have active := Bool.eq_true_of_not_eq_false opened
      have frames : 0 < s.stg.STG_N := Nat.pos_of_ne_zero fun none => by simp [loadSize, none] at short
      obtain ⟨-, fits, -⟩ := inv.loadShape active
      obtain ⟨g, pushed⟩ := pushSample_answers v (Nat.lt_of_lt_of_le (Nat.mod_lt s.stg.STG_COUNT frames) fits)
      exact ⟨_, wtPush_of_open finite active (Nat.not_le.mp short) pushed⟩
  · exact ⟨_, wtPush_of_not_finite (Bool.eq_false_iff.mpr finite)⟩

/-- With the invariant a commit answers (R175). -/
theorem wtCommit_answers {P : Params} {s : State} (inv : Inv P s) : ∃ t, wtCommit P s = .ok t := by
  by_cases active : s.stg.STG_ACTIVE = true
  · by_cases whole : s.stg.STG_COUNT = loadSize s.stg
    · obtain ⟨-, fits, -⟩ := inv.loadShape active
      have staged := staged_of_whole inv active whole
      obtain ⟨l, left⟩ := publish_answers .stg0 .wtL s.WT_L fits fun f frame => (staged f frame).1
      obtain ⟨r, right⟩ := publish_answers (rightSource s.stg).1 .wtR s.WT_R fits fun f frame => (staged f frame).2
      exact ⟨_, wtCommit_of_whole active whole left right⟩
    · exact ⟨_, wtCommit_of_short active whole⟩
  · exact ⟨_, wtCommit_of_closed (Bool.eq_false_iff.mpr active)⟩

/-- With the invariant every command completes. -/
theorem exec_completes {s : State} (inv : Inv Config.params s) (i : Instr) : ∃ t, exec i s = .next t := by
  cases i with
  | wtPush v => exact (wtPush_answers inv v).imp fun _ => ofExcept_next.mpr
  | wtCommit => exact (wtCommit_answers inv).imp fun _ => ofExcept_next.mpr
  | _ => exact ⟨_, rfl⟩

/-- With the invariant a port's next command completes, whatever its stream holds. -/
theorem commandEvent_completes {s : State} (inv : Inv Config.params s) (port : Port) :
    ∃ t, commandEvent port (countMerge s) = .next t := by
  unfold commandEvent
  split
  · exact ⟨_, rfl⟩
  · exact ⟨_, rfl⟩
  · next i rest _ =>
    obtain ⟨t, executed⟩ := exec_completes (inv_of_sameBlock (sameBlock_takeCommand port rest s).1 inv) i
    rw [executed]
    exact ⟨_, rfl⟩

/-- With the invariant a block's next event completes. -/
theorem blockEvent_completes {P : Params} {s : State} (inv : Inv P s) : ∃ t, blockEvent P s = .next t := by
  obtain ⟨u, answered⟩ := sampleStep_answers inv
  unfold blockEvent
  split_ifs
  · exact ⟨_, ofExcept_next.mpr (sampleEvent_ok.mpr ⟨u, answered, rfl⟩)⟩
  · exact ⟨_, rfl⟩

/-- Settles O59, by the event of the step. -/
theorem everyStepCompletesUnderInvariants : Obligations.EveryStepCompletesUnderInvariants := by
  intro s inv
  unfold step event
  split
  · exact ⟨s, rfl⟩
  · exact commandEvent_completes inv .control
  · split_ifs
    · exact blockEvent_completes (inv_of_sameBlock (sameBlock_countMerge s) inv)
    · exact commandEvent_completes inv .audio

end Sys2Proof.Proofs

/-! A whole block (R193): its start event, its sample steps and its end event, with the CONTROL port quiet. -/

namespace Sys2Proof.Proofs

open Sys2Proof.Machine Sys2Proof.Claim

/-- A run goes on from the state after its first step. -/
theorem core_run_succ (M : Host.Core) {s t : M.State} (stepped : M.step s = .next t) (k : Nat) :
    M.run (k + 1) s = M.run k t := by
  rw [Host.Core.run, stepped]

/-- A run of the machine goes on from the state after its first step. -/
theorem run_succ {s t : State} (stepped : step s = .next t) (k : Nat) :
    Host.Core.run Sys2Proof.core (k + 1) s = Host.Core.run Sys2Proof.core k t :=
  core_run_succ Sys2Proof.core stepped k

/-- A sample step writes one finite word per selected channel of the running frame, and no other word of `OUT` (R188, R189). -/
theorem sampleStep_words {P : Params} {s t : State} (stepped : sampleStep P s = .ok t) :
    ∃ word : BitVec 4 → F64, (∀ ch, isFinite (word ch) = true) ∧ ∀ ch f, hostRead t ch f =
      if ch.toNat < s.blk.BLK_C.toNat ∧ f = s.blk.BLK_S then some (word ch) else hostRead s ch f := by
  obtain ⟨yL, yR, -, -, rfl⟩ := sampleStep_ok_iff.mp stepped
  exact ⟨_, fun _ => isFinite_outWord _, hostRead_sampleStep yL yR s⟩

/-- What the events of a block up to its end keep of a state. -/
structure Untouched (s u : State) : Prop where
  par : u.par = s.par
  tableSize : u.WT_N = s.WT_N
  tableLeft : u.WT_L = s.WT_L
  tableRight : u.WT_R = s.WT_R
  staging : u.stg = s.stg
  slots : u.SNAP = s.SNAP
  shown : u.SHAPER_MAP = s.SHAPER_MAP
  control : u.CONTROL_IN = s.CONTROL_IN
  controlResponses : u.CONTROL_RESP = s.CONTROL_RESP
  audioResponses : u.AUDIO_RESP = s.AUDIO_RESP

/-- The words of `OUT` after the first k frames of a block of c channels. -/
structure Written (c : BitVec 4) (k : Nat) (s u : State) : Prop where
  inside : ∀ (ch : BitVec 4) (f : BitVec 20), ch.toNat < c.toNat → f.toNat < k →
    ∃ v, hostRead u ch f = some v ∧ isFinite v = true
  outside : ∀ (ch : BitVec 4) (f : BitVec 20), ¬ (ch.toNat < c.toNat ∧ f.toNat < k) → hostRead u ch f = hostRead s ch f

/-- The state u stands before frame k of a block of n frames and c channels that started in s. -/
structure Rendering (n : BitVec 20) (c : BitVec 4) (rest : List Byte) (k : Nat) (s u : State) : Prop where
  inv : Inv Config.params u
  active : u.blk.BLK_ACTIVE = true
  sample : u.blk.BLK_S.toNat = k
  frames : u.blk.BLK_N = n
  channels : u.blk.BLK_C = c
  stream : u.AUDIO_IN = rest
  draws : u.DRAWS = s.DRAWS + k
  untouched : Untouched s u
  written : Written c k s u

section Block

variable {n : BitVec 20} {c : BitVec 4} {rest : List Byte} {k : Nat} {s u : State}

/-- A PROCESS_BLOCK on AUDIO, when ready, starts its block (R193). -/
theorem exec_processBlock_of_ready (onAudio : s.PORT = .audio) (ready : s.READY = true) :
    exec (.processBlock n c) s = .next { s with blk :=
      { BLK_ACTIVE := true, BLK_S := 0#20, BLK_N := n, BLK_C := c, BLK_CW := (Instr.processBlock n c).commandWord } } := by
  refine congrArg Host.Outcome.next ?_
  rw [processBlock, onAudio_audio onAudio, whenReady_of_ready (by simp [ready])]

/-- The start event of a block on AUDIO (R193). -/
theorem rendering_of_start (inv : Inv Config.params s) (ready : s.READY = true) (idle : s.blk.BLK_ACTIVE = false)
    (decoded : decode s.AUDIO_IN = .command (.processBlock n c) rest) (quiet : hasCommand s.CONTROL_IN = false) :
    ∃ u, step s = .next u ∧ Rendering n c rest 0 s u := by
  obtain ⟨stepped, -⟩ := stepRunsAudioCommand s rest idle (.inl quiet)
  have started := stepped _ decoded
  rw [exec_processBlock_of_ready] at started
  rotate_left
  · rfl
  · exact ready
  refine ⟨_, started, ?_⟩
  exact
    { inv := stepKeepsInv s _ inv started
      active := rfl
      sample := rfl
      frames := rfl
      channels := rfl
      stream := rfl
      draws := rfl
      untouched := ⟨rfl, rfl, rfl, rfl, rfl, rfl, rfl, rfl, rfl, rfl⟩
      written := ⟨fun _ _ _ none => absurd none (Nat.not_lt_zero _), fun _ _ _ => rfl⟩ }

/-- A frame that is written adds its words to those of the frames before it (R188). -/
theorem written_succ {u' v : State} (written : Written c k s u) (sample : u.blk.BLK_S.toNat = k) {word : BitVec 4 → F64}
    (finite : ∀ ch, isFinite (word ch) = true)
    (words : ∀ ch f, hostRead v ch f =
      if ch.toNat < c.toNat ∧ f = u.blk.BLK_S then some (word ch) else hostRead u' ch f)
    (sameOut : u'.OUT = u.OUT) : Written c (k + 1) s v := by
  have before (ch : BitVec 4) (f : BitVec 20) : hostRead u' ch f = hostRead u ch f := by rw [hostRead, sameOut, hostRead]
  have isFrame (f : BitVec 20) : f = u.blk.BLK_S ↔ f.toNat = k := by rw [← BitVec.toNat_inj, sample]
  constructor
  · intro ch f channel frame
    rw [words]
    split_ifs with now
    · exact ⟨_, rfl, finite ch⟩
    · rw [before]
      refine written.inside ch f channel (lt_of_le_of_ne (Nat.le_of_lt_succ frame) fun last => now ?_)
      exact ⟨channel, (isFrame f).mpr last⟩
  · intro ch f other
    have notNow : ¬ (ch.toNat < c.toNat ∧ f = u.blk.BLK_S) := fun ⟨channel, now⟩ =>
      other ⟨channel, ((isFrame f).mp now).trans_lt (Nat.lt_succ_self k)⟩
    rw [words, if_neg notNow, before]
    exact written.outside ch f fun ⟨channel, frame⟩ => other ⟨channel, frame.trans (Nat.lt_succ_self k)⟩

/-- A sample step of a block goes on to its next frame (R193, R196). -/
theorem rendering_succ (rendering : Rendering n c rest k s u) (inside : k < n.toNat)
    (quiet : hasCommand s.CONTROL_IN = false) : ∃ v, step u = .next v ∧ Rendering n c rest (k + 1) s v := by
  have uQuiet : hasCommand u.CONTROL_IN = false := by rw [rendering.untouched.control, quiet]
  have uInside : u.blk.BLK_S.toNat < u.blk.BLK_N.toNat := by rw [rendering.sample, rendering.frames]; exact inside
  obtain ⟨samples, -⟩ := stepRunsBlock u rendering.active (.inl uQuiet)
  obtain ⟨v, answered⟩ := sampleStep_answers (s := { u with
    MERGES := if hasCommand u.CONTROL_IN then u.MERGES + 1 else u.MERGES }) { rendering.inv with }
  have stepped := samples uInside v answered
  obtain ⟨word, finite, words⟩ := sampleStep_words answered
  have state := sampleStep_state answered
  have next : (u.blk.BLK_S + 1#20).toNat = k + 1 := by
    have := n.isLt
    rw [BitVec.toNat_add, rendering.sample]
    exact Nat.mod_eq_of_lt (by simp; omega)
  refine ⟨_, stepped, ?_⟩
  have kept : Untouched s v := by
    rw [state]
    exact { rendering.untouched with }
  have sequencer : v.blk = u.blk := by rw [state]
  exact
    { inv := stepKeepsInv u _ rendering.inv stepped
      active := by rw [sequencer]; exact rendering.active
      sample := by rw [sequencer]; exact next
      frames := by rw [sequencer]; exact rendering.frames
      channels := by rw [sequencer]; exact rendering.channels
      stream := by rw [state]; exact rendering.stream
      draws := by rw [state]; exact congrArg (· + 1) rendering.draws
      untouched := { kept with }
      written :=
        have words := rendering.channels ▸ words
        have grown := written_succ rendering.written rendering.sample finite words rfl
        ⟨grown.inside, grown.outside⟩ }

/-- The state after the end event of a block of n frames (R193). -/
structure Rendered (n : BitVec 20) (c : BitVec 4) (rest : List Byte) (s t : State) : Prop where
  idle : t.blk.BLK_ACTIVE = false
  sample : t.blk.BLK_S = n
  stream : t.AUDIO_IN = rest
  audioResponses : t.AUDIO_RESP = s.AUDIO_RESP ++ [0#64]
  controlResponses : t.CONTROL_RESP = s.CONTROL_RESP
  draws : t.DRAWS = s.DRAWS + n.toNat
  par : t.par = s.par
  tableSize : t.WT_N = s.WT_N
  tableLeft : t.WT_L = s.WT_L
  tableRight : t.WT_R = s.WT_R
  staging : t.stg = s.stg
  slots : t.SNAP = s.SNAP
  shown : t.SHAPER_MAP = if n = 0#20 then s.SHAPER_MAP else t.SHP_LAST_L
  written : Written c n.toNat s t

/-- After its last frame a block ends with one response 0 (R193, R208). -/
theorem rendered_of_last (rendering : Rendering n c rest n.toNat s u) (quiet : hasCommand s.CONTROL_IN = false) :
    ∃ t, step u = .next t ∧ Rendered n c rest s t := by
  have uQuiet : hasCommand u.CONTROL_IN = false := by rw [rendering.untouched.control, quiet]
  have uPast : u.blk.BLK_N.toNat ≤ u.blk.BLK_S.toNat := by rw [rendering.sample, rendering.frames]
  obtain ⟨-, ends⟩ := stepRunsBlock u rendering.active (.inl uQuiet)
  have kept := rendering.untouched
  refine ⟨_, ends uPast, ?_⟩
  exact
    { idle := rfl
      sample := BitVec.eq_of_toNat_eq rendering.sample
      stream := rendering.stream
      audioResponses := congrArg (· ++ [0#64]) kept.audioResponses
      controlResponses := kept.controlResponses
      draws := rendering.draws
      par := kept.par
      tableSize := kept.tableSize
      tableLeft := kept.tableLeft
      tableRight := kept.tableRight
      staging := kept.staging
      slots := kept.slots
      shown := by
        dsimp only
        rw [rendering.frames, kept.shown]
      written := ⟨rendering.written.inside, rendering.written.outside⟩ }

/-- From before frame k, the m frames that are left and the end event. -/
theorem run_rendering (quiet : hasCommand s.CONTROL_IN = false) (m : Nat) (rendering : Rendering n c rest k s u)
    (left : k + m = n.toNat) : ∃ t, Host.Core.run Sys2Proof.core (m + 1) u = .next t ∧ Rendered n c rest s t := by
  induction m generalizing k u with
  | zero =>
    obtain rfl : k = n.toNat := left
    obtain ⟨t, stepped, rendered⟩ := rendered_of_last rendering quiet
    exact ⟨t, run_succ stepped 0, rendered⟩
  | succ m ih =>
    obtain ⟨v, stepped, next⟩ := rendering_succ rendering (by omega) quiet
    obtain ⟨t, ran, rendered⟩ := ih next (by omega)
    exact ⟨t, (run_succ stepped (m + 1)).trans ran, rendered⟩

end Block

/-- Settles O60, by induction on the frames of the block after its start event. -/
theorem blockRenders : Obligations.BlockRenders := by
  intro s n c rest inv ready idle decoded quiet
  obtain ⟨u, started, rendering⟩ := rendering_of_start inv ready idle decoded quiet
  obtain ⟨t, ran, done⟩ := run_rendering quiet n.toNat rendering (Nat.zero_add _)
  refine ⟨t, (run_succ started _).trans ran, done.idle, done.sample, done.stream, done.audioResponses, done.controlResponses,
    done.draws, done.par, done.tableSize, done.tableLeft, done.tableRight, done.staging, done.slots, done.shown, ?_⟩
  exact fun ch f => ⟨done.written.inside ch f, done.written.outside ch f⟩

end Sys2Proof.Proofs
